-- ==== Sys2Proof/Word.lean ====
section
/-! DEFINITION. The value types of the HCC: bytes, 32-bit words, bit sequences (R10, R11), node indices, tables by byte. -/

namespace Sys2Proof

/-- A byte: "an unsigned 8-bit value, 0 to 255" (R10). -/
abbrev Byte := BitVec 8

/-- A 32-bit host register value (R22), counter or length. -/
abbrev Word := BitVec 32

/-- A bit sequence, "an ordered, finite sequence of bits", first bit first; `true` is bit 1 (R11). -/
abbrev Code := List Bool

/-- The index of a tree node in the arena, 9 bits (R31). -/
abbrev NodeIdx := BitVec 9

/-- One entry per byte value: the shape of `FREQ[0..255]` and `CT_*[0..255]` (R30, R35). -/
abbrev ByteTable (α : Type) := Vector α 256

end Sys2Proof
end

