-- ==== Sys2Proof/Syntax.lean ====
section
/-! DEFINITION. The operations of spec/opcode_table.json, the two formats (R80), and the host's actions (R22, R94). -/

namespace Sys2Proof

/-- The rows of the opcode table; none has an operand field (R80). -/
inductive Instr where
  /-- `COMPRESS`, CMD `0x01` (R200). -/
  | compress
  /-- `DECOMPRESS`, CMD `0x02` (R202). -/
  | decompress
  /-- `FREQ`, PHASE `0x10` (R112). -/
  | freq
  /-- `BUILD`, PHASE `0x20` (R126). -/
  | build
  /-- `PQ_INIT`, PHASE `0x21` (R122). -/
  | pqInit
  /-- `PQ_INSERT`, PHASE `0x22` (R123). -/
  | pqInsert
  /-- `PQ_EXTRACT_MIN`, PHASE `0x23` (R124). -/
  | pqExtractMin
  /-- `MERGE`, PHASE `0x24` (R125). -/
  | merge
  /-- `GENCODES`, PHASE `0x30` (R143). -/
  | gencodes
  /-- `PACK`, PHASE `0x40` (R152). -/
  | pack
  /-- `HDR_WRITE`, PHASE `0x50` (R161). -/
  | hdrWrite
  /-- `PAYLOAD_WRITE`, PHASE `0x51` (R162). -/
  | payloadWrite
  /-- `HDR_READ`, PHASE `0x60` (R163). -/
  | hdrRead
  /-- `RMAP_BUILD`, PHASE `0x70` (R181). -/
  | rmapBuild
  /-- `UNPACK`, PHASE `0x71` (R182). -/
  | unpack
  /-- `UNPACK_BIT`, PHASE `0x72` (R183). -/
  | unpackBit
deriving DecidableEq, Repr

/-- The two formats (R80): a value the host writes to `CMD`, a value the sequencer holds in `PHASE`. -/
inductive Format where
  | cmd
  | phase
deriving DecidableEq, Repr

/-- The format of an operation in the opcode table. -/
def Instr.format : Instr → Format
  | .compress => .cmd
  | .decompress => .cmd
  | .freq => .phase
  | .build => .phase
  | .pqInit => .phase
  | .pqInsert => .phase
  | .pqExtractMin => .phase
  | .merge => .phase
  | .gencodes => .phase
  | .pack => .phase
  | .hdrWrite => .phase
  | .payloadWrite => .phase
  | .hdrRead => .phase
  | .rmapBuild => .phase
  | .unpack => .phase
  | .unpackBit => .phase

/-- An operation together with the register it is issued through: the host issues through `CMD`, the sequencer through
`PHASE` (R80). -/
structure Issue where
  format : Format
  instr : Instr
deriving DecidableEq, Repr

/-- What the host, the block's only outside agent, can do (R20, R22, R94, R250, R252). -/
inductive HostAction where
  /-- Write one byte of IN. -/
  | writeIn (index : Word) (value : Byte)
  /-- Write a host register by number (R22); a write of register 0 is the write of `CMD`. -/
  | writeReg (number : Nat) (value : Word)
  /-- Read a host register by number (R22). -/
  | readReg (number : Nat)
  /-- Read one byte of IN (R21). -/
  | readIn (index : Word)
  /-- Read one byte of OUT (R21). -/
  | readOut (index : Word)
  /-- The pseudo-instruction `MOVE` (R94): read `n = OUT_LEN` and `OUT[0 .. n)`, then `LOAD` those bytes. -/
  | move
  /-- The external reset (R250). -/
  | reset
deriving DecidableEq, Repr

end Sys2Proof
end

