-- ==== Sys2Proof/WellFormed.lean ====
section
/-! DEFINITION. Well-formedness of an issued operation: it is issued in the format its row of the table gives (R82). -/

namespace Sys2Proof

/-- The operations of format PHASE "cannot be issued by the host" and the sequencer runs no other (R82). There is
nothing else to check: no operation has an operand field (R80). -/
def Issue.wellFormed (x : Issue) : Bool := x.instr.format == x.format

end Sys2Proof
end

