-- ==== Sys2Proof/Decode.lean ====
section
/-! DEFINITION. Decoding of `CMD` and `PHASE` values (R81, R82), total and rejecting by name; the encoder after it. -/

namespace Sys2Proof

/-- Why a value is no operation. -/
inductive DecodeError where
  /-- A `CMD` value whose bits 7:0 are neither `0x01` nor `0x02` (R81, R203). -/
  | badOpcode (code : Byte)
  /-- A value that `PHASE` "never" holds while an operation runs (R82); `0x00`, IDLE, is no operation either. -/
  | notAPhase (code : Byte)
deriving DecidableEq, Repr

/-- The rows of format CMD (R81). -/
def cmdRows : List (Byte × Instr) :=
  [(0x01#8, .compress), (0x02#8, .decompress)]

/-- The rows of format PHASE (R82). -/
def phaseRows : List (Byte × Instr) :=
  [(0x10#8, .freq),
   (0x20#8, .build), (0x21#8, .pqInit), (0x22#8, .pqInsert), (0x23#8, .pqExtractMin), (0x24#8, .merge),
   (0x30#8, .gencodes), (0x40#8, .pack),
   (0x50#8, .hdrWrite), (0x51#8, .payloadWrite), (0x60#8, .hdrRead),
   (0x70#8, .rmapBuild), (0x71#8, .unpack), (0x72#8, .unpackBit)]

/-- The operation an 8-bit value stands for in a format. -/
def decode (f : Format) (w : Byte) : Except DecodeError Instr :=
  match f with
  | .cmd =>
    match cmdRows.lookup w with
    | some i => .ok i
    | none => .error (.badOpcode w)
  | .phase =>
    match phaseRows.lookup w with
    | some i => .ok i
    | none => .error (.notAPhase w)

/-- The bits of a host write of `CMD` that are decoded: "bits 31:8 of the write are ignored" (R81). -/
def commandByte (v : Word) : Byte := v.setWidth 8

/-- The value that stands for an operation in its own format (R81, R82). -/
def encode : Instr → Byte
  | .compress => 0x01#8
  | .decompress => 0x02#8
  | .freq => 0x10#8
  | .build => 0x20#8
  | .pqInit => 0x21#8
  | .pqInsert => 0x22#8
  | .pqExtractMin => 0x23#8
  | .merge => 0x24#8
  | .gencodes => 0x30#8
  | .pack => 0x40#8
  | .hdrWrite => 0x50#8
  | .payloadWrite => 0x51#8
  | .hdrRead => 0x60#8
  | .rmapBuild => 0x70#8
  | .unpack => 0x71#8
  | .unpackBit => 0x72#8

/-- The operation a word of the opcode table stands for: the table lists both formats, whose values are different. -/
def decodeTableWord (nbits w : Nat) : Option Instr :=
  if nbits = 8 ∧ w < 256 then
    match decode .cmd (BitVec.ofNat 8 w) with
    | .ok i => some i
    | .error _ =>
      match decode .phase (BitVec.ofNat 8 w) with
      | .ok i => some i
      | .error _ => none
  else none

end Sys2Proof
end

