-- ==== Sys2Proof/Machine/Internals.lean ====
section
/-! DEFINITION. The internal registers of the core (10_state.md sections 2 to 5), which no host access reaches (R21). -/

namespace Sys2Proof.Machine

/-- An entry of the arena `NODE` (R31). `leaf = 1` is the constructor `leaf`, which has no children; `leaf = 0` is
`inner`, which has no symbol: the fields that R31 says hold no value are not there to be read. -/
inductive Node where
  | leaf (freq : Word) (sym : Byte)
  | inner (freq : Word) (left right : NodeIdx)
deriving DecidableEq, Repr, Inhabited

/-- The internal registers. An array with a count register is a list of its valid entries, whose length is the count
(`NODE_CNT`, `HEAP_SIZE`, `SP`, `PAY_LEN`, `ACC_LEN`), since entries at and above the count "hold no value" (R42). Only of
NODE can an operation read such an entry, so the model holds those of NODE too. -/
structure Internals where
  /-- `FREQ[0..255]` (R30). -/
  freq : ByteTable Word
  /-- `NODE[0 .. NODE_CNT)` (R31). -/
  node : List Node
  /-- `NODE[NODE_CNT .. 511)`, the entries that are not allocated (R31). DESIGN CHOICE (log 6). -/
  nodeRest : List Node
  /-- `HEAP[0 .. HEAP_SIZE)` (R32). -/
  heap : List NodeIdx
  /-- `ROOT` (R33). -/
  root : NodeIdx
  /-- `DEGEN_SIG` (R33). -/
  degenSig : Bool
  /-- The code table `CT` (R35): `CT_VALID[b]` says whether there is an entry, `CT_BITS[b]` is the entry and
  `CT_LEN[b]` its length. -/
  ct : ByteTable (Option Code)
  /-- `STK[0 .. SP)`, the entry last pushed first (R37). -/
  stk : List (NodeIdx × Code)
  /-- `ICUR` (R29). -/
  icur : BitVec 32
  /-- `HCUR` (R29). -/
  hcur : BitVec 32
  /-- `BITCUR` (R29). -/
  bitcur : BitVec 64
  /-- `BITBUF` (R39). -/
  bitbuf : BitVec 8
  /-- `BITFILL` (R39). -/
  bitfill : BitVec 3
  /-- `BITCNT` (R39). -/
  bitcnt : BitVec 64
  /-- `PAY[0 .. PAY_LEN)` (R39). -/
  pay : List Byte
  /-- `ACC` (R41); its length is `ACC_LEN`. -/
  acc : Code
  /-- `TRUE_BITS` (R41). -/
  trueBits : BitVec 64
  /-- `RMAP`, a partial function held as pairs (R41). -/
  rmap : List (Code × Byte)
  /-- The operand `n` of PQ_INSERT(n) and the operand `a` of MERGE(a, b) (R123, R125). DESIGN CHOICE (log 7). -/
  opA : NodeIdx
  /-- The operand `b` of MERGE(a, b) (R125). DESIGN CHOICE (log 7). -/
  opB : NodeIdx
  /-- The index that PQ_EXTRACT_MIN or MERGE returned (R124, R125). DESIGN CHOICE (log 7). -/
  res : NodeIdx
deriving DecidableEq, Repr, Inhabited

end Sys2Proof.Machine
end

