-- ==== Sys2Proof/Config.lean ====
section
/-! DEFINITION. The parameters of R8 and the free values of 93_implementation_defined.md (V1, V3, V4). -/

namespace Sys2Proof

/-- The capacities that R8 leaves OPEN; 32 bits each, so that `IN_CAP` and `OUT_CAP` are at most 2^32 − 1 (D35). -/
structure Params where
  /-- `IN_CAP`, the capacity of IN in bytes. -/
  inCap : Word
  /-- `OUT_CAP`, the capacity of OUT in bytes. -/
  outCap : Word
deriving DecidableEq, Repr

namespace Config

/-- The capacities of the machine that `State.reset` builds. DESIGN CHOICE (log 1): R8 leaves them open; every other
pair is reached through `State.resetWith`. -/
def params : Params := { inCap := 0xFFFFFFFF#32, outCap := 0xFFFFFFFF#32 }

/-- `MAX_NODES` (R8). -/
def maxNodes : Nat := 511

/-- `HEAP_CAP` (R8). -/
def heapCap : Nat := 256

/-- `MAX_CODE_LEN` (R8). -/
def maxCodeLen : Nat := 255

/-- `PAD_MAX` (R8). -/
def padMax : Nat := 7

/-- `ALPHABET` (R8), the largest legal entry count (R84). -/
def alphabet : Nat := 256

/-- `REG_BASE` (R8), where the host registers sit on a bus: OPEN, and no rule uses it (log 16). -/
opaque regBase : Word

/-- The byte of IN at an index the host has not written since reset number `draw` (V1): any value. -/
opaque freeInByte (draw index : Nat) : Byte

/-- The byte of OUT at an index outside the result of the last command (V1, V3, V9): any value. -/
opaque freeOutByte (draw index : Nat) : Byte

/-- `PAD` after an error (R231, V4): any value. -/
opaque freePad (draw : Nat) : BitVec 3

/-- `ENTRY_CNT` after an error (R231, V4): any value. -/
opaque freeEntryCnt (draw : Nat) : BitVec 9

/-- `HDR_LEN` after an error (R231, V4): any value. -/
opaque freeHdrLen (draw : Nat) : Word

/-- The internal registers before the current command has written them, and after an error (R42, R231, V2). -/
opaque freeInternals (draw : Nat) : Machine.Internals

/-- The entries of `NODE` that are not allocated, once `PQ_INIT` has set `NODE_CNT` to 0 in the given registers: they
"hold no value" (R42), any value (log 6). -/
opaque freeNodes (before : Machine.Internals) : List Machine.Node

/-- What an index names that `NODE` does not have (R31, log 6): any value. -/
opaque freeNode (index : NodeIdx) : Machine.Node

/-- `sym` of an internal node, which holds no value (R31, R42, log 6): any value. -/
opaque freeSym (index : NodeIdx) (node : Machine.Node) : Byte

/-- An entry of `HEAP` at or above `HEAP_SIZE`, which holds no value (R42): any value. No operation reads one. -/
opaque freeHeapEntry (index : Nat) : NodeIdx

end Config
end Sys2Proof
end

