-- ==== Sys2Proof/Machine/State.lean ====
section
/-! DEFINITION. The state of the HCC (10_state.md), its reset (R44, R250), and the reasons a step can stop. -/

namespace Sys2Proof.Machine

/-- `STATUS.STATE` (R24). -/
inductive RunState where
  /-- 0: no command since reset. -/
  | idle
  /-- 1: a command is running. -/
  | busy
  /-- 2: the last command succeeded. -/
  | done
  /-- 3: the last command raised an error. -/
  | error
deriving DecidableEq, Repr

/-- The fields of `STATUS` (R24); bits 31:4 read 0. -/
structure Status where
  state : RunState
  empty : Bool
  degen : Bool
deriving DecidableEq, Repr

/-- The kinds that `ERR` can hold (R221). -/
inductive ErrKind where
  | none
  | ioError
  | malformedHeader
  | decodeMismatch
  | illegalCommand
deriving DecidableEq, Repr

/-- The sub-causes that `ERRSUB` can hold (R222). -/
inductive ErrSub where
  | none
  | inRange
  | outFull
  | truncated
  | badPad
  | badCount
  | dupSymbol
  | badLen
  | badBitsym
  | notPrefixFree
  | padExceedsPayload
  | noCode
  | noMatch
  | leftoverBits
  | badOpcode
deriving DecidableEq, Repr

/-- A point at which a unit operation that calls primitives is resumed when a primitive has run as a step of its own:
the part of R27's program counter that `PHASE` does not hold. DESIGN CHOICE (log 8). -/
inductive Resume where
  /-- The operation that `PHASE` names has not begun. -/
  | start
  /-- PQ_EXTRACT_MIN is the second extraction of a round of BUILD (R126). -/
  | secondExtract
  /-- In BUILD after PQ_INIT: the test `HEAP_SIZE = 1` is next (R126). -/
  | buildTest
  /-- In BUILD after PQ_INSERT: the test `HEAP_SIZE > 1` is next (R126). -/
  | buildLoop
  /-- In UNPACK after UNPACK_BIT: the test `BITCUR < TRUE_BITS` is next (R182). -/
  | unpackLoop
deriving DecidableEq, Repr

/-- A buffer's written bytes, at strictly rising indices; an index that is not listed holds no written byte. -/
abbrev Memory := List Host.Cell

/-- The canonical form of a buffer: strictly rising indices. An unlisted index carries no byte, so no entry can equal
what an unlisted index carries. -/
abbrev Memory.wf (m : Memory) : Prop := (m.map Prod.fst).Pairwise (· < ·)

/-- Everything the spec gives the machine, and the model's own fields of INVENTORY.md. -/
structure State where
  /-- The OPEN capacities (R8, R23); no step changes them. -/
  params : Params
  /-- `STATUS` (R24). -/
  status : Status
  /-- `ERR` (R221). -/
  err : ErrKind
  /-- `ERRSUB` (R222). -/
  errSub : ErrSub
  /-- `ERRINFO` (R223). -/
  errInfo : Word
  /-- `IN_LEN` (R22). -/
  inLen : Word
  /-- `OUT_LEN` (R22). -/
  outLen : Word
  /-- `PAD` (R22). -/
  pad : BitVec 3
  /-- `ENTRY_CNT` (R22). -/
  entryCnt : BitVec 9
  /-- `HDR_LEN` (R22). -/
  hdrLen : Word
  /-- `PHASE` (R27, R28). -/
  phase : Byte
  /-- The part of the program counter that is not `PHASE` (R27). -/
  resume : Resume
  /-- The written bytes of `IN` (R60). -/
  inMem : Memory
  /-- The written bytes of `OUT` (R60). -/
  outMem : Memory
  /-- The internal registers (R29 to R41). -/
  int : Internals
  /-- The host's pending actions, the next one first (R20, R252). The model's own (log 9). -/
  hostQueue : List HostAction
  /-- The value the host's last read returned. The model's own (log 9). -/
  hostRead : Word
  /-- Which draw of a free value an unwritten byte of IN reads as (V1). The model's own (log 5). -/
  inDraw : Nat
  /-- Which draw of a free value an unwritten byte of OUT reads as and the next error leaves (V3, V4). The model's own
  (log 5). -/
  outDraw : Nat
deriving DecidableEq, Repr

/-- Why a step stops without an effect the spec gives. No command reaches one of these (R42, R62, R82). -/
inductive Fault where
  /-- Raised by a host access to an index at or above a buffer's capacity, and by a unit operation that would read IN
  beyond `IN_CAP` or beyond `IN_LEN` (R12, R62). Safe. -/
  | noSuchByte
  /-- Raised by the step when a command runs and `PHASE` holds a value that it "never" holds (R82). Safe. -/
  | phaseNeverHeld
deriving DecidableEq, Repr

/-- Why an operation is refused: it is run outside the domain its rule states (V6). No command does so. -/
inductive Refusal where
  /-- An operation of the opcode table that has no meaning yet. Safe. -/
  | notModelled (mnemonic : String)
  /-- BUILD with no counter of FREQ at 1 or more (R126, R128, V6). Safe. -/
  | emptyMapping
  /-- PQ_EXTRACT_MIN, or the reading of `ROOT` in BUILD, with `HEAP_SIZE = 0` (R124, V6). Safe. -/
  | emptyHeap
  /-- PQ_INSERT with `HEAP_SIZE = 256` (R123). Safe. -/
  | fullHeap
  /-- PQ_INSERT of a node that is in the heap (R123). Safe. -/
  | nodeInHeap
  /-- MERGE with `NODE_CNT = 511`: there is no `NODE[511]` (R31). Safe. -/
  | fullArena
  /-- GENCODES on an arena that is no tree: more than the 511 visits of R259. Safe. -/
  | notATree
  /-- UNPACK with `HDR_LEN > IN_LEN` (R182). Safe. -/
  | headerBeyondInput
  /-- UNPACK_BIT without `BITCUR < TRUE_BITS` (R183). Safe. -/
  | noBitLeft
  /-- UNPACK_BIT, run by itself or by the rest of UNPACK, with `ACC_LEN = 255` (R183). Safe. -/
  | accumulatorFull
deriving DecidableEq, Repr

/-- The internal registers at reset. R44 leaves them unspecified; DESIGN CHOICE (log 2): zero, no entry allocated,
and every entry of NODE a leaf with frequency and symbol 0. -/
def Internals.reset : Internals where
  freq := Vector.replicate 256 0
  node := []
  nodeRest := List.replicate 511 (.leaf 0 0)
  heap := []
  root := 0
  degenSig := false
  ct := Vector.replicate 256 none
  stk := []
  icur := 0
  hcur := 0
  bitcur := 0
  bitbuf := 0
  bitfill := 0
  bitcnt := 0
  pay := []
  acc := []
  trueBits := 0
  rmap := []
  opA := 0
  opB := 0
  res := 0

/-- The machine with the given capacities right after reset (R44, R250). -/
def State.resetWith (p : Params) : State where
  params := p
  status := { state := .idle, empty := false, degen := false }
  err := .none
  errSub := .none
  errInfo := 0
  inLen := 0
  outLen := 0
  pad := 0
  entryCnt := 0
  hdrLen := 0
  phase := 0
  resume := .start
  inMem := []
  outMem := []
  int := Internals.reset
  hostQueue := []
  hostRead := 0
  inDraw := 0
  outDraw := 0

/-- The machine right after reset (R44), with the capacities of `Config.params` (log 1). -/
def State.reset : State := State.resetWith Config.params

end Sys2Proof.Machine
end

