-- ==== Sys2Proof/Machine/Ops.lean ====
section
/-! DEFINITION. The shared operations: buffers, tables by byte, outcomes, error entry (R231) and the prologue and
epilogue of a command (R206, R207), which are the only way out of an error (R232). -/

namespace Sys2Proof.Machine

/-- What a step or a meaning answers. -/
abbrev Result := Host.Outcome State Fault Refusal

/-- Why a unit operation ends before its last line: a stop of the model, or an error raised (R12). -/
inductive Stop where
  | fault (r : Fault)
  | refuse (r : Refusal)
  | raised (sub : ErrSub) (info : Word)
deriving DecidableEq, Repr

/-- A computation of a unit operation. -/
abbrev Run (α : Type) := Except Stop α

/-! ## Buffers -/

/-- The written byte at an index, if there is one. -/
def Memory.read : Memory → Nat → Option Byte
  | [], _ => none
  | (k, v) :: rest, a => if k = a then some v else Memory.read rest a

/-- The buffer after one byte is written. -/
def Memory.write : Memory → Nat → Byte → Memory
  | [], a, b => [(a, b)]
  | (k, v) :: rest, a, b =>
    if a < k then (a, b) :: (k, v) :: rest
    else if a = k then (a, b) :: rest
    else (k, v) :: Memory.write rest a b

/-- The buffer after a byte sequence is written from an index on. -/
def Memory.writeBytes : Memory → Nat → List Byte → Memory
  | m, _, [] => m
  | m, a, b :: bs => Memory.writeBytes (Memory.write m a b) (a + 1) bs

/-- The buffer with only the bytes written below an index. -/
def Memory.below (m : Memory) (n : Nat) : Memory := m.filter (fun c => c.1 < n)

/-- `IN[a]`; a byte the host has not written is any value (V1). -/
def State.inByte (s : State) (a : Nat) : Byte :=
  (s.inMem.read a).getD (Config.freeInByte s.inDraw a)

/-- `OUT[a]`; a byte outside the last result is any value (V1, V3, V9). -/
def State.outByte (s : State) (a : Nat) : Byte :=
  (s.outMem.read a).getD (Config.freeOutByte s.outDraw a)

/-! ## Tables by byte value -/

/-- The entry of byte value `b`. -/
def byteGet {α : Type} (t : ByteTable α) (b : Byte) : α := t[b.toNat]'b.isLt

/-- The table with the entry of byte value `b` replaced. -/
def byteSet {α : Type} (t : ByteTable α) (b : Byte) (x : α) : ByteTable α := t.set b.toNat x b.isLt

/-- The byte values in ascending order: `for b in 0..255 ascending` (R12). -/
def allBytes : List Byte := (List.range 256).map (BitVec.ofNat 8)

/-- The pairs of a byte value and its entry in ascending order of the byte value. -/
def tablePairs {α : Type} (t : ByteTable α) : List (Byte × α) := allBytes.zip t.toList

/-- The valid entries of a code table, `for b in 0..255 ascending, where CT_VALID[b] = 1`. -/
def codeEntries (ct : ByteTable (Option Code)) : List (Byte × Code) :=
  (tablePairs ct).filterMap (fun e => e.2.map (fun c => (e.1, c)))

/-- The mapping of R30: the byte values with `FREQ[b] >= 1` and their counts, in ascending order (R113). -/
def occurring (f : ByteTable Word) : List (Byte × Word) := (tablePairs f).filter (fun e => e.2 != 0)

/-- The code table with every `CT_VALID[b] = 0`. -/
def emptyTable : ByteTable (Option Code) := Vector.replicate 256 none

/-! ## Error entry and the frame of a command -/

/-- The kind of a sub-cause (R222). -/
def ErrSub.kind : ErrSub → ErrKind
  | .none => .none
  | .inRange => .ioError
  | .outFull => .ioError
  | .truncated => .malformedHeader
  | .badPad => .malformedHeader
  | .badCount => .malformedHeader
  | .dupSymbol => .malformedHeader
  | .badLen => .malformedHeader
  | .badBitsym => .malformedHeader
  | .notPrefixFree => .malformedHeader
  | .padExceedsPayload => .malformedHeader
  | .noCode => .decodeMismatch
  | .noMatch => .decodeMismatch
  | .leftoverBits => .decodeMismatch
  | .badOpcode => .illegalCommand

/-- Error entry, `raise <Kind>(sub, info)` (R231): the error registers, the status, `OUT_LEN` and `PHASE` as R231
writes them; `PAD`, `ENTRY_CNT`, `HDR_LEN`, OUT and every internal register are free values afterwards (V2 to V4). -/
def raise (sub : ErrSub) (info : Word) (s : State) : State :=
  { s with
    err := sub.kind
    errSub := sub
    errInfo := info
    outLen := 0
    status := { state := .error, empty := false, degen := false }
    phase := 0
    resume := .start
    pad := Config.freePad s.outDraw
    entryCnt := Config.freeEntryCnt s.outDraw
    hdrLen := Config.freeHdrLen s.outDraw
    int := Config.freeInternals s.outDraw
    outMem := []
    outDraw := s.outDraw + 1 }

/-- The register writes of the command prologue (R206). An internal register that the command has not written yet
"holds no value" (R42): it is a free value from here on (log 6). -/
def prologue (s : State) : State :=
  { s with
    status := { state := .busy, empty := false, degen := false }
    resume := .start
    err := .none
    errSub := .none
    errInfo := 0
    outLen := 0
    pad := 0
    entryCnt := 0
    hdrLen := 0
    int := Config.freeInternals s.outDraw
    outDraw := s.outDraw + 1 }

/-- The command epilogue (R207). What OUT holds at and above `OUT_LEN` is any value after a success (V3). -/
def epilogue (s : State) : State :=
  { s with
    phase := 0
    resume := .start
    status := { s.status with state := .done }
    outMem := s.outMem.below s.outLen.toNat
    outDraw := s.outDraw + 1 }

/-- The prologue of a legal command: after the register writes, `IN_LEN > IN_CAP` is an `IOError` (R206). -/
def withPrologue (s : State) (body : State → Result) : Result :=
  let p := prologue s
  if p.params.inCap < p.inLen then .next (raise .inRange 0 p) else body p

/-! ## Outcomes -/

/-- The answer of a unit operation started in `s`: its result, error entry, or a stop. -/
def settle (s : State) : Run State → Result
  | .ok t => .next t
  | .error (.raised sub info) => .next (raise sub info s)
  | .error (.fault r) => .fault r
  | .error (.refuse r) => .refused r

/-- Go on with the command if the last unit operation did not end it: "a command stops at the first check that fails"
(R230, R231). -/
def thenBusy (o : Result) (k : State → Result) : Result :=
  match o with
  | .next s => if s.status.state = .busy then k s else .next s
  | .fault r => .fault r
  | .refused r => .refused r

/-- A unit operation that works on the internal registers only, with its phase code. -/
def onInternals (code : Byte) (s : State) (f : Internals → Run Internals) : Result :=
  settle s (do
    let m ← f s.int
    pure { s with int := m, phase := code })

end Sys2Proof.Machine
end

