-- ==== Sys2Proof/Machine/Flags.lean ====
section
/-! DEFINITION. The flags and codes the host reads: `STATUS` (R24, R26), `ERR` (R221), `ERRSUB` (R222). -/

namespace Sys2Proof.Machine

/-- The value of `STATE` (R24). -/
def RunState.code : RunState → BitVec 2
  | .idle => 0
  | .busy => 1
  | .done => 2
  | .error => 3

/-- `STATUS` as the host reads it: `STATE` in bits 1:0, `EMPTY` in bit 2, `DEGEN` in bit 3, 0 above (R24). -/
def Status.word (t : Status) : Word :=
  ((BitVec.ofBool t.degen ++ BitVec.ofBool t.empty ++ t.state.code : BitVec 4)).setWidth 32

/-- The code of an error kind (R221). -/
def ErrKind.code : ErrKind → Byte
  | .none => 0x00#8
  | .ioError => 0x01#8
  | .malformedHeader => 0x02#8
  | .decodeMismatch => 0x03#8
  | .illegalCommand => 0x04#8

/-- The code of a sub-cause (R222). -/
def ErrSub.code : ErrSub → Byte
  | .none => 0x00#8
  | .inRange => 0x01#8
  | .outFull => 0x02#8
  | .truncated => 0x10#8
  | .badPad => 0x11#8
  | .badCount => 0x12#8
  | .dupSymbol => 0x13#8
  | .badLen => 0x14#8
  | .badBitsym => 0x15#8
  | .notPrefixFree => 0x16#8
  | .padExceedsPayload => 0x17#8
  | .noCode => 0x20#8
  | .noMatch => 0x21#8
  | .leftoverBits => 0x22#8
  | .badOpcode => 0x30#8

/-- `STATUS.EMPTY <- b` (R201, R202). -/
def State.setEmpty (s : State) (b : Bool) : State := { s with status := { s.status with empty := b } }

/-- `STATUS.DEGEN <- b` (R200). -/
def State.setDegen (s : State) (b : Bool) : State := { s with status := { s.status with degen := b } }

end Sys2Proof.Machine
end

