-- ==== Sys2Proof/Machine/Operands.lean ====
section
/-! DEFINITION. How operations reach their operands: `MemRead`, `OutAppend` and the 4-byte integers (R12, R64, R227),
bit symbols (R86, R90), and the host registers by number (R22). -/

namespace Sys2Proof.Machine

/-! ## Byte order and bit order -/

/-- `u32(v)`: the 4-byte sequence of an unsigned number, least significant byte first (R12, R64). -/
def u32 (v : Nat) : List Byte :=
  [BitVec.ofNat 8 v, BitVec.ofNat 8 (v / 256), BitVec.ofNat 8 (v / 65536), BitVec.ofNat 8 (v / 16777216)]

/-- `un_u32(s)`: the number of a byte sequence, least significant byte first (R12, R89). -/
def unU32 : List Byte → Nat
  | [] => 0
  | b :: bs => b.toNat + 256 * unU32 bs

/-- The header byte of a bit: `0x30` for bit 0, `0x31` for bit 1 (R86). -/
def bitSymbol (x : Bool) : Byte := if x then 0x31#8 else 0x30#8

/-- The bit of a header byte; no other byte is a bit symbol (R90). -/
def symbolBit (c : Byte) : Option Bool :=
  if c = 0x30#8 then some false else if c = 0x31#8 then some true else none

/-- Bit `k` of a payload byte, counted from the most significant bit (R65). -/
def payloadBit (c : Byte) (k : Nat) : Bool := c.getLsbD (7 - k)

/-! ## IN and OUT -/

/-- `MemRead(addr, n)`: the bytes `IN[addr .. addr + n)` (R12). -/
def memRead (s : State) (addr : Nat) : Nat → List Byte
  | 0 => []
  | n + 1 => s.inByte addr :: memRead s (addr + 1) n

/-- The bytes that IN does not have are never read (R62): an operation on an input longer than IN stops (log 13). -/
def checkInput (s : State) : Run Unit :=
  if s.params.inCap < s.inLen then throw (.fault .noSuchByte) else pure ()

/-- `OutAppend(v)` (R12) after the capacity check, which is made before any byte of `v` is written (R227). -/
def outAppend (s : State) (v : List Byte) : Run State :=
  if s.params.outCap.toNat - s.outLen.toNat < v.length then throw (.raised .outFull 0)
  else pure { s with
    outMem := s.outMem.writeBytes s.outLen.toNat v
    outLen := BitVec.ofNat 32 (s.outLen.toNat + v.length) }

/-! ## Host registers -/

/-- What a host read of a register gives (R22): `CMD` reads 0, and so does every number above 10. -/
def hostReg (s : State) : Nat → Word
  | 1 => s.status.word
  | 2 => s.err.code.setWidth 32
  | 3 => s.errSub.code.setWidth 32
  | 4 => s.errInfo
  | 5 => s.inLen
  | 6 => s.outLen
  | 7 => s.pad.setWidth 32
  | 8 => s.entryCnt.setWidth 32
  | 9 => s.hdrLen
  | 10 => s.phase.setWidth 32
  | _ => 0

/-- What a host write of a register other than `CMD` does: `IN_LEN` takes the value, and the write is ignored for the
read-only registers and for the numbers that do not exist (R22). -/
def hostRegWrite (s : State) (n : Nat) (v : Word) : State :=
  match n with
  | 5 => { s with inLen := v }
  | _ => s

end Sys2Proof.Machine
end

