-- ==== Sys2Proof/Machine/BitPacker.lean ====
section
/-! DEFINITION. The BitPacker: PACK (R150 to R156). -/

namespace Sys2Proof.Machine

/-- One code bit enters the packer (R152): it is shifted into `BITBUF`, and the eighth bit stores the byte in `PAY`. -/
def packBit (m : Internals) (x : Bool) : Internals :=
  let buf := (m.bitbuf <<< 1) ||| (BitVec.ofBool x).setWidth 8
  if m.bitfill = 7 then
    { m with pay := m.pay ++ [buf], bitbuf := 0, bitfill := 0, bitcnt := m.bitcnt + 1 }
  else
    { m with bitbuf := buf, bitfill := m.bitfill + 1, bitcnt := m.bitcnt + 1 }

/-- The loop of PACK over the input bytes that are left (R152); `ICUR` is the offset of the first of them. A byte
without a code raises `NO_CODE` with its offset (R153). -/
def packBytes : Internals → List Byte → Run Internals
  | m, [] => pure m
  | m, b :: bs =>
    match byteGet m.ct b with
    | none => throw (.raised .noCode m.icur)
    | some c =>
      let m := c.foldl packBit m
      packBytes { m with icur := m.icur + 1 } bs

/-- The bits of `BITBUF` that are left after the last code, as a byte with zero padding on the right (R152). -/
def lastByte (m : Internals) : Byte := m.bitbuf <<< (8 - m.bitfill.toNat)

/-- `PACK` (R152). -/
def execPack (s : State) : Result :=
  settle s (do
    checkInput s
    let m ← packBytes { s.int with pay := [], bitbuf := 0, bitfill := 0, bitcnt := 0, icur := 0 }
      (memRead s 0 s.inLen.toNat)
    if m.bitfill = 0 then
      pure { s with phase := 0x40#8, pad := 0, int := m }
    else
      pure { s with
        phase := 0x40#8
        pad := BitVec.ofNat 3 (8 - m.bitfill.toNat)
        int := { m with pay := m.pay ++ [lastByte m] } })

end Sys2Proof.Machine
end

