-- ==== Sys2Proof/Machine/BitUnpacker.lean ====
section
/-! DEFINITION. The BitUnpacker: RMAP_BUILD, UNPACK, UNPACK_BIT (R180 to R190). -/

namespace Sys2Proof.Machine

/-! ## The reverse mapping -/

/-- One of the two codes is a prefix of the other, equality included (R11, R181). -/
def conflict (c d : Code) : Bool := c.isPrefixOf d || d.isPrefixOf c

/-- One turn of the outer loop of RMAP_BUILD, for a valid entry (R181). The codes of the valid entries with a lower
byte value, which its inner loop compares with, are those that RMAP holds already. -/
def mapEntry (rmap : List (Code × Byte)) (e : Byte × Code) : Run (List (Code × Byte)) :=
  if rmap.any (fun r => conflict r.1 e.2) then throw (.raised .notPrefixFree (e.1.setWidth 32))
  else pure (rmap ++ [(e.2, e.1)])

/-- `RMAP_BUILD` (R181). -/
def execRmapBuild (s : State) : Result :=
  onInternals 0x70#8 s (fun m => do
    let r ← (codeEntries m.ct).foldlM mapEntry []
    pure { m with rmap := r })

/-! ## The scan -/

/-- The next payload bit: bit `7 − (BITCUR mod 8)` of `IN[HDR_LEN + BITCUR div 8]` (R183). -/
def nextBit (s : State) : Bool :=
  payloadBit (s.inByte (s.hdrLen.toNat + s.int.bitcur.toNat / 8)) (s.int.bitcur.toNat % 8)

/-- One transition of the decoder, append then test (R183, R184); a full accumulator without a match raises `NO_MATCH`
(R188). -/
def decodeBit (s : State) : Run State :=
  let acc := s.int.acc ++ [nextBit s]
  let m := { s.int with bitcur := s.int.bitcur + 1 }
  match m.rmap.lookup acc with
  | some b => outAppend { s with phase := 0x72#8, int := { m with acc := [] } } [b]
  | none =>
    if acc.length = Config.maxCodeLen then throw (.raised .noMatch 255)
    else pure { s with phase := 0x72#8, int := { m with acc := acc } }

/-- `UNPACK_BIT` (R183), refused outside what it requires (log 12); the byte it reads is one of the input's (R183). -/
def execUnpackBit (s : State) : Result :=
  settle s (do
    if s.int.trueBits ≤ s.int.bitcur then throw (.refuse .noBitLeft)
    if Config.maxCodeLen ≤ s.int.acc.length then throw (.refuse .accumulatorFull)
    checkInput s
    if s.inLen.toNat ≤ s.hdrLen.toNat + s.int.bitcur.toNat / 8 then throw (.fault .noSuchByte)
    decodeBit s)

/-- The loop of UNPACK, `while BITCUR < TRUE_BITS` (R182); the first argument is the number of turns left. -/
def scan : Nat → State → Run State
  | 0, s => pure s
  | n + 1, s => do scan n (← decodeBit s)

/-- UNPACK from the test of its loop on: the bits that are left, then the termination check (R182, R185). -/
def unpackFromLoop (s : State) : Run State := do
  let t ← scan (s.int.trueBits.toNat - s.int.bitcur.toNat) s
  if t.int.acc = [] then pure { t with phase := 0x71#8 }
  else throw (.raised .leftoverBits (BitVec.ofNat 32 t.int.acc.length))

/-- The rest of UNPACK after a UNPACK_BIT that ran by itself; every bit that is left is one of the input's (R183).
DESIGN CHOICE (log 12): with bits left and a full accumulator its next UNPACK_BIT lacks what R183 requires, and is refused
as UNPACK_BIT is. -/
def unpackResume (s : State) : Result :=
  settle s (do
    checkInput s
    if s.int.bitcur < s.int.trueBits ∧ Config.maxCodeLen ≤ s.int.acc.length then throw (.refuse .accumulatorFull)
    if 8 * (s.inLen.toNat - s.hdrLen.toNat) < s.int.trueBits.toNat then throw (.fault .noSuchByte)
    unpackFromLoop s)

/-- `UNPACK` (R182). -/
def execUnpack (s : State) : Result :=
  settle s (do
    checkInput s
    if s.inLen < s.hdrLen then throw (.refuse .headerBeyondInput)
    let payloadBytes := s.inLen.toNat - s.hdrLen.toNat
    if 8 * payloadBytes < s.pad.toNat then throw (.raised .padExceedsPayload 0)
    unpackFromLoop { s with
      phase := 0x71#8
      int := { s.int with
        trueBits := BitVec.ofNat 64 (8 * payloadBytes - s.pad.toNat)
        acc := []
        bitcur := 0 } })

end Sys2Proof.Machine
end

