-- ==== Sys2Proof/Machine/TreeBuilder.lean ====
section
/-! DEFINITION. The TreeBuilder: PQ_INIT, PQ_INSERT, PQ_EXTRACT_MIN, MERGE, BUILD (R120 to R132). -/

namespace Sys2Proof.Machine

/-- The frequency of a node (R31). -/
def Node.freq : Node → Word
  | .leaf f _ => f
  | .inner f _ _ => f

/-- `NODE[n]`: an allocated entry, or one at or above `NODE_CNT`, which holds what `nodeRest` says (log 6). -/
def nodeAt (m : Internals) (n : NodeIdx) : Node :=
  match m.node[n.toNat]? with
  | some x => x
  | none => (m.nodeRest[n.toNat - m.node.length]?).getD (Config.freeNode n)

/-- `NODE[NODE_CNT] <- x; NODE_CNT <- NODE_CNT + 1` (R122, R125). -/
def pushNode (m : Internals) (x : Node) : Internals :=
  { m with node := m.node ++ [x], nodeRest := m.nodeRest.drop 1 }

/-- `key(a) < key(b)` for the keys `(freq, index)` in lexicographic order (R121). -/
def keyLess (m : Internals) (a b : NodeIdx) : Bool :=
  decide ((nodeAt m a).freq < (nodeAt m b).freq) ||
    (decide ((nodeAt m a).freq = (nodeAt m b).freq) && decide (a < b))

/-- `HEAP[i]`. -/
def heapAt (h : List NodeIdx) (i : Nat) : NodeIdx := (h[i]?).getD (Config.freeHeapEntry i)

/-- `key(HEAP[i]) < key(HEAP[j])`. -/
def slotLess (m : Internals) (h : List NodeIdx) (i j : Nat) : Bool := keyLess m (heapAt h i) (heapAt h j)

/-- `swap HEAP[i] and HEAP[j]`. -/
def swapSlots (h : List NodeIdx) (i j : Nat) : List NodeIdx :=
  match h[i]?, h[j]? with
  | some a, some b => (h.set i b).set j a
  | _, _ => h

/-- The loop of PQ_INSERT from slot `i` (R123); the first argument bounds its turns, of which there are at most `i`. -/
def siftUp (m : Internals) : Nat → Nat → List NodeIdx → List NodeIdx
  | 0, _, h => h
  | f + 1, i, h =>
    if i = 0 then h
    else
      let p := (i - 1) / 2
      if slotLess m h i p then siftUp m f p (swapSlots h i p) else h

/-- The child test of PQ_EXTRACT_MIN (R124): slot `c` if it is in the heap and has a lower key than slot `i`. -/
def lowerSlot (m : Internals) (h : List NodeIdx) (c i : Nat) : Nat :=
  if c < h.length ∧ slotLess m h c i = true then c else i

/-- The loop of PQ_EXTRACT_MIN from slot `i` (R124); the first argument bounds its turns, of which there are at most
`HEAP_SIZE`. -/
def siftDown (m : Internals) : Nat → Nat → List NodeIdx → List NodeIdx
  | 0, _, h => h
  | f + 1, i, h =>
    let q := lowerSlot m h (2 * i + 2) (lowerSlot m h (2 * i + 1) i)
    if q = i then h else siftDown m f q (swapSlots h i q)

/-- `PQ_INSERT(n)` with `n` in `opA` (R123); outside its operands it is refused (log 12). -/
def pqInsert (m : Internals) : Run Internals :=
  if Config.heapCap ≤ m.heap.length then throw (.refuse .fullHeap)
  else if m.opA ∈ m.heap then throw (.refuse .nodeInHeap)
  else pure { m with heap := siftUp m m.heap.length m.heap.length (m.heap ++ [m.opA]) }

/-- `PQ_EXTRACT_MIN`, the returned index in `res` (R124). -/
def pqExtractMin (m : Internals) : Run Internals :=
  match m.heap with
  | [] => throw (.refuse .emptyHeap)
  | r :: rest =>
    match rest.getLast? with
    | none => pure { m with heap := [], res := r }
    | some last => pure { m with heap := siftDown m rest.length 0 (last :: rest.dropLast), res := r }

/-- `MERGE(a, b)` with `a` in `opA` and `b` in `opB`, the returned index in `res` (R125). -/
def merge (m : Internals) : Run Internals :=
  if Config.maxNodes ≤ m.node.length then throw (.refuse .fullArena)
  else pure { pushNode m (.inner ((nodeAt m m.opA).freq + (nodeAt m m.opB).freq) m.opA m.opB) with
    res := BitVec.ofNat 9 m.node.length }

/-- One turn of the loop of PQ_INIT (R122): a leaf and its insertion, for a byte value that occurs. -/
def addLeaf (m : Internals) (e : Byte × Word) : Run Internals :=
  pqInsert { pushNode m (.leaf e.2 e.1) with opA := BitVec.ofNat 9 m.node.length }

/-- `PQ_INIT` (R122). With `NODE_CNT <- 0` every entry of NODE holds no value (R42, log 6). -/
def pqInit (m : Internals) : Run Internals :=
  (occurring m.freq).foldlM addLeaf { m with node := [], nodeRest := Config.freeNodes m, heap := [] }

/-- One turn of the loop of BUILD (R126): extract `a`, extract `b`, `MERGE(a, b)`, insert the new node. -/
def buildRound (m : Internals) : Run Internals := do
  let m ← pqExtractMin m
  let m ← pqExtractMin { m with opA := m.res }
  let m ← merge { m with opB := m.res }
  pqInsert { m with opA := m.res }

/-- The loop of BUILD, `while HEAP_SIZE > 1` (R126); the first argument bounds its turns, since each takes one node
off the heap. -/
def buildLoop : Nat → Internals → Run Internals
  | 0, m => pure m
  | f + 1, m => if 1 < m.heap.length then do buildLoop f (← buildRound m) else pure m

/-- `ROOT <- HEAP[0]` (R126). -/
def takeRoot (m : Internals) : Run Internals :=
  match m.heap with
  | [] => throw (.refuse .emptyHeap)
  | r :: _ => pure { m with root := r }

/-- BUILD from the test of its loop on (R126). -/
def buildFromLoop (m : Internals) : Run Internals := do
  takeRoot (← buildLoop m.heap.length m)

/-- BUILD after PQ_INIT: the degenerate case or the loop (R126, R127). -/
def buildAfterInit (m : Internals) : Run Internals :=
  if m.heap.length = 1 then takeRoot { m with degenSig := true }
  else buildFromLoop { m with degenSig := false }

/-- `BUILD` (R126), refused when no counter is at least 1 (R128). -/
def build (m : Internals) : Run Internals :=
  if occurring m.freq = [] then throw (.refuse .emptyMapping)
  else do buildAfterInit (← pqInit m)

/-- `PQ_INIT` (R122). DESIGN CHOICE (log 18): it ends with its own code 0x21 in `PHASE`, as R27 says of a running
operation, although R122 calls PQ_INSERT, which writes 0x22 (R123), and does not write 0x21 again. -/
def execPqInit (s : State) : Result := onInternals 0x21#8 s pqInit

/-- `PQ_INSERT` (R123). -/
def execPqInsert (s : State) : Result := onInternals 0x22#8 s pqInsert

/-- `PQ_EXTRACT_MIN` (R124). -/
def execPqExtractMin (s : State) : Result := onInternals 0x23#8 s pqExtractMin

/-- `MERGE` (R125). -/
def execMerge (s : State) : Result := onInternals 0x24#8 s merge

/-- `BUILD` (R126). -/
def execBuild (s : State) : Result := onInternals 0x20#8 s build

end Sys2Proof.Machine
end

