-- ==== Sys2Proof/Machine/CodeTable.lean ====
section
/-! DEFINITION. The CodeTableGenerator: GENCODES (R140 to R148). -/

namespace Sys2Proof.Machine

/-- `NODE[n].sym`; an internal node's holds no value (R31, R42): any value (log 6). -/
def symAt (m : Internals) (n : NodeIdx) : Byte :=
  match nodeAt m n with
  | .leaf _ b => b
  | .inner f l r => Config.freeSym n (.inner f l r)

/-- The loop of GENCODES, `while SP > 0` (R143), on the stack, the table and `ENTRY_CNT`. The first argument bounds its
turns: a tree has at most 511 nodes to visit (R259), and an arena that is no tree is refused (log 12). -/
def walk (m : Internals) :
    Nat → List (NodeIdx × Code) → ByteTable (Option Code) → BitVec 9 → Run (ByteTable (Option Code) × BitVec 9)
  | _, [], ct, cnt => pure (ct, cnt)
  | 0, _ :: _, _, _ => throw (.refuse .notATree)
  | f + 1, (n, p) :: stk, ct, cnt =>
    match nodeAt m n with
    | .leaf _ b => walk m f stk (byteSet ct b (some p)) (cnt + 1)
    | .inner _ l r => walk m f ((l, p ++ [false]) :: (r, p ++ [true]) :: stk) ct cnt

/-- The table and the entry count that GENCODES writes (R142, R143). -/
def codeTable (m : Internals) : Run (ByteTable (Option Code) × BitVec 9) :=
  if m.degenSig then pure (byteSet emptyTable (symAt m m.root) (some [false]), 1)
  else walk m Config.maxNodes [(m.root, [])] emptyTable 0

/-- `GENCODES` (R143). -/
def execGencodes (s : State) : Result :=
  settle s (do
    let (ct, cnt) ← codeTable s.int
    pure { s with
      phase := 0x30#8
      entryCnt := cnt
      int := { s.int with ct := ct, stk := [] } })

end Sys2Proof.Machine
end

