-- ==== Sys2Proof/Machine/Frequency.lean ====
section
/-! DEFINITION. The FrequencyAnalyzer: FREQ (R110 to R114). -/

namespace Sys2Proof.Machine

/-- `FREQ[b] <- FREQ[b] + 1` (R112). -/
def tally (f : ByteTable Word) (b : Byte) : ByteTable Word := byteSet f b (byteGet f b + 1)

/-- The counters after the input bytes are counted, from 0 (R112). -/
def frequencies (bs : List Byte) : ByteTable Word := bs.foldl tally (Vector.replicate 256 0)

/-- `FREQ` (R112). -/
def execFreq (s : State) : Result :=
  settle s (do
    checkInput s
    pure { s with
      phase := 0x10#8
      int := { s.int with freq := frequencies (memRead s 0 s.inLen.toNat), icur := s.inLen } })

end Sys2Proof.Machine
end

