-- ==== Sys2Proof/Machine/HeaderCodec.lean ====
section
/-! DEFINITION. The HeaderCodec: HDR_WRITE, HDR_READ, and PAYLOAD_WRITE of the pipeline driver (R160 to R168). -/

namespace Sys2Proof.Machine

/-! ## Serialization -/

/-- The appends of one table entry: the byte value, the code length, then one bit symbol per code bit (R161). -/
def entryFields (b : Byte) (c : Code) : List (List Byte) :=
  [b] :: u32 c.length :: c.map (fun x => [bitSymbol x])

/-- The appends of HDR_WRITE in order (R161): padding count, entry count, then the valid entries by ascending byte. -/
def headerFields (pad : BitVec 3) (cnt : BitVec 9) (ct : ByteTable (Option Code)) : List (List Byte) :=
  u32 pad.toNat :: u32 cnt.toNat ::
    (codeEntries ct).flatMap (fun e => entryFields e.1 e.2)

/-- `HDR_WRITE` (R161). -/
def execHdrWrite (s : State) : Result :=
  settle s (do
    let t ← (headerFields s.pad s.entryCnt s.int.ct).foldlM outAppend { s with phase := 0x50#8 }
    pure { t with hdrLen := t.outLen })

/-- `PAYLOAD_WRITE` (R162). -/
def execPayloadWrite (s : State) : Result :=
  settle s (outAppend { s with phase := 0x51#8 } s.int.pay)

/-! ## Deserialization -/

/-- `need(k)` at cursor `hcur`: `TRUNCATED` when fewer than `k` bytes of the input are left (R164). -/
def need (s : State) (hcur k : Nat) : Run Unit :=
  if s.inLen.toNat - hcur < k then throw (.raised .truncated (BitVec.ofNat 32 hcur)) else pure ()

/-- A 4-byte integer at cursor `hcur`, after the check that it is present (R89, R164). -/
def readInt (s : State) (hcur : Nat) : Run Nat := do
  need s hcur 4
  pure (unU32 (memRead s hcur 4))

/-- The code bits of an entry from an offset on, checked in ascending offset (R163, R165 check 10). -/
def readCode (s : State) : Nat → Nat → Run Code
  | _, 0 => pure []
  | off, n + 1 =>
    match symbolBit (s.inByte off) with
    | none => throw (.raised .badBitsym (BitVec.ofNat 32 off))
    | some x => do
      let c ← readCode s (off + 1) n
      pure (x :: c)

/-- One table entry at cursor `hcur`: the cursor after it and the table with it (R163, R165 checks 5 to 10). -/
def readEntry (s : State) (hcur : Nat) (ct : ByteTable (Option Code)) :
    Run (Nat × ByteTable (Option Code)) := do
  need s hcur 1
  let b := s.inByte hcur
  if (byteGet ct b).isSome then throw (.raised .dupSymbol (BitVec.ofNat 32 hcur))
  let n ← readInt s (hcur + 1)
  if n = 0 ∨ Config.maxCodeLen < n then throw (.raised .badLen (BitVec.ofNat 32 (hcur + 1)))
  need s (hcur + 5) n
  let c ← readCode s (hcur + 5) n
  pure (hcur + 5 + n, byteSet ct b (some c))

/-- The entries of the header, `repeat c times` (R163). -/
def readEntries (s : State) : Nat → Nat → ByteTable (Option Code) → Run (Nat × ByteTable (Option Code))
  | 0, hcur, ct => pure (hcur, ct)
  | n + 1, hcur, ct => do
    let (hcur, ct) ← readEntry s hcur ct
    readEntries s n hcur ct

/-- `HDR_READ` (R163). -/
def execHdrRead (s : State) : Result :=
  settle s (do
    checkInput s
    let p ← readInt s 0
    if Config.padMax < p then throw (.raised .badPad 0)
    let c ← readInt s 4
    if Config.alphabet < c then throw (.raised .badCount 4)
    let (hcur, ct) ← readEntries s c 8 emptyTable
    pure { s with
      phase := 0x60#8
      pad := BitVec.ofNat 3 p
      entryCnt := BitVec.ofNat 9 c
      hdrLen := BitVec.ofNat 32 hcur
      int := { s.int with ct := ct, hcur := BitVec.ofNat 32 hcur } })

end Sys2Proof.Machine
end

