-- ==== Sys2Proof/Machine/Pipeline.lean ====
section
/-! DEFINITION. The pipeline driver: COMPRESS, DECOMPRESS and the illegal command (R199 to R209). -/

namespace Sys2Proof.Machine

/-- The register writes of the empty-input path before HDR_WRITE (R201). -/
def emptyInput (s : State) : State :=
  { s with pad := 0, entryCnt := 0, int := { s.int with ct := emptyTable, pay := [] } }

/-- The end of COMPRESS on a non-empty input: `STATUS.DEGEN <- DEGEN_SIG`, then the epilogue (R200). -/
def finishCompress (s : State) : State := epilogue (s.setDegen s.int.degenSig)

/-- The end of COMPRESS on an empty input: `STATUS.EMPTY <- 1`, then the epilogue (R201). -/
def finishEmpty (s : State) : State := epilogue (s.setEmpty true)

/-- The end of DECOMPRESS: `STATUS.EMPTY <- (OUT_LEN = 0)`, then the epilogue (R202). -/
def finishDecompress (s : State) : State := epilogue (s.setEmpty (s.outLen == 0))

/-- COMPRESS after its prologue (R200, R201). -/
def compressBody (s : State) : Result :=
  if s.inLen = 0 then
    thenBusy (execHdrWrite (emptyInput s)) fun s => .next (finishEmpty s)
  else
    thenBusy (execFreq s) fun s =>
    thenBusy (execBuild s) fun s =>
    thenBusy (execGencodes s) fun s =>
    thenBusy (execPack s) fun s =>
    thenBusy (execHdrWrite s) fun s =>
    thenBusy (execPayloadWrite s) fun s => .next (finishCompress s)

/-- `COMPRESS` (R200): the whole command, one transition for the host (R72). -/
def execCompress (s : State) : Result := withPrologue s compressBody

/-- DECOMPRESS after its prologue (R202). -/
def decompressBody (s : State) : Result :=
  thenBusy (execHdrRead s) fun s =>
  thenBusy (execRmapBuild s) fun s =>
  thenBusy (execUnpack s) fun s => .next (finishDecompress s)

/-- `DECOMPRESS` (R202): the whole command, one transition for the host (R72). -/
def execDecompress (s : State) : Result := withPrologue s decompressBody

/-- A write of `CMD` that is no command: the prologue, then `IllegalCommand(BAD_OPCODE, c)` (R203, R206). -/
def illegalCommand (c : Byte) (s : State) : State := raise .badOpcode (c.setWidth 32) (prologue s)

end Sys2Proof.Machine
end

