-- ==== Sys2Proof/Machine/Dispatch.lean ====
section
/-! DEFINITION. The meaning of each operation, one arm per constructor of Instr. -/

namespace Sys2Proof.Machine

def exec (i : Instr) (s : State) : Host.Outcome State Fault Refusal :=
  match i with
  | .compress => Sys2Proof.Machine.execCompress s
  | .decompress => Sys2Proof.Machine.execDecompress s
  | .freq => Sys2Proof.Machine.execFreq s
  | .build => Sys2Proof.Machine.execBuild s
  | .pqInit => Sys2Proof.Machine.execPqInit s
  | .pqInsert => Sys2Proof.Machine.execPqInsert s
  | .pqExtractMin => Sys2Proof.Machine.execPqExtractMin s
  | .merge => Sys2Proof.Machine.execMerge s
  | .gencodes => Sys2Proof.Machine.execGencodes s
  | .pack => Sys2Proof.Machine.execPack s
  | .hdrWrite => Sys2Proof.Machine.execHdrWrite s
  | .payloadWrite => Sys2Proof.Machine.execPayloadWrite s
  | .hdrRead => Sys2Proof.Machine.execHdrRead s
  | .rmapBuild => Sys2Proof.Machine.execRmapBuild s
  | .unpack => Sys2Proof.Machine.execUnpack s
  | .unpackBit => Sys2Proof.Machine.execUnpackBit s

end Sys2Proof.Machine
end

