-- ==== Sys2Proof/Machine/Sequencer.lean ====
section
/-! DEFINITION. The sequencer's small steps: what follows a unit operation that ran by itself while a command is BUSY
(R27, R28, R200, R202), and the points at which BUILD and UNPACK go on after a primitive (log 8). -/

namespace Sys2Proof.Machine

/-- `PHASE <- p` (R12), with the operation that `p` names not begun. -/
def State.goto (s : State) (p : Byte) : State := { s with phase := p, resume := .start }

/-- Return to the operation that called the primitive. -/
def State.resumeAt (s : State) (p : Byte) (r : Resume) : State := { s with phase := p, resume := r }

/-- `a <- PQ_EXTRACT_MIN` or `n <- MERGE(a, b)`: the returned index becomes the first operand (R126). -/
def State.latchA (s : State) : State := { s with int := { s.int with opA := s.int.res } }

/-- `b <- PQ_EXTRACT_MIN`: the returned index becomes the second operand (R126). -/
def State.latchB (s : State) : State := { s with int := { s.int with opB := s.int.res } }

/-- What the sequencer does after an operation of a running command: the next unit operation in the order of R200 and
R202, the end of the command, or, after a primitive, the operation that calls it (R126, R182). -/
def followed (i : Instr) (s : State) : State :=
  match i with
  | .freq => s.goto 0x20#8
  | .build => s.goto 0x30#8
  | .gencodes => s.goto 0x40#8
  | .pack => s.goto 0x50#8
  | .hdrWrite => if s.inLen = 0 then finishEmpty s else s.goto 0x51#8
  | .payloadWrite => finishCompress s
  | .hdrRead => s.goto 0x70#8
  | .rmapBuild => s.goto 0x71#8
  | .unpack => finishDecompress s
  | .pqInit => s.resumeAt 0x20#8 .buildTest
  | .pqInsert => s.resumeAt 0x20#8 .buildLoop
  | .pqExtractMin =>
    match s.resume with
    | .secondExtract => s.latchB.goto 0x24#8
    | _ => s.latchA.resumeAt 0x23#8 .secondExtract
  | .merge => s.latchA.goto 0x22#8
  | .unpackBit => s.resumeAt 0x71#8 .unpackLoop
  | .compress => s
  | .decompress => s

/-- The sequencer goes on after an operation unless it ended the command. -/
def advance (i : Instr) (o : Result) : Result := thenBusy o fun s => .next (followed i s)

/-- One small step of a running command: the operation that `PHASE` names, or the rest of the operation that called a
primitive. -/
def busyStep (s : State) : Result :=
  match s.resume with
  | .buildTest => advance .build (onInternals 0x20#8 s buildAfterInit)
  | .buildLoop => advance .build (onInternals 0x20#8 s buildFromLoop)
  | .unpackLoop => advance .unpack (unpackResume s)
  | _ =>
    match decode .phase s.phase with
    | .ok i => advance i (exec i s)
    | .error _ => .fault .phaseNeverHeld

/-- The state in which the small steps of COMPRESS start, `IN_LEN` at most `IN_CAP` (R200, R201, R206). -/
def startCompress (s : State) : State :=
  let p := prologue s
  if p.inLen = 0 then (emptyInput p).goto 0x50#8 else p.goto 0x10#8

/-- The state in which the small steps of DECOMPRESS start, `IN_LEN` at most `IN_CAP` (R202, R206). -/
def startDecompress (s : State) : State := (prologue s).goto 0x60#8

end Sys2Proof.Machine
end

