-- ==== Sys2Proof/Machine/HostPort.lean ====
section
/-! DEFINITION. The host's actions between commands (R20, R22, R94, R252) and the external reset (R250). -/

namespace Sys2Proof.Machine

/-- A write of `CMD` (R81): it runs the command its bits 7:0 name, or raises `IllegalCommand` (R203). -/
def writeCommand (v : Word) (s : State) : Result :=
  match decode .cmd (commandByte v) with
  | .ok i => exec i s
  | .error _ => .next (illegalCommand (commandByte v) s)

/-- `IN[a] <- b` by the host; IN has `IN_CAP` bytes (R60). -/
def hostWriteIn (s : State) (a : Word) (b : Byte) : Result :=
  if a < s.params.inCap then .next { s with inMem := s.inMem.write a.toNat b } else .fault .noSuchByte

/-- The bytes `OUT[a .. a + n)`. -/
def outRead (s : State) (a : Nat) : Nat → List Byte
  | 0 => []
  | n + 1 => s.outByte a :: outRead s (a + 1) n

/-- `MOVE` (R94): `OUT[0 .. OUT_LEN)` becomes `IN[0 .. OUT_LEN)` and `IN_LEN <- OUT_LEN`. -/
def hostMove (s : State) : Result :=
  if s.params.inCap < s.outLen then .fault .noSuchByte
  else
    let bs := outRead s 0 s.outLen.toNat
    .next { s with
      inMem := s.inMem.writeBytes 0 bs
      inLen := s.outLen
      hostRead := (bs.getLast?.map (fun b => b.setWidth 32)).getD s.outLen }

/-- The external reset (R250): every register as R44 says, IN and OUT unspecified (a new draw, V1, V9). The host's
pending actions are not the block's, and stay (log 9). -/
def externalReset (s : State) : State :=
  { State.resetWith s.params with
    hostQueue := s.hostQueue
    hostRead := s.hostRead
    inDraw := s.inDraw + 1
    outDraw := s.outDraw + 1 }

/-- One action of the host while no command runs (R252). -/
def hostStep (x : HostAction) (s : State) : Result :=
  match x with
  | .writeIn a b => hostWriteIn s a b
  | .writeReg 0 v => writeCommand v s
  | .writeReg n v => .next (hostRegWrite s n v)
  | .readReg n => .next { s with hostRead := hostReg s n }
  | .readIn a =>
    if a < s.params.inCap then .next { s with hostRead := (s.inByte a.toNat).setWidth 32 } else .fault .noSuchByte
  | .readOut a =>
    if a < s.params.outCap then .next { s with hostRead := (s.outByte a.toNat).setWidth 32 } else .fault .noSuchByte
  | .move => hostMove s
  | .reset => .next (externalReset s)

/-- The writes of the script line `LOAD` (R94), from an index on. -/
def loadBytes : Nat → List Byte → List HostAction
  | _, [] => []
  | a, b :: bs => .writeIn (BitVec.ofNat 32 a) b :: loadBytes (a + 1) bs

/-- The script line `LOAD <hex bytes>` (R94). -/
def load (bs : List Byte) : List HostAction :=
  loadBytes 0 bs ++ [.writeReg 5 (BitVec.ofNat 32 bs.length)]

end Sys2Proof.Machine
end

