-- ==== Sys2Proof/Machine/Step.lean ====
section
/-! DEFINITION. The step: a reset at any time (R250), a small step of a running command (R25), or the host's next action
while no command runs (R252 to R254); and where the host of this package puts an instruction to be fetched. -/

namespace Sys2Proof.Machine

/-- One step. While STATE is BUSY the host has no move but the external reset (R72, R250, R253); with nothing pending,
nothing executes (R250). -/
def step (s : State) : Host.Outcome State Fault Refusal :=
  match s.hostQueue with
  | .reset :: rest => .next (externalReset { s with hostQueue := rest })
  | q =>
    if s.status.state = .busy then busyStep s
    else
      match q with
      | [] => .next s
      | x :: rest => hostStep x { s with hostQueue := rest }

/-- The state whose next step fetches and runs the operation of the word `w`: an operation of format PHASE stands in
`PHASE` of a running command, any other word is the host's next write of `CMD` (log 10). -/
def State.withFetchWord (s : State) (nbits w : Nat) : State :=
  match decode .phase (BitVec.ofNat 8 w) with
  | .ok _ =>
    { s with
      status := { s.status with state := .busy }
      phase := BitVec.ofNat 8 w
      resume := .start
      hostQueue := s.hostQueue.dropWhile (· == .reset) }
  | .error _ =>
    { s with
      status := { s.status with state := if s.status.state = .busy then .idle else s.status.state }
      hostQueue := .writeReg 0 (BitVec.ofNat 32 (w % 2 ^ nbits)) :: s.hostQueue }

end Sys2Proof.Machine
end

