-- ==== Sys2Proof/Safety.lean ====
section
/-! DEFINITION. The terms claims use: the state invariant, the heap and tree invariants (R32, R34), the pure functions of
R13 (counts, codes, payload, header), and a reference TreeBuilder that scans for the minimum (R129). -/

namespace Sys2Proof
open Machine

/-! ## Safe states -/

/-- What holds in every state between steps of a run: the buffers' canonical form and bounds (R60, R62), `OUT_LEN`
within OUT (R227), `PHASE` 0 outside a command (R27), the error registers and flags as R24, R221, R222 and R231 say. -/
structure Inv (s : State) : Prop where
  inForm : s.inMem.wf
  outForm : s.outMem.wf
  inBound : ∀ c ∈ s.inMem, c.1 < s.params.inCap.toNat
  outBound : ∀ c ∈ s.outMem, c.1 < s.params.outCap.toNat
  outFits : s.outLen ≤ s.params.outCap
  quiet : s.status.state ≠ .busy → s.phase = 0 ∧ s.resume = .start
  running : s.status.state = .busy → s.status.empty = false ∧ s.status.degen = false
  failed : s.status.state = .error →
    s.outLen = 0 ∧ s.status.empty = false ∧ s.status.degen = false ∧ s.errSub ≠ .none
  clean : s.status.state ≠ .error → s.errSub = .none ∧ s.errInfo = 0
  kind : s.err = s.errSub.kind

/-- What the host sees after a command that raised an error (R231). -/
structure Failed (t : State) (sub : ErrSub) (info : Word) : Prop where
  status : t.status = { state := .error, empty := false, degen := false }
  err : t.err = sub.kind
  errSub : t.errSub = sub
  errInfo : t.errInfo = info
  outLen : t.outLen = 0
  phase : t.phase = 0

/-- The answer is a next state for which a check says yes; a form of "answers next" that tests can evaluate. -/
def nextSat (o : Result) (p : State → Bool) : Bool :=
  match o with
  | .next t => p t
  | .fault _ => false
  | .refused _ => false

/-! ## FREQ and the heap -/

/-- The input of a command, `IN[0 .. IN_LEN)` (R60). -/
def inputBytes (s : State) : List Byte := memRead s 0 s.inLen.toNat

/-- `key(a) < key(b)` for two allocated nodes (R121). -/
def Precedes (m : Internals) (a b : NodeIdx) : Prop :=
  ∃ x y, m.node[a.toNat]? = some x ∧ m.node[b.toNat]? = some y ∧
    (x.freq < y.freq ∨ (x.freq = y.freq ∧ a < b))

/-- The contents of HEAP: node indices, none twice, arranged as a binary min-heap on the key (R32). -/
structure HeapInv (m : Internals) : Prop where
  inArena : ∀ n ∈ m.heap, n.toNat < m.node.length
  nodup : m.heap.Nodup
  fits : m.heap.length ≤ 256
  ordered : ∀ i a b, 0 < i → m.heap[(i - 1) / 2]? = some a → m.heap[i]? = some b → Precedes m a b

/-! ## The tree -/

/-- `n` is a child of the internal node `p`. -/
def ChildOf (m : Internals) (n p : NodeIdx) : Prop :=
  ∃ f l r, m.node[p.toNat]? = some (.inner f l r) ∧ (n = l ∨ n = r)

/-- The arena is one full binary tree with root `ROOT` (R34): both children of an internal node are older nodes and
different, "no sharing", every node but the root is a child, no symbol is on two leaves, and each internal frequency is
the sum of its children's. -/
structure TreeArena (m : Internals) : Prop where
  size : m.node.length ≤ 511
  root : m.root.toNat < m.node.length
  older : ∀ (p : NodeIdx) (f : Word) (l r : NodeIdx), m.node[p.toNat]? = some (.inner f l r) → l < p ∧ r < p ∧ l ≠ r
  noSharing : ∀ n p q, ChildOf m n p → ChildOf m n q → p = q
  connected : ∀ n : NodeIdx, n.toNat < m.node.length → n ≠ m.root → ∃ p, ChildOf m n p
  rootFree : ∀ p, ¬ ChildOf m m.root p
  symbols : ∀ (i j : Nat) (f g : Word) (b : Byte), m.node[i]? = some (.leaf f b) → m.node[j]? = some (.leaf g b) → i = j
  sums : ∀ (i : Nat) (f : Word) (l r : NodeIdx) (x y : Node), m.node[i]? = some (.inner f l r) → m.node[l.toNat]? = some x →
    m.node[r.toNat]? = some y → f.toNat = x.freq.toNat + y.freq.toNat

/-- The node that a path of edge labels, 0 left and 1 right, leads to from node `n` (R141). -/
def descend (m : Internals) (n : NodeIdx) : Code → Option NodeIdx
  | [] => some n
  | x :: p =>
    match m.node[n.toNat]? with
    | some (.inner _ l r) => descend m (if x then r else l) p
    | _ => none

/-- The number of leaves of the arena. -/
def leafCount (m : Internals) : Nat :=
  m.node.countP (fun x => match x with | .leaf _ _ => true | .inner _ _ _ => false)

/-! ## A TreeBuilder without a heap (R129) -/

/-- `key(a) < key(b)`, false when a node is not allocated. -/
def keyBefore (m : Internals) (a b : NodeIdx) : Bool :=
  match m.node[a.toNat]?, m.node[b.toNat]? with
  | some x, some y => decide (x.freq < y.freq) || (decide (x.freq = y.freq) && decide (a < b))
  | _, _ => false

/-- The node of a set with the least key, found by a scan. -/
def leastNode (m : Internals) (n : NodeIdx) (rest : List NodeIdx) : NodeIdx :=
  rest.foldl (fun best k => if keyBefore m k best then k else best) n

/-- The merge loop on a plain list of nodes: take the least twice, merge, put the new node back. -/
def scanLoop : Nat → List Node → List NodeIdx → Option (List Node × NodeIdx)
  | 0, _, _ => none
  | _ + 1, _, [] => none
  | _ + 1, node, [r] => some (node, r)
  | f + 1, node, n :: k :: rest =>
    let m : Internals := { Internals.reset with node := node }
    let a := leastNode m n (k :: rest)
    match (n :: k :: rest).erase a with
    | [] => none
    | h :: others =>
      let b := leastNode m h others
      match node[a.toNat]?, node[b.toNat]? with
      | some x, some y =>
        scanLoop f (node ++ [.inner (x.freq + y.freq) a b])
          (BitVec.ofNat 9 node.length :: (h :: others).erase b)
      | _, _ => none

/-- The arena and the root that the scanning TreeBuilder makes of the counters (R129). -/
def scanBuild (freq : ByteTable Word) : Option (List Node × NodeIdx) :=
  let leaves := (occurring freq).map (fun e => Node.leaf e.2 e.1)
  scanLoop 256 leaves ((List.range leaves.length).map (BitVec.ofNat 9))

/-! ## Code tables, payload and header -/

/-- No code is a prefix of another entry's code (R36, R147); two equal codes are prefixes of each other (R11). -/
def PrefixFree (ct : ByteTable (Option Code)) : Prop :=
  ∀ b c p q, b ≠ c → byteGet ct b = some p → byteGet ct c = some q → ¬ p <+: q

/-- Every code has 1 to `MAX_CODE_LEN` bits (R35, R85). -/
def LegalLengths (ct : ByteTable (Option Code)) : Prop :=
  ∀ b p, byteGet ct b = some p → 1 ≤ p.length ∧ p.length ≤ 255

/-- `bits(s, CT)`: the codes of the bytes in order (R151); a byte without a code adds nothing. -/
def codeBits (ct : ByteTable (Option Code)) (bs : List Byte) : Code :=
  bs.flatMap (fun b => (byteGet ct b).getD [])

/-- Every byte has a code: "total coverage" (R150). -/
def Covers (ct : ByteTable (Option Code)) (bs : List Byte) : Prop := ∀ b ∈ bs, (byteGet ct b).isSome

/-- The padding count of `T` code bits (R151). -/
def padCount (T : Nat) : Nat := (8 - T % 8) % 8

/-- `pay` is the payload of `bits`: `ceil(T / 8)` bytes, whose bits, most significant first, are `bits` and then zero
bits (R151, R65). -/
def IsPayload (pay : List Byte) (bits : Code) : Prop :=
  pay.length = (bits.length + 7) / 8 ∧
  ∀ k < 8 * pay.length, payloadBit (pay.getD (k / 8) 0) (k % 8) = bits.getD k false

/-- `E(b)` (R161). -/
def entryBytes (e : Byte × Code) : List Byte := e.1 :: u32 e.2.length ++ e.2.map bitSymbol

/-- A header with padding count `pad` and entry count `n`, then the given entries (R83 to R85). -/
def headerBytes (pad n : Nat) (es : List (Byte × Code)) : List Byte :=
  u32 pad ++ u32 n ++ es.flatMap entryBytes

/-- The code table that a list of entries gives. -/
def tableOf (es : List (Byte × Code)) : ByteTable (Option Code) :=
  es.foldl (fun t e => byteSet t e.1 (some e.2)) emptyTable

/-- Entries that pass the checks of R165: no byte value twice, every code of 1 to 255 bits. -/
def GoodEntries (es : List (Byte × Code)) : Prop :=
  (es.map Prod.fst).Nodup ∧ ∀ e ∈ es, 1 ≤ e.2.length ∧ e.2.length ≤ 255

/-- The bits of `IN[from .. )`, most significant first in each byte (R65). -/
def inputBits (s : State) (start n : Nat) : Code :=
  (List.range n).map (fun k => payloadBit (s.inByte (start + k / 8)) (k % 8))

/-- `RMAP` is the inverse of a code table (R181). -/
def Inverts (rmap : List (Code × Byte)) (ct : ByteTable (Option Code)) : Prop :=
  ∀ c b, rmap.lookup c = some b ↔ byteGet ct b = some c

/-- The code table that BUILD and GENCODES give an input, with `ENTRY_CNT` and `DEGEN_SIG` (R200): a function of the
input alone. -/
def huffmanTable (bs : List Byte) : Run (ByteTable (Option Code) × BitVec 9 × Bool) := do
  let m ← build { Internals.reset with freq := frequencies bs }
  let (ct, cnt) ← codeTable m
  pure (ct, cnt, m.degenSig)

/-- The length of `compress(B)` (R200, R201, R205): 8 for the empty input, else the header's and the payload's. -/
def compressedLength (bs : List Byte) : Run Nat :=
  if bs = [] then pure 8
  else do
    let (ct, cnt, _) ← huffmanTable bs
    pure ((headerBytes (padCount (codeBits ct bs).length) cnt.toNat (codeEntries ct)).length +
      ((codeBits ct bs).length + 7) / 8)

/-- The number of distinct byte values of a sequence. -/
def distinctCount (bs : List Byte) : Nat := bs.dedup.length

/-- The total number of code bits of a table on given counts (R131). -/
def weightedLength (freq : ByteTable Word) (ct : ByteTable (Option Code)) : Nat :=
  (allBytes.map (fun b => (byteGet freq b).toNat * ((byteGet ct b).getD []).length)).sum

end Sys2Proof
end

