-- ==== Sys2Proof/Certificates/Slice0/Obligations.lean ====
section
/-! DEFINITION. The statements for the provers, in the order of the spec's files: decoding and stepping, reset and the
host, the whole machine, the units in pipeline order, the commands. A frame is written as an equation: the next state is
the old one but for the fields named, which covers every register, flag and memory that is not named. -/

open Sys2Proof Sys2Proof.Machine

/-! ## Decoding and stepping -/

/-- R81, R82: the codes of both formats, written out from the tables, and the rejection of every other value. -/
def Obligations.DecodeFollowsTheTables : Prop :=
  decode .cmd 0x01#8 = .ok .compress ∧ decode .cmd 0x02#8 = .ok .decompress ∧
  (∀ w, w ∉ [0x01#8, 0x02#8] → decode .cmd w = .error (.badOpcode w)) ∧
  decode .phase 0x10#8 = .ok .freq ∧ decode .phase 0x20#8 = .ok .build ∧
  decode .phase 0x21#8 = .ok .pqInit ∧ decode .phase 0x22#8 = .ok .pqInsert ∧
  decode .phase 0x23#8 = .ok .pqExtractMin ∧ decode .phase 0x24#8 = .ok .merge ∧
  decode .phase 0x30#8 = .ok .gencodes ∧ decode .phase 0x40#8 = .ok .pack ∧
  decode .phase 0x50#8 = .ok .hdrWrite ∧ decode .phase 0x51#8 = .ok .payloadWrite ∧
  decode .phase 0x60#8 = .ok .hdrRead ∧ decode .phase 0x70#8 = .ok .rmapBuild ∧
  decode .phase 0x71#8 = .ok .unpack ∧ decode .phase 0x72#8 = .ok .unpackBit ∧
  (∀ w, w ∉ [0x10#8, 0x20#8, 0x21#8, 0x22#8, 0x23#8, 0x24#8, 0x30#8, 0x40#8, 0x50#8, 0x51#8, 0x60#8, 0x70#8,
    0x71#8, 0x72#8] → decode .phase w = .error (.notAPhase w))

/-- R80 to R82: a well-formed issue decodes from its code, and each value has at most one meaning in a format. -/
def Obligations.EncodeAndDecodeAgree : Prop :=
  (∀ x : Issue, x.wellFormed = true → decode x.format (encode x.instr) = .ok x.instr) ∧
  (∀ f w i, decode f w = .ok i → Issue.wellFormed { format := f, instr := i } = true ∧ encode i = w)

/-- R81, R199: when the host's next action is a write of `CMD` whose bits 7:0 decode to `i`, the step is the meaning of
`i` in the state with that action taken off the host's list. -/
def Obligations.StepRunsTheHostsCommand : Prop :=
  ∀ (s : State) (v : Word) (rest : List HostAction) (i : Instr),
    s.status.state ≠ .busy → s.hostQueue = .writeReg 0 v :: rest → decode .cmd (v.setWidth 8) = .ok i →
    step s = exec i { s with hostQueue := rest }

/-- R27, R82 in the model's small-step view (log 8): when a command runs and `PHASE` decodes to `i`, the step is the
meaning of `i`, and then, unless that ended the command, what the sequencer does after `i`. -/
def Obligations.StepRunsThePhase : Prop :=
  ∀ (s : State) (i : Instr),
    s.status.state = .busy → s.hostQueue.head? ≠ some .reset →
    (s.resume = .start ∨ s.resume = .secondExtract) → decode .phase s.phase = .ok i →
    (∀ t, exec i s = .next t → t.status.state = .busy → step s = .next (followed i t)) ∧
    (∀ t, exec i s = .next t → t.status.state ≠ .busy → step s = .next t) ∧
    (∀ r, exec i s = .fault r → step s = .fault r) ∧
    (∀ r, exec i s = .refused r → step s = .refused r)

/-- R203: a write of `CMD` that names no command raises `IllegalCommand(BAD_OPCODE)` with bits 7:0 of the value, and
leaves IN and `IN_LEN` as they were. -/
def Obligations.IllegalCommandIsReported : Prop :=
  ∀ (s : State) (v : Word) (rest : List HostAction),
    s.status.state ≠ .busy → s.hostQueue = .writeReg 0 v :: rest →
    v.setWidth 8 ≠ 0x01#8 → v.setWidth 8 ≠ 0x02#8 →
    ∃ t, step s = .next t ∧ Failed t .badOpcode ((v.setWidth 8 : Byte).setWidth 32) ∧
      t.inMem = s.inMem ∧ t.inLen = s.inLen ∧ t.hostQueue = rest

/-- R25, R72, R200 to R202: from the state after the prologue, the small steps of the sequencer, one for each unit
operation in the order of R200 and R202, end where the command run as one transition ends. -/
def Obligations.SmallStepsRunCommands : Prop :=
  ∀ s : State, s.hostQueue = [] → s.inLen ≤ s.params.inCap →
    (s.inLen ≠ 0 → Host.Core.run core 6 (startCompress s) = exec .compress s) ∧
    (s.inLen = 0 → Host.Core.run core 1 (startCompress s) = exec .compress s) ∧
    Host.Core.run core 3 (startDecompress s) = exec .decompress s

/-- R126: run as steps of their own, PQ_INIT and then the rest make BUILD, and PQ_EXTRACT_MIN twice, MERGE and PQ_INSERT
make one turn of its loop (log 7, log 8). -/
def Obligations.PrimitivesComposeIntoBuild : Prop :=
  ∀ s : State, s.status.state = .busy → s.hostQueue = [] → s.resume = .start →
    (s.phase = 0x21#8 → occurring s.int.freq ≠ [] →
      Host.Core.run core 2 s = step { s with phase := 0x20#8 }) ∧
    (s.phase = 0x23#8 → 2 ≤ s.int.heap.length →
      Host.Core.run core 5 s = step { s with phase := 0x20#8, resume := .buildLoop })

/-- R182: run as a step of its own, UNPACK_BIT is the next turn of UNPACK's loop (log 8). -/
def Obligations.UnpackBitComposesIntoUnpack : Prop :=
  ∀ s : State, s.status.state = .busy → s.hostQueue = [] → s.resume = .start → s.phase = 0x72#8 →
    s.int.bitcur < s.int.trueBits → s.int.acc.length < 255 → s.inLen ≤ s.params.inCap →
    s.int.trueBits.toNat ≤ 8 * (s.inLen.toNat - s.hdrLen.toNat) →
    Host.Core.run core 2 s = step { s with phase := 0x71#8, resume := .unpackLoop }

/-! ## Reset and the host -/

/-- R44: after reset every host register holds 0, whatever the capacities. -/
def Obligations.ResetClearsHostRegisters : Prop :=
  ∀ (p : Params) (n : Nat), hostReg (State.resetWith p) n = 0

/-- R250: the external reset acts at any time, while a command runs too: every host register is 0, the capacities
stay. -/
def Obligations.ResetActsAtAnyTime : Prop :=
  ∀ (s : State) (rest : List HostAction), s.hostQueue = .reset :: rest →
    ∃ t, step s = .next t ∧ (∀ n, hostReg t n = 0) ∧ t.params = s.params ∧ t.hostQueue = rest

/-- R22, R24: what the host reads in each register number, and that a write changes `IN_LEN` only. -/
def Obligations.HostRegisterAccess : Prop :=
  ∀ (s : State) (n : Nat) (rest : List HostAction), s.status.state ≠ .busy →
    (s.hostQueue = .readReg n :: rest →
      ∃ v : Word, step s = .next { s with hostQueue := rest, hostRead := v } ∧
        (n = 0 ∨ 11 ≤ n → v = 0) ∧
        (n = 1 → v.toNat < 16 ∧ v.setWidth 2 = s.status.state.code ∧
          v.getLsbD 2 = s.status.empty ∧ v.getLsbD 3 = s.status.degen) ∧
        (n = 2 → v.toNat = s.err.code.toNat) ∧ (n = 3 → v.toNat = s.errSub.code.toNat) ∧
        (n = 4 → v = s.errInfo) ∧ (n = 5 → v = s.inLen) ∧ (n = 6 → v = s.outLen) ∧
        (n = 7 → v.toNat = s.pad.toNat) ∧ (n = 8 → v.toNat = s.entryCnt.toNat) ∧
        (n = 9 → v = s.hdrLen) ∧ (n = 10 → v.toNat = s.phase.toNat)) ∧
    (∀ w, n ≠ 0 → s.hostQueue = .writeReg n w :: rest →
      step s = .next { s with hostQueue := rest, inLen := if n = 5 then w else s.inLen })

/-- R94: `LOAD` of `n` bytes leaves them in `IN[0 .. n)` and `n` in `IN_LEN`, and nothing else changes. -/
def Obligations.LoadFillsTheInput : Prop :=
  ∀ (s : State) (bs : List Byte) (rest : List HostAction),
    s.status.state ≠ .busy → bs.length ≤ s.params.inCap.toNat → s.hostQueue = load bs ++ rest →
    ∃ t, Host.Core.run core (bs.length + 1) s = .next t ∧
      t.inLen.toNat = bs.length ∧ memRead t 0 bs.length = bs ∧
      (∀ a, bs.length ≤ a → t.inByte a = s.inByte a) ∧
      t = { s with inMem := t.inMem, inLen := t.inLen, hostQueue := rest }

/-- R72, R253, R254: while a command runs the host has no move but the reset: its list stays, and so do IN, `IN_LEN`
and what it last read. -/
def Obligations.HostWaitsWhileBusy : Prop :=
  ∀ s t : State, s.status.state = .busy → s.hostQueue.head? ≠ some .reset → step s = .next t →
    t.hostQueue = s.hostQueue ∧ t.hostRead = s.hostRead ∧ t.inMem = s.inMem ∧ t.inLen = s.inLen

/-- R25: no step of the machine from a state in which no command runs leads to BUSY: the host never sees it. -/
def Obligations.BusyIsNeverSeen : Prop :=
  ∀ s t : State, s.status.state ≠ .busy → step s = .next t → t.status.state ≠ .busy

/-! ## The whole machine -/

/-- The invariant of `Sys2Proof.Inv` holds after reset, whatever the capacities. -/
def Obligations.InvariantHoldsAtReset : Prop := ∀ p : Params, Inv (State.resetWith p)

/-- Every step keeps the invariant, from every state that has it: buffers in canonical form and in bounds, `OUT_LEN`
within OUT, `PHASE` 0 outside a command, the error registers and flags as R24, R27, R227 and R231 say. -/
def Obligations.EveryStepKeepsTheInvariant : Prop :=
  ∀ s t : State, Inv s → step s = .next t → Inv t

/-- R61: no operation writes IN, `IN_LEN` or what is the host's. -/
def Obligations.NoOperationWritesTheInput : Prop :=
  ∀ (i : Instr) (s t : State), exec i s = .next t →
    t.inMem = s.inMem ∧ t.inLen = s.inLen ∧ (∀ a, t.inByte a = s.inByte a) ∧
    t.params = s.params ∧ t.hostQueue = s.hostQueue ∧ t.hostRead = s.hostRead

/-- R63: outside the two commands, only HDR_WRITE, PAYLOAD_WRITE, UNPACK and UNPACK_BIT write OUT: every other unit
operation leaves every byte of OUT and `OUT_LEN` alone, unless it raises an error. -/
def Obligations.OnlyTheWritersWriteOut : Prop :=
  ∀ (i : Instr) (s t : State),
    i ∈ [Instr.freq, .build, .pqInit, .pqInsert, .pqExtractMin, .merge, .gencodes, .pack, .hdrRead, .rmapBuild] →
    exec i s = .next t →
    ((∀ a, t.outByte a = s.outByte a) ∧ t.outMem = s.outMem ∧ t.outLen = s.outLen) ∨
      ∃ sub info, sub ≠ .none ∧ t = raise sub info s

/-- R230, R231: whichever operation raises an error, the host then sees `STATE = ERROR`, a named sub-cause and its
kind, `OUT_LEN`, `EMPTY`, `DEGEN` and `PHASE` at 0, and its own input unchanged. -/
def Obligations.ErrorEntryIsComplete : Prop :=
  ∀ (i : Instr) (s t : State), s.status.state ≠ .error → exec i s = .next t → t.status.state = .error →
    ∃ sub info, sub ≠ .none ∧ Failed t sub info ∧ t.inMem = s.inMem ∧ t.inLen = s.inLen

/-! ## FrequencyAnalyzer and TreeBuilder -/

/-- R111, R112: FREQ completes on every input IN can hold, `FREQ[b]` is the number of occurrences of `b` in
`IN[0 .. IN_LEN)`, `ICUR` is `IN_LEN`, and nothing else changes. -/
def Obligations.FreqCountsEveryByte : Prop :=
  ∀ s : State, s.inLen ≤ s.params.inCap →
    ∃ t, exec .freq s = .next t ∧
      (∀ b, (byteGet t.int.freq b).toNat = (inputBytes s).count b) ∧
      t = { s with phase := 0x10#8, int := { s.int with freq := t.int.freq, icur := s.inLen } }

/-- R122: PQ_INIT completes on any counters: one leaf per occurring byte value in ascending order, the heap holds
exactly their indices and is a min-heap, and nothing else changes but the operand register (log 7) and the entries of NODE
that are not allocated (log 6). That it ends with its own code in `PHASE` is the model's choice (log 18). -/
def Obligations.PqInitMakesTheLeaves : Prop :=
  ∀ s : State, ∃ t, exec .pqInit s = .next t ∧
    t.int.node = (allBytes.filter (fun b => byteGet s.int.freq b != 0)).map
      (fun b => Node.leaf (byteGet s.int.freq b) b) ∧
    (t.int.heap.map BitVec.toNat).Perm (List.range t.int.node.length) ∧
    HeapInv t.int ∧
    t = { s with
      phase := 0x21#8
      int := { s.int with
        node := t.int.node, nodeRest := t.int.nodeRest, heap := t.int.heap, opA := t.int.opA } }

/-- R123: PQ_INSERT completes for every node that is not in a heap with room: the heap's set gains `n` (`opA`, log 7)
and nothing else changes; for an allocated node the heap invariant holds again; into the empty heap it stores `n` with no
comparison. -/
def Obligations.PqInsertKeepsTheHeap : Prop :=
  ∀ s : State,
    (s.int.opA ∉ s.int.heap → s.int.heap.length < 256 →
      ∃ t, exec .pqInsert s = .next t ∧ t.int.heap.Perm (s.int.opA :: s.int.heap) ∧
        (HeapInv s.int → s.int.opA.toNat < s.int.node.length → HeapInv t.int) ∧
        t = { s with phase := 0x22#8, int := { s.int with heap := t.int.heap } }) ∧
    (s.int.heap = [] →
      exec .pqInsert s = .next { s with phase := 0x22#8, int := { s.int with heap := [s.int.opA] } })

/-- R124: PQ_EXTRACT_MIN completes on every non-empty heap: it returns (in `res`, log 7) the node at the top, takes it
out of the heap's set, and changes nothing else; on a min-heap that node has the least key and the heap invariant holds
again. -/
def Obligations.PqExtractMinTakesTheLeast : Prop :=
  ∀ s : State, s.int.heap ≠ [] →
    ∃ t, exec .pqExtractMin s = .next t ∧ s.int.heap.Perm (t.int.res :: t.int.heap) ∧
      s.int.heap.head? = some t.int.res ∧
      (HeapInv s.int → (∀ n ∈ t.int.heap, Precedes s.int t.int.res n) ∧ HeapInv t.int) ∧
      t = { s with phase := 0x23#8, int := { s.int with heap := t.int.heap, res := t.int.res } }

/-- R125: MERGE completes whenever the arena has room: the new node has the first operand as its left child, the second
as its right, and, for two allocated nodes, the sum as its frequency; nothing else changes (operands and returned index:
log 7; the entries that are not allocated: log 6). -/
def Obligations.MergeMakesTheParent : Prop :=
  ∀ s : State, s.int.node.length < 511 →
    ∃ t f n, exec .merge s = .next t ∧
      (∀ x y : Node, s.int.node[s.int.opA.toNat]? = some x → s.int.node[s.int.opB.toNat]? = some y →
        x.freq.toNat + y.freq.toNat < 2 ^ 32 → f.toNat = x.freq.toNat + y.freq.toNat) ∧
      n.toNat = s.int.node.length ∧
      t = { s with
        phase := 0x24#8
        int := { s.int with
          node := s.int.node ++ [.inner f s.int.opA s.int.opB], nodeRest := s.int.nodeRest.drop 1, res := n } }

/-- R126, R130: BUILD completes whenever a counter is at least 1 (and the counts are those of an input of at most
2^32 − 1 bytes, R9): with `k` occurring byte values there are `2k − 1` nodes, `ROOT` is the last, `DEGEN_SIG` says
`k = 1`; the arena is one full binary tree whose leaves are exactly the occurring byte values with their counts and
whose root has the total. -/
def Obligations.BuildMakesTheTree : Prop :=
  ∀ (s : State) (k total : Nat),
    k = (allBytes.filter (fun b => byteGet s.int.freq b != 0)).length →
    total = (allBytes.map (fun b => (byteGet s.int.freq b).toNat)).sum →
    1 ≤ k → total < 2 ^ 32 →
    ∃ t, exec .build s = .next t ∧
      t.int.node.length = 2 * k - 1 ∧ t.int.root.toNat = 2 * k - 2 ∧ t.int.degenSig = decide (k = 1) ∧
      t.int.heap = [t.int.root] ∧ TreeArena t.int ∧
      (∀ f b, (∃ i : Nat, t.int.node[i]? = some (.leaf f b)) ↔ f = byteGet s.int.freq b ∧ f ≠ 0) ∧
      (∃ x, t.int.node[t.int.root.toNat]? = some x ∧ x.freq.toNat = total) ∧
      t = { s with
        phase := 0x20#8
        int := { s.int with
          node := t.int.node, nodeRest := t.int.nodeRest, heap := t.int.heap
          root := t.int.root, degenSig := t.int.degenSig
          opA := t.int.opA, opB := t.int.opB, res := t.int.res } }

/-- R127: on an input of one distinct byte value, FREQ and BUILD leave the single leaf `NODE[0]` with
`freq = IN_LEN`, `ROOT = 0`, `NODE_CNT = 1` and `DEGEN_SIG = 1`. -/
def Obligations.SingleValueGivesALeaf : Prop :=
  ∀ (s : State) (b : Byte), s.inLen ≠ 0 → s.inLen ≤ s.params.inCap → (∀ x ∈ inputBytes s, x = b) →
    ∃ u t, exec .freq s = .next u ∧ exec .build u = .next t ∧
      t.int.node = [.leaf s.inLen b] ∧ t.int.root = 0 ∧ t.int.degenSig = true

/-- R129: the heap is one realisation of the key order: a TreeBuilder that scans a plain list for the least key makes
the same arena and the same root from every non-empty mapping. -/
def Obligations.HeapBuildEqualsScanBuild : Prop :=
  ∀ s : State, occurring s.int.freq ≠ [] →
    ∃ t, exec .build s = .next t ∧ scanBuild s.int.freq = some (t.int.node, t.int.root)

/-- R123, R124, R128, R182, R183, V6: outside the preconditions their rules state, the unit operations are refused by
name and change nothing. -/
def Obligations.PreconditionsAreRefused : Prop :=
  ∀ s : State,
    ((∀ b, byteGet s.int.freq b = 0) → exec .build s = .refused .emptyMapping) ∧
    (s.int.heap = [] → exec .pqExtractMin s = .refused .emptyHeap) ∧
    (256 ≤ s.int.heap.length → exec .pqInsert s = .refused .fullHeap) ∧
    (s.int.heap.length < 256 → s.int.opA ∈ s.int.heap → exec .pqInsert s = .refused .nodeInHeap) ∧
    (s.inLen ≤ s.params.inCap → s.inLen < s.hdrLen → exec .unpack s = .refused .headerBeyondInput) ∧
    (s.int.trueBits ≤ s.int.bitcur → exec .unpackBit s = .refused .noBitLeft) ∧
    (s.int.bitcur < s.int.trueBits → 255 ≤ s.int.acc.length → exec .unpackBit s = .refused .accumulatorFull)

/-! ## CodeTableGenerator -/

/-- R141, R143: on a tree, GENCODES completes and the code of a byte value is the sequence of edge labels from the root
to its leaf; `ENTRY_CNT` is the number of leaves, the stack is empty, nothing else changes. -/
def Obligations.GencodesFollowsThePaths : Prop :=
  ∀ s : State, TreeArena s.int → s.int.degenSig = false →
    ∃ t, exec .gencodes s = .next t ∧
      (∀ b p, byteGet t.int.ct b = some p ↔
        ∃ k f, descend s.int s.int.root p = some k ∧ s.int.node[k.toNat]? = some (.leaf f b)) ∧
      t.entryCnt.toNat = leafCount s.int ∧
      t = { s with phase := 0x30#8, entryCnt := t.entryCnt, int := { s.int with ct := t.int.ct, stk := [] } }

/-- R142: in the degenerate case GENCODES completes and the table has the one entry `NODE[ROOT].sym -> "0"`; what `sym`
is of a root that is no allocated leaf is any value (log 6). -/
def Obligations.GencodesDegenerateCode : Prop :=
  ∀ s : State, s.int.degenSig = true →
    ∃ t b, exec .gencodes s = .next t ∧
      (∀ f c, s.int.node[s.int.root.toNat]? = some (.leaf f c) → b = c) ∧ byteGet t.int.ct b = some [false] ∧
      (∀ c, c ≠ b → byteGet t.int.ct c = none) ∧ t.entryCnt = 1 ∧
      t = { s with phase := 0x30#8, entryCnt := 1, int := { s.int with ct := t.int.ct, stk := [] } }

/-- R146, R147: the table of a tree with an internal root is prefix-free and its codes have 1 to 255 bits. -/
def Obligations.CodesArePrefixFree : Prop :=
  ∀ (s : State) (f : Word) (l r : NodeIdx), TreeArena s.int → s.int.degenSig = false →
    s.int.node[s.int.root.toNat]? = some (.inner f l r) →
    ∃ t, exec .gencodes s = .next t ∧ PrefixFree t.int.ct ∧ LegalLengths t.int.ct

/-! ## BitPacker -/

/-- R151, R152, R154, R155: PACK completes on every input whose bytes all have a code: `PAY` is the payload of the
concatenated codes, padded with zero bits, `PAD` the padding count, `BITCNT` the number of code bits, and nothing else
changes but the packer's own registers. -/
def Obligations.PackConcatenatesTheCodes : Prop :=
  ∀ (s : State) (bits : Code), s.inLen ≤ s.params.inCap → Covers s.int.ct (inputBytes s) →
    LegalLengths s.int.ct → bits = codeBits s.int.ct (inputBytes s) →
    ∃ t, exec .pack s = .next t ∧ IsPayload t.int.pay bits ∧ t.pad.toNat = padCount bits.length ∧
      t.int.bitcnt.toNat = bits.length ∧ 8 * t.int.pay.length = t.int.bitcnt.toNat + t.pad.toNat ∧
      t = { s with
        phase := 0x40#8
        pad := t.pad
        int := { s.int with
          pay := t.int.pay, bitbuf := t.int.bitbuf, bitfill := t.int.bitfill, bitcnt := t.int.bitcnt
          icur := s.inLen } }

/-- R153: the first input byte without a code makes PACK raise `DecodeMismatch(NO_CODE)` with its offset, which never
happens inside COMPRESS. -/
def Obligations.PackReportsAMissingCode : Prop :=
  (∀ (s : State) (pre post : List Byte) (b : Byte), s.inLen ≤ s.params.inCap →
    inputBytes s = pre ++ b :: post → Covers s.int.ct pre → byteGet s.int.ct b = none →
    exec .pack s = .next (raise .noCode (BitVec.ofNat 32 pre.length) s)) ∧
  (∀ s t : State, exec .compress s = .next t → t.errSub ≠ .noCode)

/-! ## HeaderCodec -/

/-- R161, R227: HDR_WRITE appends the padding count, the entry count and the entries in ascending byte value, sets
`HDR_LEN`, and changes no other byte of OUT and no other register, or raises `IOError(OUT_FULL)` when they do not
fit. -/
def Obligations.HdrWriteAppendsTheHeader : Prop :=
  ∀ (s : State) (h : List Byte), s.outLen ≤ s.params.outCap →
    h = headerBytes s.pad.toNat s.entryCnt.toNat (codeEntries s.int.ct) →
    (s.outLen.toNat + h.length ≤ s.params.outCap.toNat →
      ∃ t, exec .hdrWrite s = .next t ∧ outRead t s.outLen.toNat h.length = h ∧
        (∀ a, a < s.outLen.toNat ∨ s.outLen.toNat + h.length ≤ a → t.outByte a = s.outByte a) ∧
        t.outLen.toNat = s.outLen.toNat + h.length ∧
        t = { s with phase := 0x50#8, outMem := t.outMem, outLen := t.outLen, hdrLen := t.outLen }) ∧
    (s.params.outCap.toNat < s.outLen.toNat + h.length → exec .hdrWrite s = .next (raise .outFull 0 s))

/-- R162, R227: PAYLOAD_WRITE appends `PAY` after what OUT holds and changes nothing else, or raises
`IOError(OUT_FULL)`. -/
def Obligations.PayloadWriteAppendsThePayload : Prop :=
  ∀ s : State, s.outLen ≤ s.params.outCap →
    (s.outLen.toNat + s.int.pay.length ≤ s.params.outCap.toNat →
      ∃ t, exec .payloadWrite s = .next t ∧ outRead t s.outLen.toNat s.int.pay.length = s.int.pay ∧
        (∀ a, a < s.outLen.toNat ∨ s.outLen.toNat + s.int.pay.length ≤ a → t.outByte a = s.outByte a) ∧
        t.outLen.toNat = s.outLen.toNat + s.int.pay.length ∧
        t = { s with phase := 0x51#8, outMem := t.outMem, outLen := t.outLen }) ∧
    (s.params.outCap.toNat < s.outLen.toNat + s.int.pay.length →
      exec .payloadWrite s = .next (raise .outFull 0 s))

/-- R163, R166, R168: a header of any legal padding count and any legal entries, in any order, is read back: HDR_READ
completes with exactly that padding count, entry count, code table and length, and changes nothing else. -/
def Obligations.HdrReadRebuildsTheTable : Prop :=
  ∀ (s : State) (pad : Nat) (es : List (Byte × Code)) (h : List Byte),
    s.inLen ≤ s.params.inCap → pad ≤ 7 → GoodEntries es → h = headerBytes pad es.length es →
    h.length ≤ s.inLen.toNat → memRead s 0 h.length = h →
    ∃ t, exec .hdrRead s = .next t ∧ t.pad.toNat = pad ∧ t.entryCnt.toNat = es.length ∧
      t.hdrLen.toNat = h.length ∧ t.int.ct = tableOf es ∧
      (∀ ct, es = codeEntries ct → t.int.ct = ct) ∧
      t = { s with
        phase := 0x60#8
        pad := t.pad, entryCnt := t.entryCnt, hdrLen := t.hdrLen
        int := { s.int with ct := t.int.ct, hcur := t.hdrLen } }

/-- R163, R167: HDR_READ accepts nothing else: when it raises no error, `IN[0 .. HDR_LEN)` is the header of some legal
padding count and legal entries, and the registers hold exactly those. -/
def Obligations.HdrReadAcceptsOnlyHeaders : Prop :=
  ∀ s t : State, s.status.state ≠ .error → exec .hdrRead s = .next t → t.status.state ≠ .error →
    ∃ (pad : Nat) (es : List (Byte × Code)), pad ≤ 7 ∧ GoodEntries es ∧
      memRead s 0 t.hdrLen.toNat = headerBytes pad es.length es ∧ t.hdrLen ≤ s.inLen ∧
      t.hdrLen.toNat = 8 + (es.map (fun e => 5 + e.2.length)).sum ∧
      t.pad.toNat = pad ∧ t.entryCnt.toNat = es.length ∧ t.int.ct = tableOf es

/-- R165: the ten checks in the order they are made, presence before value: the fixed fields, then, after any number of
good entries, the fields of the next entry; the first failing check raises its sub-cause with its offset. -/
def Obligations.HdrReadChecksInStreamOrder : Prop :=
  ∀ s : State, s.inLen ≤ s.params.inCap →
    (s.inLen.toNat < 4 → exec .hdrRead s = .next (raise .truncated 0 s)) ∧
    (4 ≤ s.inLen.toNat → 7 < unU32 (memRead s 0 4) → exec .hdrRead s = .next (raise .badPad 0 s)) ∧
    (4 ≤ s.inLen.toNat → unU32 (memRead s 0 4) ≤ 7 → s.inLen.toNat < 8 →
      exec .hdrRead s = .next (raise .truncated 4 s)) ∧
    (8 ≤ s.inLen.toNat → unU32 (memRead s 0 4) ≤ 7 → 256 < unU32 (memRead s 4 4) →
      exec .hdrRead s = .next (raise .badCount 4 s)) ∧
    (∀ (pad n c : Nat) (es : List (Byte × Code)),
      pad ≤ 7 → n ≤ 256 → GoodEntries es → es.length < n →
      c = (headerBytes pad n es).length → c ≤ s.inLen.toNat → memRead s 0 c = headerBytes pad n es →
      (s.inLen.toNat < c + 1 → exec .hdrRead s = .next (raise .truncated (BitVec.ofNat 32 c) s)) ∧
      (c + 1 ≤ s.inLen.toNat → s.inByte c ∈ es.map Prod.fst →
        exec .hdrRead s = .next (raise .dupSymbol (BitVec.ofNat 32 c) s)) ∧
      (c + 1 ≤ s.inLen.toNat → s.inByte c ∉ es.map Prod.fst → s.inLen.toNat < c + 5 →
        exec .hdrRead s = .next (raise .truncated (BitVec.ofNat 32 (c + 1)) s)) ∧
      (∀ L, L = unU32 (memRead s (c + 1) 4) → s.inByte c ∉ es.map Prod.fst → c + 5 ≤ s.inLen.toNat →
        (L = 0 ∨ 255 < L → exec .hdrRead s = .next (raise .badLen (BitVec.ofNat 32 (c + 1)) s)) ∧
        (1 ≤ L → L ≤ 255 → s.inLen.toNat < c + 5 + L →
          exec .hdrRead s = .next (raise .truncated (BitVec.ofNat 32 (c + 5)) s)) ∧
        (∀ j, 1 ≤ L → L ≤ 255 → c + 5 + L ≤ s.inLen.toNat → j < L →
          (∀ k < j, s.inByte (c + 5 + k) = 0x30#8 ∨ s.inByte (c + 5 + k) = 0x31#8) →
          s.inByte (c + 5 + j) ≠ 0x30#8 → s.inByte (c + 5 + j) ≠ 0x31#8 →
          exec .hdrRead s = .next (raise .badBitsym (BitVec.ofNat 32 (c + 5 + j)) s))))

/-! ## BitUnpacker -/

/-- R181: on a prefix-free table RMAP_BUILD completes, `RMAP` is the inverse of `CT` and defined on nothing else, and
nothing else changes; otherwise it raises `MalformedHeader(NOT_PREFIX_FREE, j)` for the least byte value `j` whose code
conflicts with the code of a lower byte value. -/
def Obligations.RmapBuildInvertsTheTable : Prop :=
  ∀ s : State,
    (PrefixFree s.int.ct →
      ∃ t, exec .rmapBuild s = .next t ∧ Inverts t.int.rmap s.int.ct ∧
        t = { s with phase := 0x70#8, int := { s.int with rmap := t.int.rmap } }) ∧
    (∀ (i j : Byte) (p q : Code), i < j →
      byteGet s.int.ct i = some p → byteGet s.int.ct j = some q → p <+: q ∨ q <+: p →
      (∀ k l a b, k < l → l < j → byteGet s.int.ct k = some a → byteGet s.int.ct l = some b →
        ¬ a <+: b ∧ ¬ b <+: a) →
      exec .rmapBuild s = .next (raise .notPrefixFree (j.setWidth 32) s))

/-- R183, R188, R227: one transition of the decoder, in each of its four cases: emit and reset, no room in OUT, go on,
accumulator full without a match. -/
def Obligations.UnpackBitTransitions : Prop :=
  ∀ (s : State) (acc : Code), s.int.bitcur < s.int.trueBits → s.int.acc.length < 255 →
    s.inLen ≤ s.params.inCap → s.hdrLen.toNat + s.int.bitcur.toNat / 8 < s.inLen.toNat →
    acc = s.int.acc ++ [(s.inByte (s.hdrLen.toNat + s.int.bitcur.toNat / 8)).getLsbD (7 - s.int.bitcur.toNat % 8)] →
    (∀ b, s.int.rmap.lookup acc = some b → s.outLen < s.params.outCap →
      ∃ t, exec .unpackBit s = .next t ∧ t.outByte s.outLen.toNat = b ∧
        (∀ a, a ≠ s.outLen.toNat → t.outByte a = s.outByte a) ∧
        t = { s with
          phase := 0x72#8
          outMem := t.outMem
          outLen := s.outLen + 1
          int := { s.int with acc := [], bitcur := s.int.bitcur + 1 } }) ∧
    (∀ b, s.int.rmap.lookup acc = some b → s.params.outCap ≤ s.outLen →
      exec .unpackBit s = .next (raise .outFull 0 s)) ∧
    (s.int.rmap.lookup acc = none → acc.length < 255 →
      exec .unpackBit s = .next { s with
        phase := 0x72#8
        int := { s.int with acc := acc, bitcur := s.int.bitcur + 1 } }) ∧
    (s.int.rmap.lookup acc = none → acc.length = 255 → exec .unpackBit s = .next (raise .noMatch 255 s))

/-- R182, R187, R189: when the payload's true bits are the codes of a message and OUT has room, UNPACK completes, appends
exactly the message, and changes nothing else but the scan registers. -/
def Obligations.UnpackDecodesTheCodes : Prop :=
  ∀ (s : State) (ct : ByteTable (Option Code)) (msg : List Byte) (T : Nat),
    s.inLen ≤ s.params.inCap → s.hdrLen ≤ s.inLen → s.outLen ≤ s.params.outCap →
    PrefixFree ct → LegalLengths ct → Inverts s.int.rmap ct → Covers ct msg →
    T + s.pad.toNat = 8 * (s.inLen.toNat - s.hdrLen.toNat) →
    inputBits s s.hdrLen.toNat T = codeBits ct msg →
    s.outLen.toNat + msg.length ≤ s.params.outCap.toNat →
    ∃ t, exec .unpack s = .next t ∧ outRead t s.outLen.toNat msg.length = msg ∧
      (∀ a, a < s.outLen.toNat ∨ s.outLen.toNat + msg.length ≤ a → t.outByte a = s.outByte a) ∧
      t.outLen.toNat = s.outLen.toNat + msg.length ∧ t.int.trueBits.toNat = T ∧
      t = { s with
        phase := 0x71#8
        outMem := t.outMem
        outLen := t.outLen
        int := { s.int with trueBits := t.int.trueBits, bitcur := t.int.trueBits, acc := [] } }

/-- R185, R188: when after the codes of a message a tail is left that no code begins, UNPACK raises `LEFTOVER_BITS` with
its length if it is shorter than 255 bits, and `NO_MATCH` otherwise. -/
def Obligations.UnpackReportsUnmatchedBits : Prop :=
  ∀ (s : State) (ct : ByteTable (Option Code)) (msg : List Byte) (tail : Code) (T : Nat),
    s.inLen ≤ s.params.inCap → s.hdrLen ≤ s.inLen → s.outLen ≤ s.params.outCap →
    PrefixFree ct → LegalLengths ct → Inverts s.int.rmap ct → Covers ct msg →
    T + s.pad.toNat = 8 * (s.inLen.toNat - s.hdrLen.toNat) →
    inputBits s s.hdrLen.toNat T = codeBits ct msg ++ tail →
    s.outLen.toNat + msg.length ≤ s.params.outCap.toNat →
    tail ≠ [] → (∀ b c, byteGet ct b = some c → ¬ c <+: tail) →
    (tail.length < 255 →
      exec .unpack s = .next (raise .leftoverBits (BitVec.ofNat 32 tail.length) s)) ∧
    (255 ≤ tail.length → exec .unpack s = .next (raise .noMatch 255 s))

/-- R182, R227: UNPACK raises `MalformedHeader(PAD_EXCEEDS_PAYLOAD)` before the scan when the padding count is larger
than the payload, and `IOError(OUT_FULL)` at the first decoded byte that OUT has no room for. -/
def Obligations.UnpackReportsPadAndFullOutput : Prop :=
  ∀ s : State, s.inLen ≤ s.params.inCap → s.hdrLen ≤ s.inLen → s.outLen ≤ s.params.outCap →
    (8 * (s.inLen.toNat - s.hdrLen.toNat) < s.pad.toNat →
      exec .unpack s = .next (raise .padExceedsPayload 0 s)) ∧
    (∀ (ct : ByteTable (Option Code)) (msg : List Byte) (rest : Code) (T : Nat),
      PrefixFree ct → LegalLengths ct → Inverts s.int.rmap ct → Covers ct msg →
      T + s.pad.toNat = 8 * (s.inLen.toNat - s.hdrLen.toNat) →
      inputBits s s.hdrLen.toNat T = codeBits ct msg ++ rest →
      s.params.outCap.toNat < s.outLen.toNat + msg.length →
      exec .unpack s = .next (raise .outFull 0 s))

/-- R186: the padding bits do not affect the result: with any other bytes in IN that agree on the true bits, UNPACK
answers the same but for IN itself. -/
def Obligations.PaddingBitsAreIgnored : Prop :=
  ∀ (s : State) (m : Memory) (d : Nat),
    inputBits { s with inMem := m, inDraw := d } s.hdrLen.toNat
        (8 * (s.inLen.toNat - s.hdrLen.toNat) - s.pad.toNat) =
      inputBits s s.hdrLen.toNat (8 * (s.inLen.toNat - s.hdrLen.toNat) - s.pad.toNat) →
    (∀ t, exec .unpack s = .next t →
      exec .unpack { s with inMem := m, inDraw := d } = .next { t with inMem := m, inDraw := d }) ∧
    (∀ r, exec .unpack s = .fault r → exec .unpack { s with inMem := m, inDraw := d } = .fault r) ∧
    (∀ r, exec .unpack s = .refused r → exec .unpack { s with inMem := m, inDraw := d } = .refused r)

/-! ## The commands -/

/-- R142, R146 to R148: the table that BUILD and GENCODES give a non-empty input is prefix-free, has codes of 1 to 255
bits for exactly the byte values of the input, and `ENTRY_CNT` and `DEGEN_SIG` count them. -/
def Obligations.HuffmanTableIsACode : Prop :=
  ∀ bs : List Byte, bs ≠ [] → bs.length < 2 ^ 32 →
    ∃ ct cnt, huffmanTable bs = .ok (ct, cnt, decide (distinctCount bs = 1)) ∧
      cnt.toNat = distinctCount bs ∧ PrefixFree ct ∧ LegalLengths ct ∧
      ∀ b, (byteGet ct b).isSome = true ↔ b ∈ bs

/-- R131: the construction is optimal: no prefix code for the same bytes needs fewer code bits; with two or more
distinct byte values the Kraft sum is exactly 1 (scaled by 2^255); a more frequent byte has no longer code. -/
def Obligations.HuffmanTableIsOptimal : Prop :=
  ∀ (bs : List Byte) (ct : ByteTable (Option Code)) (cnt : BitVec 9) (dg : Bool),
    bs ≠ [] → bs.length < 2 ^ 32 → huffmanTable bs = .ok (ct, cnt, dg) →
    (∀ other : ByteTable (Option Code), PrefixFree other → Covers other bs →
      (∀ b p, byteGet other b = some p → p ≠ []) →
      weightedLength (frequencies bs) ct ≤ weightedLength (frequencies bs) other) ∧
    (2 ≤ distinctCount bs → ((codeEntries ct).map (fun e => 2 ^ (255 - e.2.length))).sum = 2 ^ 255) ∧
    (∀ b c p q, byteGet ct b = some p → byteGet ct c = some q → bs.count c < bs.count b → p.length ≤ q.length)

/-- R200, R207, R227: COMPRESS of a non-empty input: with the table of BUILD and GENCODES, the result in OUT is the header
followed by the payload of the input's codes, and the result registers and flags describe it; when it does not fit, the
command ends in `IOError(OUT_FULL)`. -/
def Obligations.CompressWritesTheStream : Prop :=
  ∀ (s : State), s.inLen ≠ 0 → s.inLen ≤ s.params.inCap →
    ∃ ct cnt dg, huffmanTable (inputBytes s) = .ok (ct, cnt, dg) ∧
      ∀ (bits : Code) (h : List Byte) (n : Nat),
        bits = codeBits ct (inputBytes s) →
        h = headerBytes (padCount bits.length) cnt.toNat (codeEntries ct) →
        n = (bits.length + 7) / 8 →
        (h.length + n ≤ s.params.outCap.toNat →
          ∃ t, exec .compress s = .next t ∧
            t.status = { state := .done, empty := false, degen := dg } ∧
            t.err = .none ∧ t.errSub = .none ∧ t.errInfo = 0 ∧ t.phase = 0 ∧
            t.outLen.toNat = h.length + n ∧ t.hdrLen.toNat = h.length ∧
            t.entryCnt = cnt ∧ t.pad.toNat = padCount bits.length ∧
            outRead t 0 h.length = h ∧ IsPayload (outRead t h.length n) bits) ∧
        (s.params.outCap.toNat < h.length + n → ∃ t, exec .compress s = .next t ∧ Failed t .outFull 0)

/-- R201, R228: COMPRESS of the empty input is a success with `EMPTY`: 8 zero bytes, `STATUS = 0x6`, and every result
register as R201 says; only a capacity below 8 makes it fail. -/
def Obligations.CompressEmptyInput : Prop :=
  ∀ s : State, s.inLen = 0 →
    (8 ≤ s.params.outCap.toNat →
      ∃ t, exec .compress s = .next t ∧ t.status = { state := .done, empty := true, degen := false } ∧
        hostReg t 1 = 6 ∧ t.err = .none ∧ t.errSub = .none ∧ t.errInfo = 0 ∧
        t.outLen = 8 ∧ t.hdrLen = 8 ∧ t.pad = 0 ∧ t.entryCnt = 0 ∧ t.phase = 0 ∧
        outRead t 0 8 = List.replicate 8 0) ∧
    (s.params.outCap.toNat < 8 → ∃ t, exec .compress s = .next t ∧ Failed t .outFull 0)

/-- R206: a command on an input longer than IN ends in `IOError(IN_RANGE)` before any unit operation runs. -/
def Obligations.InputBeyondCapacityIsReported : Prop :=
  ∀ s : State, s.params.inCap < s.inLen →
    (∃ t, exec .compress s = .next t ∧ Failed t .inRange 0 ∧ t.inMem = s.inMem) ∧
    (∃ t, exec .decompress s = .next t ∧ Failed t .inRange 0 ∧ t.inMem = s.inMem)

/-- R168, R189, R202: DECOMPRESS of any legal header with a prefix-free table, followed by the payload of a message in
that table, gives the message, with the result registers and flags as R202 says. -/
def Obligations.DecompressReadsTheStream : Prop :=
  ∀ (s : State) (pad : Nat) (es : List (Byte × Code)) (msg h : List Byte) (bits : Code),
    s.inLen ≤ s.params.inCap → pad ≤ 7 → GoodEntries es → PrefixFree (tableOf es) → Covers (tableOf es) msg →
    h = headerBytes pad es.length es → bits = codeBits (tableOf es) msg →
    h.length ≤ s.inLen.toNat → memRead s 0 h.length = h →
    bits.length + pad = 8 * (s.inLen.toNat - h.length) → inputBits s h.length bits.length = bits →
    msg.length ≤ s.params.outCap.toNat →
    ∃ t, exec .decompress s = .next t ∧
      t.status = { state := .done, empty := decide (msg = []), degen := false } ∧
      t.err = .none ∧ t.errSub = .none ∧ t.errInfo = 0 ∧ t.phase = 0 ∧
      t.outLen.toNat = msg.length ∧ outRead t 0 msg.length = msg ∧
      t.pad.toNat = pad ∧ t.entryCnt.toNat = es.length ∧ t.hdrLen.toNat = h.length

/-- R204: the script `LOAD B; COMPRESS; MOVE; DECOMPRESS`, run by the steps of the machine, ends with `STATE = DONE` both
times and `B` in OUT, for every `B`, the empty one included, that fits IN and OUT and whose compressed form does. -/
def Obligations.RoundTripIdentity : Prop :=
  ∀ (s : State) (bs : List Byte) (n : Nat), s.status.state ≠ .busy →
    s.hostQueue = load bs ++ [.writeReg 0 0x01#32, .move, .writeReg 0 0x02#32] →
    bs.length ≤ s.params.inCap.toNat → bs.length ≤ s.params.outCap.toNat →
    compressedLength bs = .ok n → n ≤ s.params.inCap.toNat → n ≤ s.params.outCap.toNat →
    ∃ t v, Host.Core.run core (bs.length + 2) s = .next t ∧ t.status.state = .done ∧ t.outLen.toNat = n ∧
      Host.Core.run core (bs.length + 4) s = .next v ∧ v.status.state = .done ∧
      v.outLen.toNat = bs.length ∧ outRead v 0 bs.length = bs

/-- R38, R232, R251: the result of a command is a function of the input and the capacities alone: two states that agree
on those, whatever their registers, errors, OUT and internal registers hold, get the same host-visible result. -/
def Obligations.CommandsAreIndependent : Prop :=
  ∀ (i : Instr) (s u t : State), i = .compress ∨ i = .decompress →
    s.params = u.params → s.inLen = u.inLen → (∀ a < s.inLen.toNat, s.inByte a = u.inByte a) →
    exec i s = .next t →
    ∃ v, exec i u = .next v ∧ t.status = v.status ∧ t.err = v.err ∧ t.errSub = v.errSub ∧
      t.errInfo = v.errInfo ∧ t.outLen = v.outLen ∧ t.phase = v.phase ∧
      (t.status.state = .done →
        t.pad = v.pad ∧ t.entryCnt = v.entryCnt ∧ t.hdrLen = v.hdrLen ∧
        ∀ a < t.outLen.toNat, t.outByte a = v.outByte a)

/-- R230, R231, R259: every write of `CMD`, of any value in any state in which no command runs, ends with DONE or ERROR:
there is no hang, no stop, and no state in between that the host could see. -/
def Obligations.EveryCommandEnds : Prop :=
  ∀ (s : State) (v : Word) (rest : List HostAction),
    s.status.state ≠ .busy → s.hostQueue = .writeReg 0 v :: rest →
    ∃ t, step s = .next t ∧ (t.status.state = .done ∨ t.status.state = .error) ∧ t.hostQueue = rest

/-- R24, R206, R207: after a success the error registers and `PHASE` are 0; after COMPRESS `EMPTY` says the input was
empty and `DEGEN` that it had one distinct byte value; after DECOMPRESS `EMPTY` says no byte came out and `DEGEN` is
0. -/
def Obligations.FlagsAfterSuccess : Prop :=
  ∀ s t : State, t.status.state = .done →
    (exec .compress s = .next t →
      t.status.empty = decide (s.inLen = 0) ∧ t.status.degen = decide (distinctCount (inputBytes s) = 1) ∧
      t.err = .none ∧ t.errSub = .none ∧ t.errInfo = 0 ∧ t.phase = 0) ∧
    (exec .decompress s = .next t →
      t.status.empty = decide (t.outLen = 0) ∧ t.status.degen = false ∧
      t.err = .none ∧ t.errSub = .none ∧ t.errInfo = 0 ∧ t.phase = 0)

/-- R205: the size of the result of COMPRESS: `OUT_LEN = HDR_LEN + ceil(BITCNT / 8)` with
`HDR_LEN = 8 + 5·ENTRY_CNT + (sum of the code lengths)`, at most 34183, and `BITCNT <= 8 · IN_LEN`; so the result is at
most 34183 bytes longer than the input, and with that much room in OUT COMPRESS succeeds. -/
def Obligations.CompressedSizeIsBounded : Prop :=
  (∀ s t : State, s.inLen ≠ 0 → exec .compress s = .next t → t.status.state = .done →
    t.outLen.toNat = t.hdrLen.toNat + (t.int.bitcnt.toNat + 7) / 8 ∧
    t.hdrLen.toNat = 8 + 5 * t.entryCnt.toNat + ((codeEntries t.int.ct).map (fun e => e.2.length)).sum ∧
    t.hdrLen.toNat ≤ 34183 ∧ t.int.bitcnt.toNat ≤ 8 * s.inLen.toNat ∧
    t.outLen.toNat ≤ s.inLen.toNat + 34183) ∧
  (∀ s : State, s.inLen ≤ s.params.inCap → s.inLen.toNat + 34183 ≤ s.params.outCap.toNat →
    ∃ t, exec .compress s = .next t ∧ t.status.state = .done)

/-- R190: DECOMPRESS never gives more bytes than the payload has true bits. -/
def Obligations.DecodedLengthIsBounded : Prop :=
  ∀ s t : State, exec .decompress s = .next t → t.status.state = .done →
    t.outLen.toNat + t.pad.toNat ≤ 8 * (s.inLen.toNat - t.hdrLen.toNat)
end

