-- ==== Sys2Proof/Laws/Memory.lean ====
section
/-! SUPPORT. Laws of the buffers: read after write, and that every buffer operation keeps the canonical form. -/

namespace Sys2Proof.Machine

/-- An index below every listed one is not listed. -/
theorem Memory.read_eq_none_of_lt {m : Memory} {a : Nat} (h : ∀ c ∈ m, a < c.1) : m.read a = none := by
  induction m with
  | nil => rfl
  | cons c rest ih =>
    obtain ⟨k, v⟩ := c
    have hk : a < k := h (k, v) (by simp)
    simp only [Memory.read]
    rw [if_neg (by omega)]
    exact ih fun c hc => h c (by simp [hc])

/-- Read after write, in a buffer in canonical form or not. -/
theorem Memory.read_write (m : Memory) (a k : Nat) (b : Byte) :
    (m.write a b).read k = if k = a then some b else m.read k := by
  induction m with
  | nil =>
    by_cases h : k = a
    · simp [Memory.write, Memory.read, h]
    · have h' : ¬ a = k := fun e => h e.symm
      simp [Memory.write, Memory.read, h, h']
  | cons c rest ih =>
    obtain ⟨j, v⟩ := c
    simp only [Memory.write]
    split
    · by_cases h : k = a
      · simp [Memory.read, h]
      · have h' : ¬ a = k := fun e => h e.symm
        simp [Memory.read, h, h']
    · split
      · rename_i _ hj
        subst hj
        by_cases h : k = a
        · simp [Memory.read, h]
        · have h' : ¬ a = k := fun e => h e.symm
          simp [Memory.read, h, h']
      · rename_i _ hj
        simp only [Memory.read, ih]
        by_cases h : k = a
        · subst h
          simpa using fun e => absurd e.symm hj
        · simp [h]

/-- Read after the write of a byte sequence. -/
theorem Memory.read_writeBytes (m : Memory) (a k : Nat) (bs : List Byte) :
    (m.writeBytes a bs).read k = if a ≤ k ∧ k < a + bs.length then bs[k - a]? else m.read k := by
  induction bs generalizing m a with
  | nil =>
    have h : ¬ (a ≤ k ∧ k < a + ([] : List Byte).length) := by simp
    rw [if_neg h]
    rfl
  | cons b bs ih =>
    simp only [Memory.writeBytes, ih, Memory.read_write, List.length_cons]
    by_cases h1 : k = a
    · subst h1
      simp
    · by_cases h2 : a + 1 ≤ k ∧ k < a + 1 + bs.length
      · have h3 : a ≤ k ∧ k < a + (bs.length + 1) := by omega
        rw [if_pos h2, if_pos h3]
        have : k - a = (k - (a + 1)) + 1 := by omega
        rw [this, List.getElem?_cons_succ]
      · have h3 : ¬ (a ≤ k ∧ k < a + (bs.length + 1)) := by omega
        rw [if_neg h2, if_neg h3, if_neg h1]

/-- A written index is the new one or one that was listed. -/
theorem Memory.mem_write {m : Memory} {a : Nat} {b : Byte} {c : Host.Cell} (h : c ∈ m.write a b) :
    c = (a, b) ∨ c ∈ m := by
  induction m with
  | nil => simpa [Memory.write] using h
  | cons d rest ih =>
    obtain ⟨k, v⟩ := d
    simp only [Memory.write] at h
    split at h
    · simpa using h
    · split at h
      · rcases List.mem_cons.mp h with h | h
        · exact .inl h
        · exact .inr (by simp [h])
      · rcases List.mem_cons.mp h with h | h
        · exact .inr (by simp [h])
        · rcases ih h with h | h
          · exact .inl h
          · exact .inr (by simp [h])

/-- The canonical form, as a property of the head and the rest. -/
theorem Memory.wf_cons (c : Host.Cell) (m : Memory) :
    Memory.wf (c :: m) ↔ (∀ d ∈ m, c.1 < d.1) ∧ Memory.wf m := by
  simp [Memory.wf]

/-- A write keeps the canonical form. -/
theorem Memory.wf_write {m : Memory} (h : m.wf) (a : Nat) (b : Byte) : (m.write a b).wf := by
  induction m with
  | nil => simp [Memory.write, Memory.wf]
  | cons c rest ih =>
    obtain ⟨k, v⟩ := c
    obtain ⟨hk, hr⟩ := (Memory.wf_cons _ _).mp h
    simp only [Memory.write]
    split
    · rename_i hlt
      refine (Memory.wf_cons _ _).mpr ⟨fun d hd => ?_, h⟩
      rcases List.mem_cons.mp hd with rfl | hd
      · exact hlt
      · exact Nat.lt_trans hlt (hk d hd)
    · split
      · rename_i _ he
        subst he
        exact (Memory.wf_cons _ _).mpr ⟨hk, hr⟩
      · rename_i h1 h2
        refine (Memory.wf_cons _ _).mpr ⟨fun d hd => ?_, ih hr⟩
        rcases Memory.mem_write hd with rfl | hd
        · show k < a
          omega
        · exact hk d hd

/-- The write of a byte sequence keeps the canonical form. -/
theorem Memory.wf_writeBytes {m : Memory} (h : m.wf) (a : Nat) (bs : List Byte) : (m.writeBytes a bs).wf := by
  induction bs generalizing m a with
  | nil => exact h
  | cons b bs ih => exact ih (Memory.wf_write h a b) (a + 1)

/-- Every index that a byte sequence's write leaves listed is one of its own or was listed. -/
theorem Memory.mem_writeBytes {m : Memory} {a : Nat} {bs : List Byte} {c : Host.Cell}
    (h : c ∈ m.writeBytes a bs) : (a ≤ c.1 ∧ c.1 < a + bs.length) ∨ c ∈ m := by
  induction bs generalizing m a with
  | nil => exact .inr h
  | cons b bs ih =>
    rcases ih h with h | h
    · exact .inl (by simp only [List.length_cons]; omega)
    · rcases Memory.mem_write h with rfl | h
      · exact .inl (by simp)
      · exact .inr h

/-- Cutting a buffer off keeps the canonical form. -/
theorem Memory.wf_below {m : Memory} (h : m.wf) (n : Nat) : (m.below n).wf :=
  List.Pairwise.sublist (List.Sublist.map _ List.filter_sublist) h

/-- What a cut-off buffer still lists. -/
theorem Memory.mem_below {m : Memory} {n : Nat} {c : Host.Cell} : c ∈ m.below n ↔ c ∈ m ∧ c.1 < n := by
  simp [Memory.below]

/-- A cut-off buffer reads the same below the cut, and nothing at or above it. -/
theorem Memory.read_below (m : Memory) (n k : Nat) :
    (m.below n).read k = if k < n then m.read k else none := by
  induction m with
  | nil => simp [Memory.below, Memory.read]
  | cons c rest ih =>
    obtain ⟨j, v⟩ := c
    have hb : Memory.below ((j, v) :: rest) n =
        if j < n then (j, v) :: Memory.below rest n else Memory.below rest n := by
      by_cases hj : j < n <;> simp [Memory.below, hj]
    rw [hb]
    by_cases hj : j < n
    · rw [if_pos hj]
      simp only [Memory.read, ih]
      by_cases e : j = k
      · subst e
        simp [hj]
      · simp [e]
    · rw [if_neg hj, ih]
      by_cases hk : k < n
      · have : ¬ j = k := by omega
        simp [hk, Memory.read, this]
      · simp [hk]

/-- The buffers of the state after reset are in canonical form. -/
theorem Memory.wf_reset (p : Params) : (State.resetWith p).inMem.wf ∧ (State.resetWith p).outMem.wf := by
  simp [State.resetWith, Memory.wf]

/-- Where a buffer lists a byte, IN reads it; elsewhere it is the free value of the draw (V1). -/
theorem State.inByte_of_read {s : State} {a : Nat} {b : Byte} (h : s.inMem.read a = some b) : s.inByte a = b := by
  simp [State.inByte, h]

/-- Where a buffer lists a byte, OUT reads it; elsewhere it is the free value of the draw (V3). -/
theorem State.outByte_of_read {s : State} {a : Nat} {b : Byte} (h : s.outMem.read a = some b) :
    s.outByte a = b := by
  simp [State.outByte, h]

/-- IN's bytes depend on its buffer and its draw alone. -/
theorem State.inByte_congr {s t : State} (hm : t.inMem = s.inMem) (hd : t.inDraw = s.inDraw) (a : Nat) :
    t.inByte a = s.inByte a := by
  simp [State.inByte, hm, hd]

/-- OUT's bytes depend on its buffer and its draw alone. -/
theorem State.outByte_congr {s t : State} (hm : t.outMem = s.outMem) (hd : t.outDraw = s.outDraw) (a : Nat) :
    t.outByte a = s.outByte a := by
  simp [State.outByte, hm, hd]

end Sys2Proof.Machine
end

