-- ==== Sys2Proof/Laws/Operands.lean ====
section
/-! SUPPORT. Laws of `MemRead`, `OutAppend`, the 4-byte integers and the bit symbols: each says once what it can do. -/

namespace Sys2Proof.Machine

/-! ## IN -/

@[simp] theorem length_memRead (s : State) (a n : Nat) : (memRead s a n).length = n := by
  induction n generalizing a with
  | zero => rfl
  | succ n ih => simp [memRead, ih]

theorem getElem_memRead (s : State) (a n i : Nat) (h : i < (memRead s a n).length) :
    (memRead s a n)[i] = s.inByte (a + i) := by
  induction n generalizing a i with
  | zero => simp [memRead] at h
  | succ n ih =>
    cases i with
    | zero => simp [memRead]
    | succ i =>
      simp only [memRead, List.getElem_cons_succ]
      rw [ih]
      congr 1
      omega

/-- A read of two adjoining stretches is the two reads joined. -/
theorem memRead_add (s : State) (a m n : Nat) : memRead s a (m + n) = memRead s a m ++ memRead s (a + m) n := by
  induction m generalizing a with
  | zero => simp [memRead]
  | succ m ih =>
    have e : m + 1 + n = (m + n) + 1 := by omega
    rw [e]
    simp only [memRead, List.cons_append, ih]
    congr 2
    rw [show a + 1 + m = a + (m + 1) by omega]

/-- Two states whose bytes agree on a stretch read the same there. -/
theorem memRead_congr {s t : State} {a n : Nat} (h : ∀ i < n, t.inByte (a + i) = s.inByte (a + i)) :
    memRead t a n = memRead s a n :=
  List.ext_getElem (by simp) fun i h1 _ => by
    rw [getElem_memRead, getElem_memRead, h i (by simpa using h1)]

theorem checkInput_ok {s : State} (h : s.inLen ≤ s.params.inCap) : checkInput s = .ok () := by
  have : ¬ s.params.inCap < s.inLen := BitVec.not_lt.mpr h
  simp [checkInput, this, pure, Except.pure]

theorem checkInput_beyond {s : State} (h : s.params.inCap < s.inLen) :
    checkInput s = .error (.fault .noSuchByte) := by
  simp [checkInput, h, throw, throwThe, MonadExceptOf.throw]

/-! ## OUT -/

/-- The room for `OutAppend` (R227): with it, exactly the appended bytes change. -/
theorem outAppend_ok {s : State} {v : List Byte} (h : v.length ≤ s.params.outCap.toNat - s.outLen.toNat) :
    outAppend s v = .ok { s with
      outMem := s.outMem.writeBytes s.outLen.toNat v
      outLen := BitVec.ofNat 32 (s.outLen.toNat + v.length) } := by
  simp [outAppend, Nat.not_lt.mpr h, pure, Except.pure]

theorem outAppend_full {s : State} {v : List Byte} (h : s.params.outCap.toNat - s.outLen.toNat < v.length) :
    outAppend s v = .error (.raised .outFull 0) := by
  simp [outAppend, h, throw, throwThe, MonadExceptOf.throw]

/-- All that `OutAppend` can do. -/
theorem outAppend_cases (s : State) (v : List Byte) :
    (v.length ≤ s.params.outCap.toNat - s.outLen.toNat ∧
      outAppend s v = .ok { s with
        outMem := s.outMem.writeBytes s.outLen.toNat v
        outLen := BitVec.ofNat 32 (s.outLen.toNat + v.length) }) ∨
    (s.params.outCap.toNat - s.outLen.toNat < v.length ∧ outAppend s v = .error (.raised .outFull 0)) := by
  rcases Nat.lt_or_ge (s.params.outCap.toNat - s.outLen.toNat) v.length with h | h
  · exact .inr ⟨h, outAppend_full h⟩
  · exact .inl ⟨h, outAppend_ok h⟩

/-- `OUT_LEN` after an append that fits: no wrap, and still within OUT. -/
theorem outLen_append {s : State} {v : List Byte} (hs : s.outLen ≤ s.params.outCap)
    (h : v.length ≤ s.params.outCap.toNat - s.outLen.toNat) :
    (BitVec.ofNat 32 (s.outLen.toNat + v.length)).toNat = s.outLen.toNat + v.length ∧
      s.outLen.toNat + v.length ≤ s.params.outCap.toNat := by
  have h1 : s.outLen.toNat ≤ s.params.outCap.toNat := by simpa [BitVec.le_def] using hs
  have h2 := s.params.outCap.isLt
  constructor
  · rw [BitVec.toNat_ofNat]
    exact Nat.mod_eq_of_lt (by omega)
  · omega

/-! ## 4-byte integers (R64) -/

@[simp] theorem length_u32 (v : Nat) : (u32 v).length = 4 := rfl

/-- The reader takes back what the writer wrote, for every unsigned 32-bit number. -/
theorem unU32_u32 {v : Nat} (h : v < 2 ^ 32) : unU32 (u32 v) = v := by
  simp only [u32, unU32, BitVec.toNat_ofNat]
  omega

/-- Four bytes are the integer they read as. -/
theorem u32_unU32 (a b c d : Byte) : u32 (unU32 [a, b, c, d]) = [a, b, c, d] := by
  have ha := a.isLt
  have hb := b.isLt
  have hc := c.isLt
  have hd := d.isLt
  simp only [u32, unU32, List.cons.injEq, and_true]
  refine ⟨?_, ?_, ?_, ?_⟩ <;> refine BitVec.eq_of_toNat_eq ?_ <;> rw [BitVec.toNat_ofNat] <;> omega

/-- Four bytes never read as more than 32 bits. -/
theorem unU32_lt {bs : List Byte} (h : bs.length = 4) : unU32 bs < 2 ^ 32 := by
  match bs, h with
  | [a, b, c, d], _ =>
    have ha := a.isLt
    have hb := b.isLt
    have hc := c.isLt
    have hd := d.isLt
    simp only [unU32]
    omega

/-! ## Bit symbols (R86, R90) -/

@[simp] theorem symbolBit_bitSymbol (x : Bool) : symbolBit (bitSymbol x) = some x := by
  cases x <;> rfl

theorem bitSymbol_of_symbolBit {c : Byte} {x : Bool} (h : symbolBit c = some x) : bitSymbol x = c := by
  unfold symbolBit at h
  split at h
  · cases h
    simp_all [bitSymbol]
  · split at h
    · cases h
      simp_all [bitSymbol]
    · cases h

theorem symbolBit_eq_none {c : Byte} : symbolBit c = none ↔ c ≠ 0x30#8 ∧ c ≠ 0x31#8 := by
  unfold symbolBit
  by_cases h : c = 0x30#8
  · simp [h]
  · by_cases h' : c = 0x31#8 <;> simp [h, h']

/-! ## The bounds check of HDR_READ (R164) -/

theorem need_ok {s : State} {hcur k : Nat} (h : k ≤ s.inLen.toNat - hcur) : need s hcur k = .ok () := by
  simp [need, Nat.not_lt.mpr h, pure, Except.pure]

theorem need_short {s : State} {hcur k : Nat} (h : s.inLen.toNat - hcur < k) :
    need s hcur k = .error (.raised .truncated (BitVec.ofNat 32 hcur)) := by
  simp [need, h, throw, throwThe, MonadExceptOf.throw]

theorem readInt_ok {s : State} {hcur : Nat} (h : 4 ≤ s.inLen.toNat - hcur) :
    readInt s hcur = .ok (unU32 (memRead s hcur 4)) := by
  simp [readInt, need_ok h, bind, Except.bind, pure, Except.pure]

theorem readInt_short {s : State} {hcur : Nat} (h : s.inLen.toNat - hcur < 4) :
    readInt s hcur = .error (.raised .truncated (BitVec.ofNat 32 hcur)) := by
  simp [readInt, need_short h, bind, Except.bind]

end Sys2Proof.Machine
end

