-- ==== Sys2Proof/Laws/State.lean ====
section
/-! SUPPORT. One lemma per field of State and per shared update of it, true by definition, so that no later proof unfolds
a record update. -/

namespace Sys2Proof.Machine

/-! ## Error entry (R231) -/

@[simp] theorem raise_params (sub : ErrSub) (info : Word) (s : State) : (raise sub info s).params = s.params := rfl

@[simp] theorem raise_status (sub : ErrSub) (info : Word) (s : State) :
    (raise sub info s).status = { state := .error, empty := false, degen := false } := rfl

@[simp] theorem raise_err (sub : ErrSub) (info : Word) (s : State) : (raise sub info s).err = sub.kind := rfl

@[simp] theorem raise_errSub (sub : ErrSub) (info : Word) (s : State) : (raise sub info s).errSub = sub := rfl

@[simp] theorem raise_errInfo (sub : ErrSub) (info : Word) (s : State) : (raise sub info s).errInfo = info := rfl

@[simp] theorem raise_inLen (sub : ErrSub) (info : Word) (s : State) : (raise sub info s).inLen = s.inLen := rfl

@[simp] theorem raise_outLen (sub : ErrSub) (info : Word) (s : State) : (raise sub info s).outLen = 0 := rfl

@[simp] theorem raise_pad (sub : ErrSub) (info : Word) (s : State) :
    (raise sub info s).pad = Config.freePad s.outDraw := rfl

@[simp] theorem raise_entryCnt (sub : ErrSub) (info : Word) (s : State) :
    (raise sub info s).entryCnt = Config.freeEntryCnt s.outDraw := rfl

@[simp] theorem raise_hdrLen (sub : ErrSub) (info : Word) (s : State) :
    (raise sub info s).hdrLen = Config.freeHdrLen s.outDraw := rfl

@[simp] theorem raise_phase (sub : ErrSub) (info : Word) (s : State) : (raise sub info s).phase = 0 := rfl

@[simp] theorem raise_resume (sub : ErrSub) (info : Word) (s : State) : (raise sub info s).resume = .start := rfl

@[simp] theorem raise_inMem (sub : ErrSub) (info : Word) (s : State) : (raise sub info s).inMem = s.inMem := rfl

@[simp] theorem raise_outMem (sub : ErrSub) (info : Word) (s : State) : (raise sub info s).outMem = [] := rfl

@[simp] theorem raise_int (sub : ErrSub) (info : Word) (s : State) :
    (raise sub info s).int = Config.freeInternals s.outDraw := rfl

@[simp] theorem raise_hostQueue (sub : ErrSub) (info : Word) (s : State) :
    (raise sub info s).hostQueue = s.hostQueue := rfl

@[simp] theorem raise_hostRead (sub : ErrSub) (info : Word) (s : State) :
    (raise sub info s).hostRead = s.hostRead := rfl

@[simp] theorem raise_inDraw (sub : ErrSub) (info : Word) (s : State) : (raise sub info s).inDraw = s.inDraw := rfl

@[simp] theorem raise_outDraw (sub : ErrSub) (info : Word) (s : State) :
    (raise sub info s).outDraw = s.outDraw + 1 := rfl

/-! ## The prologue (R206) -/

@[simp] theorem prologue_params (s : State) : (prologue s).params = s.params := rfl

@[simp] theorem prologue_status (s : State) :
    (prologue s).status = { state := .busy, empty := false, degen := false } := rfl

@[simp] theorem prologue_err (s : State) : (prologue s).err = .none := rfl

@[simp] theorem prologue_errSub (s : State) : (prologue s).errSub = .none := rfl

@[simp] theorem prologue_errInfo (s : State) : (prologue s).errInfo = 0 := rfl

@[simp] theorem prologue_inLen (s : State) : (prologue s).inLen = s.inLen := rfl

@[simp] theorem prologue_outLen (s : State) : (prologue s).outLen = 0 := rfl

@[simp] theorem prologue_pad (s : State) : (prologue s).pad = 0 := rfl

@[simp] theorem prologue_entryCnt (s : State) : (prologue s).entryCnt = 0 := rfl

@[simp] theorem prologue_hdrLen (s : State) : (prologue s).hdrLen = 0 := rfl

@[simp] theorem prologue_phase (s : State) : (prologue s).phase = s.phase := rfl

@[simp] theorem prologue_resume (s : State) : (prologue s).resume = .start := rfl

@[simp] theorem prologue_inMem (s : State) : (prologue s).inMem = s.inMem := rfl

@[simp] theorem prologue_outMem (s : State) : (prologue s).outMem = s.outMem := rfl

@[simp] theorem prologue_int (s : State) : (prologue s).int = Config.freeInternals s.outDraw := rfl

@[simp] theorem prologue_hostQueue (s : State) : (prologue s).hostQueue = s.hostQueue := rfl

@[simp] theorem prologue_hostRead (s : State) : (prologue s).hostRead = s.hostRead := rfl

@[simp] theorem prologue_inDraw (s : State) : (prologue s).inDraw = s.inDraw := rfl

@[simp] theorem prologue_outDraw (s : State) : (prologue s).outDraw = s.outDraw + 1 := rfl

/-! ## The epilogue (R207) -/

@[simp] theorem epilogue_params (s : State) : (epilogue s).params = s.params := rfl

@[simp] theorem epilogue_status (s : State) : (epilogue s).status = { s.status with state := .done } := rfl

@[simp] theorem epilogue_err (s : State) : (epilogue s).err = s.err := rfl

@[simp] theorem epilogue_errSub (s : State) : (epilogue s).errSub = s.errSub := rfl

@[simp] theorem epilogue_errInfo (s : State) : (epilogue s).errInfo = s.errInfo := rfl

@[simp] theorem epilogue_inLen (s : State) : (epilogue s).inLen = s.inLen := rfl

@[simp] theorem epilogue_outLen (s : State) : (epilogue s).outLen = s.outLen := rfl

@[simp] theorem epilogue_pad (s : State) : (epilogue s).pad = s.pad := rfl

@[simp] theorem epilogue_entryCnt (s : State) : (epilogue s).entryCnt = s.entryCnt := rfl

@[simp] theorem epilogue_hdrLen (s : State) : (epilogue s).hdrLen = s.hdrLen := rfl

@[simp] theorem epilogue_phase (s : State) : (epilogue s).phase = 0 := rfl

@[simp] theorem epilogue_resume (s : State) : (epilogue s).resume = .start := rfl

@[simp] theorem epilogue_inMem (s : State) : (epilogue s).inMem = s.inMem := rfl

@[simp] theorem epilogue_outMem (s : State) : (epilogue s).outMem = s.outMem.below s.outLen.toNat := rfl

@[simp] theorem epilogue_int (s : State) : (epilogue s).int = s.int := rfl

@[simp] theorem epilogue_hostQueue (s : State) : (epilogue s).hostQueue = s.hostQueue := rfl

@[simp] theorem epilogue_hostRead (s : State) : (epilogue s).hostRead = s.hostRead := rfl

@[simp] theorem epilogue_inDraw (s : State) : (epilogue s).inDraw = s.inDraw := rfl

@[simp] theorem epilogue_outDraw (s : State) : (epilogue s).outDraw = s.outDraw + 1 := rfl

/-! ## `STATUS.EMPTY` -/

@[simp] theorem setEmpty_params (s : State) (b : Bool) : (s.setEmpty b).params = s.params := rfl

@[simp] theorem setEmpty_status (s : State) (b : Bool) : (s.setEmpty b).status = { s.status with empty := b } := rfl

@[simp] theorem setEmpty_err (s : State) (b : Bool) : (s.setEmpty b).err = s.err := rfl

@[simp] theorem setEmpty_errSub (s : State) (b : Bool) : (s.setEmpty b).errSub = s.errSub := rfl

@[simp] theorem setEmpty_errInfo (s : State) (b : Bool) : (s.setEmpty b).errInfo = s.errInfo := rfl

@[simp] theorem setEmpty_inLen (s : State) (b : Bool) : (s.setEmpty b).inLen = s.inLen := rfl

@[simp] theorem setEmpty_outLen (s : State) (b : Bool) : (s.setEmpty b).outLen = s.outLen := rfl

@[simp] theorem setEmpty_pad (s : State) (b : Bool) : (s.setEmpty b).pad = s.pad := rfl

@[simp] theorem setEmpty_entryCnt (s : State) (b : Bool) : (s.setEmpty b).entryCnt = s.entryCnt := rfl

@[simp] theorem setEmpty_hdrLen (s : State) (b : Bool) : (s.setEmpty b).hdrLen = s.hdrLen := rfl

@[simp] theorem setEmpty_phase (s : State) (b : Bool) : (s.setEmpty b).phase = s.phase := rfl

@[simp] theorem setEmpty_resume (s : State) (b : Bool) : (s.setEmpty b).resume = s.resume := rfl

@[simp] theorem setEmpty_inMem (s : State) (b : Bool) : (s.setEmpty b).inMem = s.inMem := rfl

@[simp] theorem setEmpty_outMem (s : State) (b : Bool) : (s.setEmpty b).outMem = s.outMem := rfl

@[simp] theorem setEmpty_int (s : State) (b : Bool) : (s.setEmpty b).int = s.int := rfl

@[simp] theorem setEmpty_hostQueue (s : State) (b : Bool) : (s.setEmpty b).hostQueue = s.hostQueue := rfl

@[simp] theorem setEmpty_hostRead (s : State) (b : Bool) : (s.setEmpty b).hostRead = s.hostRead := rfl

@[simp] theorem setEmpty_inDraw (s : State) (b : Bool) : (s.setEmpty b).inDraw = s.inDraw := rfl

@[simp] theorem setEmpty_outDraw (s : State) (b : Bool) : (s.setEmpty b).outDraw = s.outDraw := rfl

/-! ## `STATUS.DEGEN` -/

@[simp] theorem setDegen_params (s : State) (b : Bool) : (s.setDegen b).params = s.params := rfl

@[simp] theorem setDegen_status (s : State) (b : Bool) : (s.setDegen b).status = { s.status with degen := b } := rfl

@[simp] theorem setDegen_err (s : State) (b : Bool) : (s.setDegen b).err = s.err := rfl

@[simp] theorem setDegen_errSub (s : State) (b : Bool) : (s.setDegen b).errSub = s.errSub := rfl

@[simp] theorem setDegen_errInfo (s : State) (b : Bool) : (s.setDegen b).errInfo = s.errInfo := rfl

@[simp] theorem setDegen_inLen (s : State) (b : Bool) : (s.setDegen b).inLen = s.inLen := rfl

@[simp] theorem setDegen_outLen (s : State) (b : Bool) : (s.setDegen b).outLen = s.outLen := rfl

@[simp] theorem setDegen_pad (s : State) (b : Bool) : (s.setDegen b).pad = s.pad := rfl

@[simp] theorem setDegen_entryCnt (s : State) (b : Bool) : (s.setDegen b).entryCnt = s.entryCnt := rfl

@[simp] theorem setDegen_hdrLen (s : State) (b : Bool) : (s.setDegen b).hdrLen = s.hdrLen := rfl

@[simp] theorem setDegen_phase (s : State) (b : Bool) : (s.setDegen b).phase = s.phase := rfl

@[simp] theorem setDegen_resume (s : State) (b : Bool) : (s.setDegen b).resume = s.resume := rfl

@[simp] theorem setDegen_inMem (s : State) (b : Bool) : (s.setDegen b).inMem = s.inMem := rfl

@[simp] theorem setDegen_outMem (s : State) (b : Bool) : (s.setDegen b).outMem = s.outMem := rfl

@[simp] theorem setDegen_int (s : State) (b : Bool) : (s.setDegen b).int = s.int := rfl

@[simp] theorem setDegen_hostQueue (s : State) (b : Bool) : (s.setDegen b).hostQueue = s.hostQueue := rfl

@[simp] theorem setDegen_hostRead (s : State) (b : Bool) : (s.setDegen b).hostRead = s.hostRead := rfl

@[simp] theorem setDegen_inDraw (s : State) (b : Bool) : (s.setDegen b).inDraw = s.inDraw := rfl

@[simp] theorem setDegen_outDraw (s : State) (b : Bool) : (s.setDegen b).outDraw = s.outDraw := rfl

/-! ## The sequencer's moves (R12, R27) -/

@[simp] theorem goto_params (s : State) (p : Byte) : (s.goto p).params = s.params := rfl

@[simp] theorem goto_status (s : State) (p : Byte) : (s.goto p).status = s.status := rfl

@[simp] theorem goto_err (s : State) (p : Byte) : (s.goto p).err = s.err := rfl

@[simp] theorem goto_errSub (s : State) (p : Byte) : (s.goto p).errSub = s.errSub := rfl

@[simp] theorem goto_errInfo (s : State) (p : Byte) : (s.goto p).errInfo = s.errInfo := rfl

@[simp] theorem goto_inLen (s : State) (p : Byte) : (s.goto p).inLen = s.inLen := rfl

@[simp] theorem goto_outLen (s : State) (p : Byte) : (s.goto p).outLen = s.outLen := rfl

@[simp] theorem goto_pad (s : State) (p : Byte) : (s.goto p).pad = s.pad := rfl

@[simp] theorem goto_entryCnt (s : State) (p : Byte) : (s.goto p).entryCnt = s.entryCnt := rfl

@[simp] theorem goto_hdrLen (s : State) (p : Byte) : (s.goto p).hdrLen = s.hdrLen := rfl

@[simp] theorem goto_phase (s : State) (p : Byte) : (s.goto p).phase = p := rfl

@[simp] theorem goto_resume (s : State) (p : Byte) : (s.goto p).resume = .start := rfl

@[simp] theorem goto_inMem (s : State) (p : Byte) : (s.goto p).inMem = s.inMem := rfl

@[simp] theorem goto_outMem (s : State) (p : Byte) : (s.goto p).outMem = s.outMem := rfl

@[simp] theorem goto_int (s : State) (p : Byte) : (s.goto p).int = s.int := rfl

@[simp] theorem goto_hostQueue (s : State) (p : Byte) : (s.goto p).hostQueue = s.hostQueue := rfl

@[simp] theorem goto_hostRead (s : State) (p : Byte) : (s.goto p).hostRead = s.hostRead := rfl

@[simp] theorem goto_inDraw (s : State) (p : Byte) : (s.goto p).inDraw = s.inDraw := rfl

@[simp] theorem goto_outDraw (s : State) (p : Byte) : (s.goto p).outDraw = s.outDraw := rfl

/-! ## The return from a primitive -/

@[simp] theorem resumeAt_params (s : State) (p : Byte) (r : Resume) : (s.resumeAt p r).params = s.params := rfl

@[simp] theorem resumeAt_status (s : State) (p : Byte) (r : Resume) : (s.resumeAt p r).status = s.status := rfl

@[simp] theorem resumeAt_err (s : State) (p : Byte) (r : Resume) : (s.resumeAt p r).err = s.err := rfl

@[simp] theorem resumeAt_errSub (s : State) (p : Byte) (r : Resume) : (s.resumeAt p r).errSub = s.errSub := rfl

@[simp] theorem resumeAt_errInfo (s : State) (p : Byte) (r : Resume) : (s.resumeAt p r).errInfo = s.errInfo := rfl

@[simp] theorem resumeAt_inLen (s : State) (p : Byte) (r : Resume) : (s.resumeAt p r).inLen = s.inLen := rfl

@[simp] theorem resumeAt_outLen (s : State) (p : Byte) (r : Resume) : (s.resumeAt p r).outLen = s.outLen := rfl

@[simp] theorem resumeAt_pad (s : State) (p : Byte) (r : Resume) : (s.resumeAt p r).pad = s.pad := rfl

@[simp] theorem resumeAt_entryCnt (s : State) (p : Byte) (r : Resume) : (s.resumeAt p r).entryCnt = s.entryCnt := rfl

@[simp] theorem resumeAt_hdrLen (s : State) (p : Byte) (r : Resume) : (s.resumeAt p r).hdrLen = s.hdrLen := rfl

@[simp] theorem resumeAt_phase (s : State) (p : Byte) (r : Resume) : (s.resumeAt p r).phase = p := rfl

@[simp] theorem resumeAt_resume (s : State) (p : Byte) (r : Resume) : (s.resumeAt p r).resume = r := rfl

@[simp] theorem resumeAt_inMem (s : State) (p : Byte) (r : Resume) : (s.resumeAt p r).inMem = s.inMem := rfl

@[simp] theorem resumeAt_outMem (s : State) (p : Byte) (r : Resume) : (s.resumeAt p r).outMem = s.outMem := rfl

@[simp] theorem resumeAt_int (s : State) (p : Byte) (r : Resume) : (s.resumeAt p r).int = s.int := rfl

@[simp] theorem resumeAt_hostQueue (s : State) (p : Byte) (r : Resume) :
    (s.resumeAt p r).hostQueue = s.hostQueue := rfl

@[simp] theorem resumeAt_hostRead (s : State) (p : Byte) (r : Resume) : (s.resumeAt p r).hostRead = s.hostRead := rfl

@[simp] theorem resumeAt_inDraw (s : State) (p : Byte) (r : Resume) : (s.resumeAt p r).inDraw = s.inDraw := rfl

@[simp] theorem resumeAt_outDraw (s : State) (p : Byte) (r : Resume) : (s.resumeAt p r).outDraw = s.outDraw := rfl

/-! ## The empty-input path (R201) -/

@[simp] theorem emptyInput_params (s : State) : (emptyInput s).params = s.params := rfl

@[simp] theorem emptyInput_status (s : State) : (emptyInput s).status = s.status := rfl

@[simp] theorem emptyInput_err (s : State) : (emptyInput s).err = s.err := rfl

@[simp] theorem emptyInput_errSub (s : State) : (emptyInput s).errSub = s.errSub := rfl

@[simp] theorem emptyInput_errInfo (s : State) : (emptyInput s).errInfo = s.errInfo := rfl

@[simp] theorem emptyInput_inLen (s : State) : (emptyInput s).inLen = s.inLen := rfl

@[simp] theorem emptyInput_outLen (s : State) : (emptyInput s).outLen = s.outLen := rfl

@[simp] theorem emptyInput_pad (s : State) : (emptyInput s).pad = 0 := rfl

@[simp] theorem emptyInput_entryCnt (s : State) : (emptyInput s).entryCnt = 0 := rfl

@[simp] theorem emptyInput_hdrLen (s : State) : (emptyInput s).hdrLen = s.hdrLen := rfl

@[simp] theorem emptyInput_phase (s : State) : (emptyInput s).phase = s.phase := rfl

@[simp] theorem emptyInput_resume (s : State) : (emptyInput s).resume = s.resume := rfl

@[simp] theorem emptyInput_inMem (s : State) : (emptyInput s).inMem = s.inMem := rfl

@[simp] theorem emptyInput_outMem (s : State) : (emptyInput s).outMem = s.outMem := rfl

@[simp] theorem emptyInput_int (s : State) : (emptyInput s).int = { s.int with ct := emptyTable, pay := [] } := rfl

@[simp] theorem emptyInput_hostQueue (s : State) : (emptyInput s).hostQueue = s.hostQueue := rfl

@[simp] theorem emptyInput_hostRead (s : State) : (emptyInput s).hostRead = s.hostRead := rfl

@[simp] theorem emptyInput_inDraw (s : State) : (emptyInput s).inDraw = s.inDraw := rfl

@[simp] theorem emptyInput_outDraw (s : State) : (emptyInput s).outDraw = s.outDraw := rfl

/-! ## Reset (R250) -/

@[simp] theorem externalReset_params (s : State) : (externalReset s).params = s.params := rfl

@[simp] theorem externalReset_status (s : State) :
    (externalReset s).status = { state := .idle, empty := false, degen := false } := rfl

@[simp] theorem externalReset_err (s : State) : (externalReset s).err = .none := rfl

@[simp] theorem externalReset_errSub (s : State) : (externalReset s).errSub = .none := rfl

@[simp] theorem externalReset_errInfo (s : State) : (externalReset s).errInfo = 0 := rfl

@[simp] theorem externalReset_inLen (s : State) : (externalReset s).inLen = 0 := rfl

@[simp] theorem externalReset_outLen (s : State) : (externalReset s).outLen = 0 := rfl

@[simp] theorem externalReset_pad (s : State) : (externalReset s).pad = 0 := rfl

@[simp] theorem externalReset_entryCnt (s : State) : (externalReset s).entryCnt = 0 := rfl

@[simp] theorem externalReset_hdrLen (s : State) : (externalReset s).hdrLen = 0 := rfl

@[simp] theorem externalReset_phase (s : State) : (externalReset s).phase = 0 := rfl

@[simp] theorem externalReset_resume (s : State) : (externalReset s).resume = .start := rfl

@[simp] theorem externalReset_inMem (s : State) : (externalReset s).inMem = [] := rfl

@[simp] theorem externalReset_outMem (s : State) : (externalReset s).outMem = [] := rfl

@[simp] theorem externalReset_int (s : State) : (externalReset s).int = Internals.reset := rfl

@[simp] theorem externalReset_hostQueue (s : State) : (externalReset s).hostQueue = s.hostQueue := rfl

@[simp] theorem externalReset_hostRead (s : State) : (externalReset s).hostRead = s.hostRead := rfl

@[simp] theorem externalReset_inDraw (s : State) : (externalReset s).inDraw = s.inDraw + 1 := rfl

@[simp] theorem externalReset_outDraw (s : State) : (externalReset s).outDraw = s.outDraw + 1 := rfl

/-! ## The operand latches of the small steps (R126) -/

@[simp] theorem latchA_int (s : State) : s.latchA.int = { s.int with opA := s.int.res } := rfl
@[simp] theorem latchA_params (s : State) : s.latchA.params = s.params := rfl
@[simp] theorem latchA_status (s : State) : s.latchA.status = s.status := rfl
@[simp] theorem latchA_err (s : State) : s.latchA.err = s.err := rfl
@[simp] theorem latchA_errSub (s : State) : s.latchA.errSub = s.errSub := rfl
@[simp] theorem latchA_errInfo (s : State) : s.latchA.errInfo = s.errInfo := rfl
@[simp] theorem latchA_inLen (s : State) : s.latchA.inLen = s.inLen := rfl
@[simp] theorem latchA_outLen (s : State) : s.latchA.outLen = s.outLen := rfl
@[simp] theorem latchA_pad (s : State) : s.latchA.pad = s.pad := rfl
@[simp] theorem latchA_entryCnt (s : State) : s.latchA.entryCnt = s.entryCnt := rfl
@[simp] theorem latchA_hdrLen (s : State) : s.latchA.hdrLen = s.hdrLen := rfl
@[simp] theorem latchA_phase (s : State) : s.latchA.phase = s.phase := rfl
@[simp] theorem latchA_resume (s : State) : s.latchA.resume = s.resume := rfl
@[simp] theorem latchA_inMem (s : State) : s.latchA.inMem = s.inMem := rfl
@[simp] theorem latchA_outMem (s : State) : s.latchA.outMem = s.outMem := rfl
@[simp] theorem latchA_hostQueue (s : State) : s.latchA.hostQueue = s.hostQueue := rfl
@[simp] theorem latchA_hostRead (s : State) : s.latchA.hostRead = s.hostRead := rfl
@[simp] theorem latchA_inDraw (s : State) : s.latchA.inDraw = s.inDraw := rfl
@[simp] theorem latchA_outDraw (s : State) : s.latchA.outDraw = s.outDraw := rfl

@[simp] theorem latchB_int (s : State) : s.latchB.int = { s.int with opB := s.int.res } := rfl
@[simp] theorem latchB_params (s : State) : s.latchB.params = s.params := rfl
@[simp] theorem latchB_status (s : State) : s.latchB.status = s.status := rfl
@[simp] theorem latchB_err (s : State) : s.latchB.err = s.err := rfl
@[simp] theorem latchB_errSub (s : State) : s.latchB.errSub = s.errSub := rfl
@[simp] theorem latchB_errInfo (s : State) : s.latchB.errInfo = s.errInfo := rfl
@[simp] theorem latchB_inLen (s : State) : s.latchB.inLen = s.inLen := rfl
@[simp] theorem latchB_outLen (s : State) : s.latchB.outLen = s.outLen := rfl
@[simp] theorem latchB_pad (s : State) : s.latchB.pad = s.pad := rfl
@[simp] theorem latchB_entryCnt (s : State) : s.latchB.entryCnt = s.entryCnt := rfl
@[simp] theorem latchB_hdrLen (s : State) : s.latchB.hdrLen = s.hdrLen := rfl
@[simp] theorem latchB_phase (s : State) : s.latchB.phase = s.phase := rfl
@[simp] theorem latchB_resume (s : State) : s.latchB.resume = s.resume := rfl
@[simp] theorem latchB_inMem (s : State) : s.latchB.inMem = s.inMem := rfl
@[simp] theorem latchB_outMem (s : State) : s.latchB.outMem = s.outMem := rfl
@[simp] theorem latchB_hostQueue (s : State) : s.latchB.hostQueue = s.hostQueue := rfl
@[simp] theorem latchB_hostRead (s : State) : s.latchB.hostRead = s.hostRead := rfl
@[simp] theorem latchB_inDraw (s : State) : s.latchB.inDraw = s.inDraw := rfl
@[simp] theorem latchB_outDraw (s : State) : s.latchB.outDraw = s.outDraw := rfl

/-! ## Host writes (R22) -/

/-- A host write of a register other than `CMD` changes `IN_LEN` at most. -/
theorem hostRegWrite_eq (s : State) (n : Nat) (v : Word) :
    hostRegWrite s n v = { s with inLen := if n = 5 then v else s.inLen } := by
  unfold hostRegWrite
  split
  · rfl
  · rename_i h
    rw [if_neg h]

end Sys2Proof.Machine
end

