-- ==== Sys2Proof/Laws/Outcomes.lean ====
section
/-! SUPPORT. What the combinators of the meanings can answer, said once: `settle`, `thenBusy`, `onInternals`,
`withPrologue`, `advance`. -/

namespace Sys2Proof.Machine

@[simp] theorem settle_ok (s t : State) : settle s (.ok t) = .next t := rfl
@[simp] theorem settle_pure (s t : State) : settle s (pure t) = .next t := rfl
@[simp] theorem settle_raised (s : State) (sub : ErrSub) (info : Word) :
    settle s (.error (.raised sub info)) = .next (raise sub info s) := rfl
@[simp] theorem settle_fault (s : State) (r : Fault) : settle s (.error (.fault r)) = .fault r := rfl
@[simp] theorem settle_refuse (s : State) (r : Refusal) : settle s (.error (.refuse r)) = .refused r := rfl

/-- A next state of a unit operation is its result, or error entry in the state it started in. -/
theorem settle_next {s t : State} {x : Run State} (h : settle s x = .next t) :
    x = .ok t ∨ ∃ sub info, x = .error (.raised sub info) ∧ t = raise sub info s := by
  match x, h with
  | .ok u, h => exact .inl (by simpa using h)
  | .error (.raised sub info), h => exact .inr ⟨sub, info, rfl, by simpa using h.symm⟩

@[simp] theorem thenBusy_fault (r : Fault) (k : State → Result) : thenBusy (.fault r) k = .fault r := rfl
@[simp] theorem thenBusy_refused (r : Refusal) (k : State → Result) : thenBusy (.refused r) k = .refused r := rfl

theorem thenBusy_busy {s : State} (h : s.status.state = .busy) (k : State → Result) :
    thenBusy (.next s) k = k s := by
  simp [thenBusy, h]

theorem thenBusy_ended {s : State} (h : s.status.state ≠ .busy) (k : State → Result) :
    thenBusy (.next s) k = .next s := by
  simp [thenBusy, h]

/-- An operation that raised an error ends the command (R231). -/
@[simp] theorem thenBusy_raise (sub : ErrSub) (info : Word) (s : State) (k : State → Result) :
    thenBusy (.next (raise sub info s)) k = .next (raise sub info s) :=
  thenBusy_ended (by simp) k

/-- A next state after two operations: the first answered it and ended the command, or the second did. -/
theorem thenBusy_next {o : Result} {k : State → Result} {t : State} (h : thenBusy o k = .next t) :
    (o = .next t ∧ t.status.state ≠ .busy) ∨ ∃ s, o = .next s ∧ s.status.state = .busy ∧ k s = .next t := by
  match o, h with
  | .next s, h =>
    by_cases hb : s.status.state = .busy
    · exact .inr ⟨s, rfl, hb, by simpa [thenBusy, hb] using h⟩
    · have e : s = t := by simpa [thenBusy, hb] using h
      exact .inl ⟨by rw [e], e ▸ hb⟩

theorem onInternals_ok {code : Byte} {s : State} {f : Internals → Run Internals} {m : Internals}
    (h : f s.int = .ok m) : onInternals code s f = .next { s with int := m, phase := code } := by
  simp [onInternals, h, bind, Except.bind, pure, Except.pure]

/-- A next state of an operation on the internal registers changes those and `PHASE` only, or is error entry. -/
theorem onInternals_next {code : Byte} {s t : State} {f : Internals → Run Internals}
    (h : onInternals code s f = .next t) :
    (∃ m, f s.int = .ok m ∧ t = { s with int := m, phase := code }) ∨
      ∃ sub info, f s.int = .error (.raised sub info) ∧ t = raise sub info s := by
  unfold onInternals at h
  match hf : f s.int with
  | .ok m =>
    rw [hf] at h
    exact .inl ⟨m, rfl, by simpa [bind, Except.bind, pure, Except.pure] using h.symm⟩
  | .error (.raised sub info) =>
    rw [hf] at h
    exact .inr ⟨sub, info, rfl, by simpa [bind, Except.bind] using h.symm⟩
  | .error (.fault r) =>
    rw [hf] at h
    simp [bind, Except.bind] at h
  | .error (.refuse r) =>
    rw [hf] at h
    simp [bind, Except.bind] at h

theorem withPrologue_inRange {s : State} (h : s.params.inCap < s.inLen) (body : State → Result) :
    withPrologue s body = .next (raise .inRange 0 (prologue s)) := by
  simp [withPrologue, h]

theorem withPrologue_body {s : State} (h : s.inLen ≤ s.params.inCap) (body : State → Result) :
    withPrologue s body = body (prologue s) := by
  have : ¬ s.params.inCap < s.inLen := BitVec.not_lt.mpr h
  simp [withPrologue, this]

@[simp] theorem advance_fault (i : Instr) (r : Fault) : advance i (.fault r) = .fault r := rfl
@[simp] theorem advance_refused (i : Instr) (r : Refusal) : advance i (.refused r) = .refused r := rfl

end Sys2Proof.Machine
end

