-- ==== Sys2Proof/Laws/Append.lean ====
section
/-! SUPPORT. A sequence of `OutAppend`s is one `OutAppend` of the joined bytes: HDR_WRITE's appends (R161, R227). -/

namespace Sys2Proof.Machine

/-- Two writes that adjoin are one. -/
theorem Memory.writeBytes_append (m : Memory) (a : Nat) (v w : List Byte) :
    m.writeBytes a (v ++ w) = (m.writeBytes a v).writeBytes (a + v.length) w := by
  induction v generalizing m a with
  | nil => simp [Memory.writeBytes]
  | cons b v ih =>
    simp only [List.cons_append, Memory.writeBytes, ih, List.length_cons]
    congr 1
    omega

/-- Appending nothing changes nothing. -/
theorem outAppend_nil (s : State) : outAppend s [] = .ok s := by
  rw [outAppend_ok (by simp)]
  simp [Memory.writeBytes]

/-- Two appends are the append of both, error included: an error leaves no trace of the first (R231). -/
theorem outAppend_append {s : State} (hs : s.outLen ≤ s.params.outCap) (v w : List Byte) :
    (outAppend s v).bind (fun t => outAppend t w) = outAppend s (v ++ w) := by
  rcases outAppend_cases s v with ⟨hv, e⟩ | ⟨hv, e⟩
  · obtain ⟨hl, hc⟩ := outLen_append hs hv
    rw [e]
    simp only [Except.bind]
    rcases Nat.lt_or_ge (s.params.outCap.toNat - s.outLen.toNat) (v ++ w).length with h | h
    · rw [outAppend_full h, outAppend_full]
      simp only [List.length_append] at h
      simp only [hl]
      omega
    · rw [outAppend_ok h, outAppend_ok]
      · simp only [hl, Memory.writeBytes_append, List.length_append, Nat.add_assoc]
      · simp only [List.length_append] at h
        simp only [hl]
        omega
  · rw [e, outAppend_full (by simp only [List.length_append]; omega)]
    rfl

/-- The appends of a list of fields are one append of the fields joined. -/
theorem foldlM_outAppend {s : State} (hs : s.outLen ≤ s.params.outCap) (fs : List (List Byte)) :
    fs.foldlM outAppend s = outAppend s fs.flatten := by
  induction fs generalizing s with
  | nil => simp [outAppend_nil, pure, Except.pure]
  | cons v fs ih =>
    rw [List.foldlM_cons, List.flatten_cons, ← outAppend_append hs]
    rcases outAppend_cases s v with ⟨hv, e⟩ | ⟨hv, e⟩
    · obtain ⟨hl, hc⟩ := outLen_append hs hv
      rw [e]
      exact ih (by simp only [BitVec.le_def, hl]; exact hc)
    · rw [e]
      rfl

/-- An append keeps `OUT_LEN` within OUT (R227). -/
theorem outAppend_fits {s t : State} {v : List Byte} (hs : s.outLen ≤ s.params.outCap)
    (h : outAppend s v = .ok t) : t.outLen ≤ t.params.outCap := by
  rcases outAppend_cases s v with ⟨hv, e⟩ | ⟨hv, e⟩
  · obtain ⟨hl, hc⟩ := outLen_append hs hv
    rw [e] at h
    cases h
    simp only [BitVec.le_def, hl]
    exact hc
  · rw [e] at h
    cases h

/-- What an append can change. -/
theorem outAppend_frame {s t : State} {v : List Byte} (h : outAppend s v = .ok t) :
    t = { s with outMem := t.outMem, outLen := t.outLen } := by
  rcases outAppend_cases s v with ⟨_, e⟩ | ⟨_, e⟩
  · rw [e] at h
    cases h
    rfl
  · rw [e] at h
    cases h

/-- The byte at an index of OUT after an append. -/
theorem outByte_outAppend {s t : State} {v : List Byte} (h : outAppend s v = .ok t) (a : Nat) :
    t.outByte a =
      if s.outLen.toNat ≤ a ∧ a < s.outLen.toNat + v.length then (v[a - s.outLen.toNat]?).getD 0
      else s.outByte a := by
  rcases outAppend_cases s v with ⟨_, e⟩ | ⟨_, e⟩
  · rw [e] at h
    cases h
    simp only [State.outByte, Memory.read_writeBytes]
    split
    · rename_i hr
      have hb : a - s.outLen.toNat < v.length := by omega
      simp [List.getElem?_eq_getElem hb]
    · rfl
  · rw [e] at h
    cases h

end Sys2Proof.Machine
end

