-- ==== Sys2Proof/Laws/Tables.lean ====
section
/-! SUPPORT. Laws of the tables by byte value: read after write, and what their lists of entries hold. -/

namespace Sys2Proof.Machine

variable {α : Type}

/-- Read after write in a table. -/
theorem byteGet_byteSet (t : ByteTable α) (b c : Byte) (x : α) :
    byteGet (byteSet t b x) c = if c = b then x else byteGet t c := by
  simp only [byteGet, byteSet, Vector.getElem_set]
  by_cases h : c = b
  · simp [h]
  · have h' : ¬ b.toNat = c.toNat := fun e => h (BitVec.eq_of_toNat_eq e.symm)
    simp [h, h']

@[simp] theorem byteGet_byteSet_self (t : ByteTable α) (b : Byte) (x : α) : byteGet (byteSet t b x) b = x := by
  simp [byteGet_byteSet]

@[simp] theorem byteGet_replicate (b : Byte) (x : α) : byteGet (Vector.replicate 256 x) b = x := by
  simp [byteGet]

@[simp] theorem byteGet_emptyTable (b : Byte) : byteGet emptyTable b = none := by
  simp [emptyTable]

/-- Two tables with the same entries are equal. -/
theorem byteTable_ext {t u : ByteTable α} (h : ∀ b : Byte, byteGet t b = byteGet u b) : t = u := by
  refine Vector.ext fun i hi => ?_
  have := h (BitVec.ofNat 8 i)
  simpa [byteGet, Nat.mod_eq_of_lt hi] using this

@[simp] theorem length_allBytes : allBytes.length = 256 := by
  simp [allBytes]

theorem getElem_allBytes (i : Nat) (h : i < allBytes.length) : allBytes[i] = BitVec.ofNat 8 i := by
  simp [allBytes]

/-- Every byte value stands in the ascending list. -/
theorem mem_allBytes (b : Byte) : b ∈ allBytes := by
  refine List.mem_map.mpr ⟨b.toNat, List.mem_range.mpr b.isLt, ?_⟩
  simp

/-- The list of byte values is strictly ascending. -/
theorem pairwise_allBytes : allBytes.Pairwise (fun a b => a < b) := by
  refine List.pairwise_map.mpr (List.Pairwise.imp_of_mem ?_ List.pairwise_lt_range)
  intro a b ha hb h
  have ha := List.mem_range.mp ha
  have hb := List.mem_range.mp hb
  simp [BitVec.lt_def, Nat.mod_eq_of_lt ha, Nat.mod_eq_of_lt hb, h]

/-- No byte value stands in the list twice. -/
theorem nodup_allBytes : allBytes.Nodup :=
  List.Pairwise.imp (fun h e => by subst e; exact (BitVec.lt_irrefl _ h)) pairwise_allBytes

@[simp] theorem length_tablePairs (t : ByteTable α) : (tablePairs t).length = 256 := by
  simp [tablePairs]

/-- The pairs of a table are each byte value with its entry, ascending. -/
theorem tablePairs_eq (t : ByteTable α) : tablePairs t = allBytes.map (fun b => (b, byteGet t b)) := by
  refine List.ext_getElem (by simp) fun i h1 h2 => ?_
  have hi : i < 256 := by simpa using h1
  simp [tablePairs, getElem_allBytes, byteGet, Nat.mod_eq_of_lt hi]

/-- A code table's list of entries holds exactly its valid entries. -/
theorem mem_codeEntries {ct : ByteTable (Option Code)} {e : Byte × Code} :
    e ∈ codeEntries ct ↔ byteGet ct e.1 = some e.2 := by
  obtain ⟨b, c⟩ := e
  simp only [codeEntries, tablePairs_eq, List.mem_filterMap, List.mem_map, Option.map_eq_some_iff]
  constructor
  · rintro ⟨_, ⟨b', _, rfl⟩, c', h, he⟩
    cases he
    exact h
  · intro h
    exact ⟨_, ⟨b, mem_allBytes b, rfl⟩, c, h, rfl⟩

/-- A code table's list of entries is that of the byte values with a code, ascending. -/
theorem codeEntries_eq (ct : ByteTable (Option Code)) :
    codeEntries ct = allBytes.filterMap (fun b => (byteGet ct b).map (fun c => (b, c))) := by
  simp only [codeEntries, tablePairs_eq, List.filterMap_map]
  rfl

/-- The entries stand in strictly ascending order of the byte value. -/
theorem pairwise_codeEntries (ct : ByteTable (Option Code)) :
    (codeEntries ct).Pairwise (fun a b => a.1 < b.1) := by
  rw [codeEntries_eq]
  refine List.Pairwise.filterMap _ ?_ pairwise_allBytes
  intro a b h x hx y hy
  simp only [Option.map_eq_some_iff] at hx hy
  obtain ⟨_, _, rfl⟩ := hx
  obtain ⟨_, _, rfl⟩ := hy
  exact h

/-- The occurring byte values of the counters, ascending, with their counts (R30). -/
theorem occurring_eq (f : ByteTable Word) :
    occurring f = (allBytes.filter (fun b => byteGet f b != 0)).map (fun b => (b, byteGet f b)) := by
  simp only [occurring, tablePairs_eq, List.filter_map]
  rfl

theorem mem_occurring {f : ByteTable Word} {e : Byte × Word} :
    e ∈ occurring f ↔ e.2 = byteGet f e.1 ∧ e.2 ≠ 0 := by
  obtain ⟨b, w⟩ := e
  simp only [occurring_eq, List.mem_map, List.mem_filter, Prod.mk.injEq]
  constructor
  · rintro ⟨b', ⟨_, h⟩, rfl, rfl⟩
    exact ⟨rfl, by simpa using h⟩
  · rintro ⟨rfl, h⟩
    exact ⟨b, ⟨mem_allBytes b, by simpa using h⟩, rfl, rfl⟩

/-- There are at most 256 occurring byte values. -/
theorem length_occurring_le (f : ByteTable Word) : (occurring f).length ≤ 256 := by
  have := List.length_filter_le (fun e : Byte × Word => e.2 != 0) (tablePairs f)
  simpa [occurring] using this

end Sys2Proof.Machine
end

