-- ==== Sys2Proof/Laws/Codes.lean ====
section
/-! SUPPORT. The properties of a code table said through its list of entries, where they can be decided. -/

namespace Sys2Proof
open Machine

/-- A table is prefix-free if no code of its list of entries begins another entry's. -/
theorem prefixFree_of_entries {ct : ByteTable (Option Code)}
    (h : ∀ e ∈ codeEntries ct, ∀ f ∈ codeEntries ct, e.1 ≠ f.1 → e.2.isPrefixOf f.2 = false) : PrefixFree ct := by
  intro b c p q hbc hp hq hpq
  have := h (b, p) (mem_codeEntries.mpr hp) (c, q) (mem_codeEntries.mpr hq) hbc
  rw [List.isPrefixOf_iff_prefix.mpr hpq] at this
  cases this

/-- A table's codes have legal lengths if those of its list of entries have. -/
theorem legalLengths_of_entries {ct : ByteTable (Option Code)}
    (h : ∀ e ∈ codeEntries ct, 1 ≤ e.2.length ∧ e.2.length ≤ 255) : LegalLengths ct :=
  fun b p hp => h (b, p) (mem_codeEntries.mpr hp)

/-- `RMAP` is the inverse of a table if the pairs agree both ways, entry by entry. -/
theorem inverts_of_entries {rmap : List (Code × Byte)} {ct : ByteTable (Option Code)}
    (h1 : ∀ r ∈ rmap, byteGet ct r.2 = some r.1)
    (h2 : ∀ e ∈ codeEntries ct, rmap.lookup e.2 = some e.1) : Inverts rmap ct := by
  intro c b
  constructor
  · intro h
    obtain ⟨l, r, rfl, _⟩ := List.lookup_eq_some_iff.mp h
    exact h1 (c, b) (by simp)
  · intro h
    exact h2 (b, c) (mem_codeEntries.mpr h)

/-- A table that is the update of another has the new entry and the old ones (R165, R166). -/
theorem byteGet_tableOf_append (es : List (Byte × Code)) (e : Byte × Code) (b : Byte) :
    byteGet (tableOf (es ++ [e])) b = if b = e.1 then some e.2 else byteGet (tableOf es) b := by
  simp [tableOf, List.foldl_append, byteGet_byteSet]

/-- Two code sequences joined are the sequence of the bytes joined (R151). -/
theorem codeBits_append (ct : ByteTable (Option Code)) (xs ys : List Byte) :
    codeBits ct (xs ++ ys) = codeBits ct xs ++ codeBits ct ys := by
  simp [codeBits]

@[simp] theorem length_inputBits (s : State) (start n : Nat) : (inputBits s start n).length = n := by
  simp [inputBits]

/-- The padding count is at most 7 and fills the last byte (R154). -/
theorem padCount_spec (T : Nat) : padCount T ≤ 7 ∧ T + padCount T = 8 * ((T + 7) / 8) := by
  unfold padCount
  omega

end Sys2Proof
end

