-- ==== Sys2Proof/Laws/Heap.lean ====
section
/-! SUPPORT. Laws of the heap primitives: their loops only rearrange the heap, so a heap operation changes the set it
holds exactly as its rule says (R123, R124), and never raises an error. -/

namespace Sys2Proof.Machine

/-- A swap of two slots is a rearrangement. -/
theorem swapSlots_perm (h : List NodeIdx) (i j : Nat) : (swapSlots h i j).Perm h := by
  unfold swapSlots
  split
  · rename_i a b ha hb
    obtain ⟨hi, rfl⟩ := List.getElem?_eq_some_iff.mp ha
    obtain ⟨hj, rfl⟩ := List.getElem?_eq_some_iff.mp hb
    exact List.set_set_perm hi hj
  · exact List.Perm.refl _

@[simp] theorem length_swapSlots (h : List NodeIdx) (i j : Nat) : (swapSlots h i j).length = h.length :=
  (swapSlots_perm h i j).length_eq

/-- An allocated node reads as its entry. -/
theorem nodeAt_of_getElem? {m : Internals} {n : NodeIdx} {x : Node} (h : m.node[n.toNat]? = some x) :
    nodeAt m n = x := by
  simp [nodeAt, h]

@[simp] theorem pushNode_node (m : Internals) (x : Node) : (pushNode m x).node = m.node ++ [x] := rfl
@[simp] theorem pushNode_nodeRest (m : Internals) (x : Node) : (pushNode m x).nodeRest = m.nodeRest.drop 1 := rfl
@[simp] theorem pushNode_heap (m : Internals) (x : Node) : (pushNode m x).heap = m.heap := rfl
@[simp] theorem pushNode_freq (m : Internals) (x : Node) : (pushNode m x).freq = m.freq := rfl
@[simp] theorem pushNode_opA (m : Internals) (x : Node) : (pushNode m x).opA = m.opA := rfl
@[simp] theorem pushNode_opB (m : Internals) (x : Node) : (pushNode m x).opB = m.opB := rfl
@[simp] theorem pushNode_res (m : Internals) (x : Node) : (pushNode m x).res = m.res := rfl

/-- An entry of the heap below its size. -/
theorem heapAt_of_lt {h : List NodeIdx} {i : Nat} (hi : i < h.length) : heapAt h i = h[i] := by
  simp [heapAt, List.getElem?_eq_getElem hi]

/-- The loop of PQ_INSERT only rearranges the heap. -/
theorem siftUp_perm (m : Internals) (f i : Nat) (h : List NodeIdx) : (siftUp m f i h).Perm h := by
  induction f generalizing i h with
  | zero => exact List.Perm.refl _
  | succ f ih =>
    unfold siftUp
    dsimp only
    split
    · exact List.Perm.refl _
    · split
      · exact (ih _ _).trans (swapSlots_perm _ _ _)
      · exact List.Perm.refl _

/-- The loop of PQ_EXTRACT_MIN only rearranges the heap. -/
theorem siftDown_perm (m : Internals) (f i : Nat) (h : List NodeIdx) : (siftDown m f i h).Perm h := by
  induction f generalizing i h with
  | zero => exact List.Perm.refl _
  | succ f ih =>
    unfold siftDown
    dsimp only
    split
    · exact List.Perm.refl _
    · exact (ih _ _).trans (swapSlots_perm _ _ _)

/-- A list is its last element and the rest, in some order. -/
theorem perm_getLast_dropLast {l : List NodeIdx} {x : NodeIdx} (h : l.getLast? = some x) :
    (x :: l.dropLast).Perm l := by
  obtain ⟨ys, rfl⟩ := List.getLast?_eq_some_iff.mp h
  simpa using (List.perm_append_singleton x ys).symm

/-- PQ_INSERT adds its operand to the heap's set and changes nothing else (R123). -/
theorem pqInsert_ok {m k : Internals} (e : pqInsert m = .ok k) :
    k.heap.Perm (m.opA :: m.heap) ∧ k = { m with heap := k.heap } := by
  unfold pqInsert at e
  split at e
  · cases e
  · split at e
    · cases e
    · cases e
      exact ⟨(siftUp_perm _ _ _ _).trans (List.perm_append_singleton _ _), rfl⟩

/-- PQ_INSERT runs on every node that is not in a heap with room (R123). -/
theorem pqInsert_run {m : Internals} (h1 : m.heap.length < 256) (h2 : m.opA ∉ m.heap) :
    pqInsert m = .ok { m with heap := siftUp m m.heap.length m.heap.length (m.heap ++ [m.opA]) } := by
  unfold pqInsert
  rw [if_neg (show ¬ Config.heapCap ≤ m.heap.length from Nat.not_le.mpr h1), if_neg h2]
  rfl

/-- PQ_EXTRACT_MIN takes the node it returns out of the heap's set and changes nothing else (R124). -/
theorem pqExtractMin_ok {m k : Internals} (e : pqExtractMin m = .ok k) :
    m.heap.Perm (k.res :: k.heap) ∧ m.heap.head? = some k.res ∧ k = { m with heap := k.heap, res := k.res } := by
  unfold pqExtractMin at e
  split at e
  · cases e
  · rename_i r rest hm
    split at e
    · rename_i hl
      cases e
      have : rest = [] := by simpa using hl
      subst this
      simp [hm]
    · rename_i last hl
      cases e
      refine ⟨?_, by simp [hm], rfl⟩
      rw [hm]
      exact ((siftDown_perm _ _ _ _).trans (perm_getLast_dropLast hl)).symm.cons r

/-- PQ_EXTRACT_MIN runs on every heap that is not empty (R124). -/
theorem pqExtractMin_run {m : Internals} (h : m.heap ≠ []) : ∃ k, pqExtractMin m = .ok k := by
  unfold pqExtractMin
  split
  · exact absurd ‹_› h
  · split <;> exact ⟨_, rfl⟩

/-- MERGE adds one node to the arena and changes nothing else (R125). -/
theorem merge_ok {m k : Internals} (e : merge m = .ok k) :
    m.node.length < 511 ∧
    k = { pushNode m (.inner ((nodeAt m m.opA).freq + (nodeAt m m.opB).freq) m.opA m.opB) with
      res := BitVec.ofNat 9 m.node.length } := by
  unfold merge at e
  split at e
  · cases e
  · rename_i h
    cases e
    exact ⟨Nat.not_le.mp h, rfl⟩

/-- One turn of BUILD takes one node off the heap. -/
theorem buildRound_length {m k : Internals} (e : buildRound m = .ok k) : k.heap.length + 1 = m.heap.length := by
  unfold buildRound at e
  simp only [bind, Except.bind] at e
  split at e
  · cases e
  · rename_i m1 h1
    split at e
    · cases e
    · rename_i m2 h2
      split at e
      · cases e
      · rename_i m3 h3
        have p1 := (pqExtractMin_ok h1).1.length_eq
        have p2 := (pqExtractMin_ok h2).1.length_eq
        obtain ⟨_, h3⟩ := merge_ok h3
        have p3 := (pqInsert_ok e).1.length_eq
        subst h3
        simp only [List.length_cons, pushNode_heap] at p1 p2 p3
        omega

end Sys2Proof.Machine
end

