-- ==== Sys2Proof/Laws/PerInstr.lean ====
section
/-! SUPPORT. Per-instruction families: `Coding`, that an operation is well-formed in its own format, that its code decodes
to it there, and that its code is none of the other format. -/

namespace Sys2Proof.Laws.Coding

/-- What the family says of one operation (R80 to R82). -/
def Statement (i : Instr) : Prop :=
  Issue.wellFormed { format := i.format, instr := i } = true ∧
  decode i.format (encode i) = .ok i ∧
  decodeTableWord 8 (encode i).toNat = some i

theorem compress : Statement .compress := ⟨rfl, rfl, rfl⟩
theorem decompress : Statement .decompress := ⟨rfl, rfl, rfl⟩
theorem freq : Statement .freq := ⟨rfl, rfl, rfl⟩
theorem build : Statement .build := ⟨rfl, rfl, rfl⟩
theorem pqInit : Statement .pqInit := ⟨rfl, rfl, rfl⟩
theorem pqInsert : Statement .pqInsert := ⟨rfl, rfl, rfl⟩
theorem pqExtractMin : Statement .pqExtractMin := ⟨rfl, rfl, rfl⟩
theorem merge : Statement .merge := ⟨rfl, rfl, rfl⟩
theorem gencodes : Statement .gencodes := ⟨rfl, rfl, rfl⟩
theorem pack : Statement .pack := ⟨rfl, rfl, rfl⟩
theorem hdrWrite : Statement .hdrWrite := ⟨rfl, rfl, rfl⟩
theorem payloadWrite : Statement .payloadWrite := ⟨rfl, rfl, rfl⟩
theorem hdrRead : Statement .hdrRead := ⟨rfl, rfl, rfl⟩
theorem rmapBuild : Statement .rmapBuild := ⟨rfl, rfl, rfl⟩
theorem unpack : Statement .unpack := ⟨rfl, rfl, rfl⟩
theorem unpackBit : Statement .unpackBit := ⟨rfl, rfl, rfl⟩

end Sys2Proof.Laws.Coding
end

