-- ==== Sys2Proof/Laws/Units.lean ====
section
/-! SUPPORT. What each unit operation can answer, said once: its next state is the old one but for the registers its rule
writes, or error entry. No later proof unfolds a meaning to learn its frame. -/

namespace Sys2Proof.Machine

/-- A bind that gives a result ran both parts. -/
theorem bind_ok {α β : Type} {x : Run α} {f : α → Run β} {b : β} (h : x.bind f = .ok b) :
    ∃ a, x = .ok a ∧ f a = .ok b := by
  cases x with
  | ok a => exact ⟨a, rfl, h⟩
  | error e => cases h

/-- FREQ: the counters and the cursor (R112); it raises nothing. -/
theorem execFreq_next {s t : State} (h : execFreq s = .next t) :
    s.inLen ≤ s.params.inCap ∧
    t = { s with
      phase := 0x10#8
      int := { s.int with freq := frequencies (memRead s 0 s.inLen.toNat), icur := s.inLen } } := by
  unfold execFreq checkInput at h
  by_cases hc : s.params.inCap < s.inLen
  · simp [hc, bind, Except.bind, throw, throwThe, MonadExceptOf.throw] at h
  · refine ⟨BitVec.not_lt.mp hc, ?_⟩
    simpa [hc, bind, Except.bind, pure, Except.pure] using h.symm

/-- A tree operation changes the internal registers and `PHASE` only, or is error entry. -/
theorem execBuild_next {s t : State} (h : execBuild s = .next t) :
    (∃ m, build s.int = .ok m ∧ t = { s with int := m, phase := 0x20#8 }) ∨
      ∃ sub info, build s.int = .error (.raised sub info) ∧ t = raise sub info s := onInternals_next h

theorem execPqInit_next {s t : State} (h : execPqInit s = .next t) :
    (∃ m, pqInit s.int = .ok m ∧ t = { s with int := m, phase := 0x21#8 }) ∨
      ∃ sub info, pqInit s.int = .error (.raised sub info) ∧ t = raise sub info s := onInternals_next h

theorem execPqInsert_next {s t : State} (h : execPqInsert s = .next t) :
    (∃ m, pqInsert s.int = .ok m ∧ t = { s with int := m, phase := 0x22#8 }) ∨
      ∃ sub info, pqInsert s.int = .error (.raised sub info) ∧ t = raise sub info s := onInternals_next h

theorem execPqExtractMin_next {s t : State} (h : execPqExtractMin s = .next t) :
    (∃ m, pqExtractMin s.int = .ok m ∧ t = { s with int := m, phase := 0x23#8 }) ∨
      ∃ sub info, pqExtractMin s.int = .error (.raised sub info) ∧ t = raise sub info s := onInternals_next h

theorem execMerge_next {s t : State} (h : execMerge s = .next t) :
    (∃ m, merge s.int = .ok m ∧ t = { s with int := m, phase := 0x24#8 }) ∨
      ∃ sub info, merge s.int = .error (.raised sub info) ∧ t = raise sub info s := onInternals_next h

/-- GENCODES: the table, the entry count, the stack, `PHASE` (R143). -/
theorem execGencodes_next {s t : State} (h : execGencodes s = .next t) :
    (∃ ct cnt, codeTable s.int = .ok (ct, cnt) ∧
      t = { s with phase := 0x30#8, entryCnt := cnt, int := { s.int with ct := ct, stk := [] } }) ∨
      ∃ sub info, t = raise sub info s := by
  rcases settle_next h with h | ⟨sub, info, _, rfl⟩
  · obtain ⟨⟨ct, cnt⟩, h1, h2⟩ := bind_ok h
    cases h2
    exact .inl ⟨ct, cnt, h1, rfl⟩
  · exact .inr ⟨sub, info, rfl⟩

/-- One bit into the packer changes the packer's registers only. -/
theorem packBit_frame (m : Internals) (x : Bool) :
    packBit m x = { m with
      pay := (packBit m x).pay, bitbuf := (packBit m x).bitbuf
      bitfill := (packBit m x).bitfill, bitcnt := (packBit m x).bitcnt } := by
  unfold packBit
  dsimp only
  split <;> rfl

theorem packBits_frame (c : Code) (m : Internals) :
    c.foldl packBit m = { m with
      pay := (c.foldl packBit m).pay, bitbuf := (c.foldl packBit m).bitbuf
      bitfill := (c.foldl packBit m).bitfill, bitcnt := (c.foldl packBit m).bitcnt } := by
  induction c generalizing m with
  | nil => rfl
  | cons x c ih =>
    rw [List.foldl_cons, ih, packBit_frame]

/-- The loop of PACK changes the packer's registers and the cursor only. -/
theorem packBytes_frame {m k : Internals} {bs : List Byte} (h : packBytes m bs = .ok k) :
    k = { m with
      pay := k.pay, bitbuf := k.bitbuf, bitfill := k.bitfill, bitcnt := k.bitcnt, icur := k.icur } := by
  induction bs generalizing m with
  | nil =>
    cases h
    rfl
  | cons b bs ih =>
    unfold packBytes at h
    split at h
    · cases h
    · rename_i c _
      have := ih h
      rw [packBits_frame] at this
      exact this

/-- PACK: the packer's registers, the cursor, `PAD`, `PHASE` (R152), or error entry. -/
theorem execPack_next {s t : State} (h : execPack s = .next t) :
    t = { s with
      phase := 0x40#8
      pad := t.pad
      int := { s.int with
        pay := t.int.pay, bitbuf := t.int.bitbuf, bitfill := t.int.bitfill, bitcnt := t.int.bitcnt
        icur := t.int.icur } } ∨
      ∃ sub info, t = raise sub info s := by
  rcases settle_next h with h | ⟨sub, info, _, rfl⟩
  · refine .inl ?_
    obtain ⟨_, _, h⟩ := bind_ok h
    obtain ⟨m, hm, h⟩ := bind_ok h
    have hf := packBytes_frame hm
    split at h
    · cases h
      rw [hf]
    · cases h
      rw [hf]
  · exact .inr ⟨sub, info, rfl⟩

/-- HDR_WRITE is one append of its fields joined, then `HDR_LEN <- OUT_LEN` (R161). -/
theorem execHdrWrite_eq {s : State} (hs : s.outLen ≤ s.params.outCap) :
    execHdrWrite s = settle s ((outAppend { s with phase := 0x50#8 }
      (headerFields s.pad s.entryCnt s.int.ct).flatten).map (fun t => { t with hdrLen := t.outLen })) := by
  unfold execHdrWrite
  rw [foldlM_outAppend (s := { s with phase := 0x50#8 }) hs]
  rfl

/-- PAYLOAD_WRITE is one append (R162). -/
theorem execPayloadWrite_next {s t : State} (h : execPayloadWrite s = .next t) :
    outAppend { s with phase := 0x51#8 } s.int.pay = .ok t ∨ ∃ sub info, t = raise sub info s := by
  rcases settle_next h with h | ⟨sub, info, _, rfl⟩
  · exact .inl h
  · exact .inr ⟨sub, info, rfl⟩

/-- HDR_READ: `PAD`, `ENTRY_CNT`, `HDR_LEN`, the table, the cursor, `PHASE` (R163), or error entry. -/
theorem execHdrRead_next {s t : State} (h : execHdrRead s = .next t) :
    t = { s with
      phase := 0x60#8
      pad := t.pad, entryCnt := t.entryCnt, hdrLen := t.hdrLen
      int := { s.int with ct := t.int.ct, hcur := t.int.hcur } } ∨
      ∃ sub info, t = raise sub info s := by
  rcases settle_next h with h | ⟨sub, info, _, rfl⟩
  · refine .inl ?_
    obtain ⟨_, _, h⟩ := bind_ok h
    obtain ⟨p, _, h⟩ := bind_ok h
    split at h
    · cases h
    obtain ⟨c, _, h⟩ := bind_ok h
    split at h
    · cases h
    obtain ⟨⟨hc, ct⟩, _, h⟩ := bind_ok h
    cases h
    rfl
  · exact .inr ⟨sub, info, rfl⟩

/-- RMAP_BUILD: `RMAP` and `PHASE` (R181), or error entry. -/
theorem execRmapBuild_next {s t : State} (h : execRmapBuild s = .next t) :
    t = { s with phase := 0x70#8, int := { s.int with rmap := t.int.rmap } } ∨
      ∃ sub info, t = raise sub info s := by
  rcases onInternals_next h with ⟨m, hm, rfl⟩ | ⟨sub, info, _, rfl⟩
  · obtain ⟨r, _, h⟩ := bind_ok hm
    cases h
    exact .inl rfl
  · exact .inr ⟨sub, info, rfl⟩

/-- One transition of the decoder: OUT, `OUT_LEN`, the accumulator, the cursor, `PHASE` (R183). -/
theorem decodeBit_ok {s t : State} (h : decodeBit s = .ok t) :
    t = { s with
      phase := 0x72#8, outMem := t.outMem, outLen := t.outLen
      int := { s.int with acc := t.int.acc, bitcur := s.int.bitcur + 1 } } := by
  unfold decodeBit at h
  dsimp only at h
  split at h
  · have := outAppend_frame h
    rw [this]
  · split at h
    · cases h
    · cases h
      rfl

/-- UNPACK_BIT is one transition, or error entry. -/
theorem execUnpackBit_next {s t : State} (h : execUnpackBit s = .next t) :
    decodeBit s = .ok t ∨ ∃ sub info, t = raise sub info s := by
  rcases settle_next h with h | ⟨sub, info, _, rfl⟩
  · refine .inl ?_
    by_cases h1 : s.int.trueBits ≤ s.int.bitcur
    · simp [h1, bind, Except.bind, throw, throwThe, MonadExceptOf.throw] at h
    by_cases h2 : Config.maxCodeLen ≤ s.int.acc.length
    · simp [h1, h2, bind, Except.bind, throw, throwThe, MonadExceptOf.throw] at h
    simp only [if_neg h1, if_neg h2] at h
    obtain ⟨_, _, h⟩ := bind_ok h
    split at h
    · cases h
    exact h
  · exact .inr ⟨sub, info, rfl⟩

/-- The scan changes OUT, `OUT_LEN`, the accumulator, the cursor and `PHASE` only. -/
theorem scan_ok {n : Nat} {s t : State} (h : scan n s = .ok t) :
    t = { s with
      phase := t.phase, outMem := t.outMem, outLen := t.outLen
      int := { s.int with acc := t.int.acc, bitcur := t.int.bitcur } } := by
  induction n generalizing s with
  | zero =>
    cases h
    rfl
  | succ n ih =>
    obtain ⟨u, hu, h⟩ := bind_ok h
    have h2 := ih h
    rw [decodeBit_ok hu] at h2
    exact h2

/-- UNPACK: OUT, `OUT_LEN`, the scan registers, `PHASE` (R182), or error entry. -/
theorem execUnpack_next {s t : State} (h : execUnpack s = .next t) :
    t = { s with
      phase := 0x71#8, outMem := t.outMem, outLen := t.outLen
      int := { s.int with trueBits := t.int.trueBits, acc := t.int.acc, bitcur := t.int.bitcur } } ∨
      ∃ sub info, t = raise sub info s := by
  rcases settle_next h with h | ⟨sub, info, _, rfl⟩
  · refine .inl ?_
    obtain ⟨_, _, h⟩ := bind_ok h
    split at h
    · cases h
    dsimp only at h
    split at h
    · cases h
    obtain ⟨u, hu, h⟩ := bind_ok h
    split at h
    · cases h
      have := scan_ok hu
      rw [this]
    · cases h
  · exact .inr ⟨sub, info, rfl⟩

end Sys2Proof.Machine
end

