-- ==== Sys2Proof/Tests/Slice0.lean ====
section
/-! SUPPORT. Tests of the model: ill-formed terms, words of the encoding tables, vectors of 95_test_vectors.md (the names
F1, T1, G1 ... are its), and, for every statement with hypotheses, a state and operands that meet them all. -/

namespace Sys2Proof.Tests
open Machine

set_option Elab.async false

/-! ## Helpers -/

/-- The machine after reset with the given capacities, the given bytes in IN and their number in `IN_LEN`. -/
def holding (inCap outCap : Word) (bs : List Byte) : State :=
  { State.resetWith { inCap := inCap, outCap := outCap } with
    inMem := Memory.writeBytes [] 0 bs
    inLen := BitVec.ofNat 32 bs.length }

/-- The machine after reset with the given capacities and pending host actions. -/
def asked (inCap outCap : Word) (q : List HostAction) : State :=
  { State.resetWith { inCap := inCap, outCap := outCap } with hostQueue := q }

/-- A command is running, and `PHASE` holds a value. -/
def running (s : State) (p : Byte) : State :=
  { s with status := { s.status with state := .busy }, phase := p }

/-- "aaabbc". -/
def aaabbc : List Byte := [0x61#8, 0x61#8, 0x61#8, 0x62#8, 0x62#8, 0x63#8]

/-- "abracadabra". -/
def abracadabra : List Byte :=
  [0x61#8, 0x62#8, 0x72#8, 0x61#8, 0x63#8, 0x61#8, 0x64#8, 0x61#8, 0x62#8, 0x72#8, 0x61#8]

/-- The header of P1 (vector W1). -/
def header1 : List Byte :=
  [0x07#8, 0x00#8, 0x00#8, 0x00#8, 0x03#8, 0x00#8, 0x00#8, 0x00#8] ++
  [0x61#8, 0x01#8, 0x00#8, 0x00#8, 0x00#8, 0x30#8] ++
  [0x62#8, 0x02#8, 0x00#8, 0x00#8, 0x00#8, 0x31#8, 0x31#8] ++
  [0x63#8, 0x02#8, 0x00#8, 0x00#8, 0x00#8, 0x31#8, 0x30#8]

/-- The stream of P1. -/
def good : List Byte := header1 ++ [0x1f#8, 0x00#8]

/-- The stream of "ab" (program P4). -/
def streamAb : List Byte :=
  [0x06#8, 0x00#8, 0x00#8, 0x00#8, 0x02#8, 0x00#8, 0x00#8, 0x00#8] ++
  [0x61#8, 0x01#8, 0x00#8, 0x00#8, 0x00#8, 0x30#8, 0x62#8, 0x01#8, 0x00#8, 0x00#8, 0x00#8, 0x31#8, 0x40#8]

/-- The entries of the code table of vector G1. -/
def entriesG1 : List (Byte × Code) := [(0x61#8, [false]), (0x62#8, [true, true]), (0x63#8, [true, false])]

/-- The code table of vector G1. -/
def tableG1 : ByteTable (Option Code) := tableOf entriesG1

/-- The reverse mapping of vector M3. -/
def rmapG1 : List (Code × Byte) := [([false], 0x61#8), ([true, true], 0x62#8), ([true, false], 0x63#8)]

/-- The leaves of trace T1, with the given heap and first operand. -/
def leavesT1 (heap : List NodeIdx) (a : NodeIdx) : Internals :=
  { Internals.reset with
    node := [.leaf 3 0x61#8, .leaf 2 0x62#8, .leaf 1 0x63#8], heap := heap, opA := a, opB := 1 }

/-- The tree of trace T1. -/
def treeT1 : Internals :=
  { Internals.reset with
    node := [.leaf 3 0x61#8, .leaf 2 0x62#8, .leaf 1 0x63#8, .inner 3 2 1, .inner 6 0 3], root := 4 }

/-- The tree of trace T6. -/
def treeT6 : Internals :=
  { Internals.reset with node := [.leaf 1 0x00#8, .leaf 2 0xff#8, .inner 3 0 1], root := 2 }

/-- The tree of trace T5. -/
def treeT5 : Internals :=
  { Internals.reset with node := [.leaf 100 0x41#8], root := 0, degenSig := true }

/-- A state after reset with the given internal registers. -/
def inside (m : Internals) : State := { State.reset with int := m }

/-- A state with the given input and internal registers. -/
def unit (bs : List Byte) (m : Internals) : State := { holding 64 64 bs with int := m }

/-- An answer that passes a check is a next state. -/
theorem next_of_nextSat {o : Result} {p : State → Bool} (h : nextSat o p = true) :
    ∃ t, o = .next t ∧ p t = true := by
  match o, h with
  | .next t, h => exact ⟨t, rfl, h⟩

/-! ## WellFormed: an operation in the other format is refused (R80, R82) -/

theorem test_wellformed_cmd_refuses_phase : Issue.wellFormed { format := .cmd, instr := .freq } = false := by decide

theorem test_wellformed_phase_refuses_cmd :
    Issue.wellFormed { format := .phase, instr := .compress } = false := by decide

/-! ## Decoding: words written out from the tables of R81 and R82 -/

theorem test_decode_compress : decode .cmd 0b00000001#8 = .ok .compress := by decide
theorem test_decode_decompress : decode .cmd 0b00000010#8 = .ok .decompress := by decide
theorem test_decode_freq : decode .phase 0b00010000#8 = .ok .freq := by decide
theorem test_decode_build : decode .phase 0b00100000#8 = .ok .build := by decide
theorem test_decode_pqInit : decode .phase 0b00100001#8 = .ok .pqInit := by decide
theorem test_decode_pqInsert : decode .phase 0b00100010#8 = .ok .pqInsert := by decide
theorem test_decode_pqExtractMin : decode .phase 0b00100011#8 = .ok .pqExtractMin := by decide
theorem test_decode_merge : decode .phase 0b00100100#8 = .ok .merge := by decide
theorem test_decode_gencodes : decode .phase 0b00110000#8 = .ok .gencodes := by decide
theorem test_decode_pack : decode .phase 0b01000000#8 = .ok .pack := by decide
theorem test_decode_hdrWrite : decode .phase 0b01010000#8 = .ok .hdrWrite := by decide
theorem test_decode_payloadWrite : decode .phase 0b01010001#8 = .ok .payloadWrite := by decide
theorem test_decode_hdrRead : decode .phase 0b01100000#8 = .ok .hdrRead := by decide
theorem test_decode_rmapBuild : decode .phase 0b01110000#8 = .ok .rmapBuild := by decide
theorem test_decode_unpack : decode .phase 0b01110001#8 = .ok .unpack := by decide
theorem test_decode_unpackBit : decode .phase 0b01110010#8 = .ok .unpackBit := by decide
theorem test_decode_bad_opcode : decode .cmd 0x10#8 = .error (.badOpcode 0x10#8) := by decide
theorem test_decode_idle : decode .phase 0x00#8 = .error (.notAPhase 0x00#8) := by decide

/-! ## Units -/

/-- F4. -/
theorem test_freq : nextSat (exec .freq (holding 64 64 [0xff#8, 0x00#8, 0xff#8])) (fun t =>
    byteGet t.int.freq 0x00#8 == 1 && byteGet t.int.freq 0xff#8 == 2 && byteGet t.int.freq 0x41#8 == 0 &&
    t.int.icur == 3) = true := by decide +kernel

/-- T2, the heap after PQ_INIT. -/
theorem test_pqInit : nextSat (exec .pqInit (inside { Internals.reset with freq := frequencies abracadabra }))
    (fun t => t.int.heap == [2, 3, 1, 0, 4] && t.int.node[4]? == some (.leaf 2 0x72#8)) = true := by
  decide +kernel

/-- Single primitive: `HEAP = [1, 0]`, `PQ_INSERT(2)`. -/
theorem test_pqInsert : nextSat (exec .pqInsert (inside (leavesT1 [1, 0] 2)))
    (fun t => t.int.heap == [2, 0, 1]) = true := by decide +kernel

/-- Single primitive: `HEAP = [2, 0, 1]`, `PQ_EXTRACT_MIN`. -/
theorem test_pqExtractMin : nextSat (exec .pqExtractMin (inside (leavesT1 [2, 0, 1] 0)))
    (fun t => t.int.heap == [1, 0] && t.int.res == 2) = true := by decide +kernel

/-- Single primitive: `MERGE(2, 1)` with `NODE_CNT = 3`. -/
theorem test_merge : nextSat (exec .merge (inside (leavesT1 [0] 2)))
    (fun t => t.int.node[3]? == some (.inner 3 2 1) && t.int.res == 3 && t.int.heap == [0]) = true := by
  decide +kernel

/-- MERGE and GENCODES right after reset run: every entry of NODE holds a value (R44, log 2). -/
theorem test_unallocated :
    nextSat (exec .merge State.reset) (fun t => t.int.node == [.inner 0 0 0] && t.int.nodeRest.length == 510) = true ∧
    nextSat (exec .gencodes State.reset) (fun t => t.entryCnt == 1) = true := by decide +kernel

/-- T1. -/
theorem test_build : nextSat (exec .build (inside { Internals.reset with freq := frequencies aaabbc }))
    (fun t => t.int.node == treeT1.node && t.int.root == 4 && !t.int.degenSig && t.int.heap == [4]) = true := by
  decide +kernel

/-- T5. -/
theorem test_build_degenerate :
    nextSat (exec .build (inside { Internals.reset with freq := byteSet Internals.reset.freq 0x41#8 100 }))
      (fun t => t.int.node == [.leaf 100 0x41#8] && t.int.root == 0 && t.int.degenSig) = true := by
  decide +kernel

/-- G1. -/
theorem test_gencodes : nextSat (exec .gencodes (inside treeT1))
    (fun t => codeEntries t.int.ct == entriesG1 && t.entryCnt == 3) = true := by decide +kernel

/-- G5. -/
theorem test_gencodes_degenerate : nextSat (exec .gencodes (inside treeT5))
    (fun t => codeEntries t.int.ct == [(0x41#8, [false])] && t.entryCnt == 1) = true := by decide +kernel

/-- K1. -/
theorem test_pack : nextSat (exec .pack (unit aaabbc { Internals.reset with ct := tableG1 }))
    (fun t => t.int.pay == [0x1f#8, 0x00#8] && t.pad == 7 && t.int.bitcnt == 9) = true := by decide +kernel

/-- K12. -/
theorem test_pack_no_code :
    nextSat (exec .pack (unit [0x61#8, 0x62#8] { Internals.reset with ct := tableOf [(0x61#8, [false])] }))
      (fun t => t.errSub == .noCode && t.errInfo == 1 && t.status.state == .error) = true := by decide +kernel

/-- W1. -/
theorem test_hdrWrite :
    nextSat (exec .hdrWrite { inside { Internals.reset with ct := tableG1 } with pad := 7, entryCnt := 3 })
      (fun t => t.hdrLen == 28 && outRead t 0 28 == header1) = true := by decide +kernel

/-- W1 and its payload: the payload stands after the header. -/
theorem test_payloadWrite :
    nextSat (exec .payloadWrite { inside { Internals.reset with pay := [0x1f#8, 0x00#8] } with
        outMem := Memory.writeBytes [] 0 header1, outLen := 28 })
      (fun t => t.outLen == 30 && outRead t 0 30 == good) = true := by decide +kernel

/-- H17: entries in another order. -/
theorem test_hdrRead : nextSat (exec .hdrRead (holding 64 64
    ([0x07#8, 0x00#8, 0x00#8, 0x00#8, 0x03#8, 0x00#8, 0x00#8, 0x00#8] ++
     [0x63#8, 0x02#8, 0x00#8, 0x00#8, 0x00#8, 0x31#8, 0x30#8, 0x61#8, 0x01#8, 0x00#8, 0x00#8, 0x00#8, 0x30#8] ++
     [0x62#8, 0x02#8, 0x00#8, 0x00#8, 0x00#8, 0x31#8, 0x31#8, 0x1f#8, 0x00#8])))
    (fun t => codeEntries t.int.ct == entriesG1 && t.hdrLen == 28 && t.pad == 7) = true := by decide +kernel

/-- H16: the first failing check in stream order. -/
theorem test_hdrRead_order : nextSat (exec .hdrRead (holding 64 64
    ([0x07#8, 0x00#8, 0x00#8, 0x00#8, 0x03#8, 0x00#8, 0x00#8, 0x00#8] ++
     [0x61#8, 0x01#8, 0x00#8, 0x00#8, 0x00#8, 0x39#8, 0x62#8, 0x02#8, 0x00#8, 0x00#8, 0x00#8, 0x31#8, 0x31#8] ++
     [0x63#8, 0x02#8])))
    (fun t => t.errSub == .badBitsym && t.errInfo == 13) = true := by decide +kernel

/-- M3. -/
theorem test_rmapBuild : nextSat (exec .rmapBuild (inside { Internals.reset with ct := tableG1 }))
    (fun t => t.int.rmap == rmapG1) = true := by decide +kernel

/-- M1. -/
theorem test_rmapBuild_conflict :
    nextSat (exec .rmapBuild (inside { Internals.reset with
        ct := tableOf [(0x61#8, [false]), (0x62#8, [false, true])] }))
      (fun t => t.errSub == .notPrefixFree && t.errInfo == 98) = true := by decide +kernel

/-- The state in which UNPACK starts on a stream with the table G1 and the given padding count. -/
def scanning (bs : List Byte) (pad : BitVec 3) : State :=
  { unit bs { Internals.reset with ct := tableG1, rmap := rmapG1 } with pad := pad, hdrLen := 28 }

/-- X2: the padding bits are not read. -/
theorem test_unpack : nextSat (exec .unpack (scanning (header1 ++ [0x1f#8, 0x7f#8]) 7))
    (fun t => outRead t 0 6 == aaabbc && t.outLen == 6 && t.int.trueBits == 9) = true := by decide +kernel

/-- X4. -/
theorem test_unpack_leftover : nextSat (exec .unpack (scanning (header1 ++ [0x1f#8]) 0))
    (fun t => t.errSub == .leftoverBits && t.errInfo == 1 && t.outLen == 0) = true := by decide +kernel

/-- The state of `scanning` in the middle of X1: five bits are read, the last of them the first bit of a code. -/
def midScan : State :=
  { scanning good 7 with
    int := { (scanning good 7).int with trueBits := 9, bitcur := 4, acc := [true] }, outLen := 3 }

/-- X1, its fifth bit: the code "11" of `62` is complete. -/
theorem test_unpackBit : nextSat (exec .unpackBit midScan)
    (fun t => t.outByte 3 == 0x62#8 && t.outLen == 4 && t.int.acc == [] && t.int.bitcur == 5) = true := by
  decide +kernel

/-! ## Commands and host -/

/-- P4, its last command. -/
theorem test_compress : nextSat (exec .compress (holding 64 64 [0x61#8, 0x62#8]))
    (fun t => t.status.word == 0x2 && t.outLen == 21 && outRead t 0 21 == streamAb && t.hdrLen == 20) = true := by
  decide +kernel

/-- Q12: COMPRESS right after reset. -/
theorem test_compress_empty : nextSat (exec .compress State.reset)
    (fun t => t.status.word == 0x6 && t.outLen == 8 && outRead t 0 8 == List.replicate 8 0 && t.phase == 0) =
      true := by decide +kernel

/-- P1, its second command. -/
theorem test_decompress : nextSat (exec .decompress (holding 64 64 good))
    (fun t => t.status.word == 0x2 && outRead t 0 6 == aaabbc && t.outLen == 6 && t.entryCnt == 3) = true := by
  decide +kernel

/-- Q5: no room for the sixth byte. -/
theorem test_decompress_outFull : nextSat (exec .decompress (holding 64 5 good))
    (fun t => t.status.word == 0x3 && t.errSub == .outFull && t.outLen == 0) = true := by decide +kernel

/-- Q10: bits 31:8 of the write are ignored. -/
theorem test_step_illegal : nextSat (step (asked 64 64 [.writeReg 0 0x203]))
    (fun t => t.status.word == 0x3 && t.err.code == 0x04#8 && t.errSub.code == 0x30#8 && t.errInfo == 3) = true := by
  decide +kernel

/-- Q6 and Q11: `IN_LEN` beyond `IN_CAP`, with a legal and an illegal command. -/
theorem test_step_inRange :
    nextSat (step { asked 4 64 [.writeReg 0 1] with inLen := 5 }) (fun t => t.errSub == .inRange) = true ∧
    nextSat (step { asked 4 64 [.writeReg 0 7] with inLen := 5 })
      (fun t => t.errSub == .badOpcode && t.errInfo == 7) = true := by decide +kernel

/-- A word placed for the fetch is the one the next step runs: a command, and a unit operation. -/
theorem test_withFetchWord :
    nextSat (step (State.reset.withFetchWord 8 0x01)) (fun t => t.status.word == 0x6) = true ∧
    nextSat (step (State.reset.withFetchWord 8 0x10)) (fun t => t.phase == 0x20#8) = true ∧
    decodeTableWord 8 0x72 = some .unpackBit ∧ decodeTableWord 8 0x73 = none := by decide +kernel

/-! ## Witnesses: for every statement with hypotheses, values that meet them, each clause at a boundary -/

theorem prefixFree_tableG1 : PrefixFree tableG1 := prefixFree_of_entries (by decide +kernel)

theorem legalLengths_tableG1 : LegalLengths tableG1 := legalLengths_of_entries (by decide +kernel)

theorem inverts_rmapG1 : Inverts rmapG1 tableG1 := inverts_of_entries (by decide +kernel) (by decide +kernel)

theorem goodEntries_entriesG1 : GoodEntries entriesG1 := by
  refine ⟨by decide, by decide⟩

theorem witness_EncodeAndDecodeAgree :
    Issue.wellFormed { format := .phase, instr := .unpackBit } = true ∧ decode .cmd 0x02#8 = .ok .decompress := by
  decide

theorem witness_StepRunsTheHostsCommand :
    (asked 64 64 [.writeReg 0 0xffffff01]).status.state ≠ .busy ∧
    (asked 64 64 [.writeReg 0 0xffffff01]).hostQueue = .writeReg 0 0xffffff01 :: [] ∧
    decode .cmd ((0xffffff01 : Word).setWidth 8) = .ok .compress := by decide

/-- FREQ goes on, HDR_READ of nothing ends the command, PACK of an input longer than IN faults, BUILD without counts is
refused. -/
theorem witness_StepRunsThePhase :
    (∀ p : Byte, (running State.reset p).status.state = .busy ∧ (running State.reset p).hostQueue.head? ≠ some .reset ∧
      (running State.reset p).resume = .start ∧ (running State.reset p).phase = p) ∧
    decode .phase 0x10#8 = .ok .freq ∧
    nextSat (exec .freq (running State.reset 0x10#8)) (fun t => t.status.state == .busy) = true ∧
    decode .phase 0x60#8 = .ok .hdrRead ∧
    nextSat (exec .hdrRead (running State.reset 0x60#8)) (fun t => t.status.state == .error) = true ∧
    decode .phase 0x40#8 = .ok .pack ∧ exec .pack (running (holding 0 0 [0x61#8]) 0x40#8) = .fault .noSuchByte ∧
    decode .phase 0x20#8 = .ok .build ∧ exec .build (running State.reset 0x20#8) = .refused .emptyMapping := by
  refine ⟨fun _ => ⟨rfl, by simp [running, State.reset, State.resetWith], rfl, rfl⟩, rfl, ?_, rfl, ?_, rfl, rfl, rfl, ?_⟩
  · decide +kernel
  · decide +kernel
  · have : occurring (running State.reset 0x20#8).int.freq = [] := by decide +kernel
    simp only [exec, execBuild, onInternals, build, if_pos this]
    rfl

theorem witness_IllegalCommandIsReported :
    (asked 64 64 [.writeReg 0 0x100]).status.state ≠ .busy ∧
    (asked 64 64 [.writeReg 0 0x100]).hostQueue = .writeReg 0 0x100 :: [] ∧
    (0x100 : Word).setWidth 8 ≠ 0x01#8 ∧ (0x100 : Word).setWidth 8 ≠ 0x02#8 := by decide

/-- The input fills IN, and the input is empty. -/
theorem witness_SmallStepsRunCommands :
    (holding 6 64 aaabbc).hostQueue = [] ∧ (holding 6 64 aaabbc).inLen ≤ (holding 6 64 aaabbc).params.inCap ∧
    (holding 6 64 aaabbc).inLen ≠ 0 ∧ (holding 0 64 []).hostQueue = [] ∧
    (holding 0 64 []).inLen ≤ (holding 0 64 []).params.inCap ∧ (holding 0 64 []).inLen = 0 := by decide

theorem witness_PrimitivesComposeIntoBuild :
    (running (inside { Internals.reset with freq := frequencies aaabbc }) 0x21#8).phase = 0x21#8 ∧
    occurring (running (inside { Internals.reset with freq := frequencies aaabbc }) 0x21#8).int.freq ≠ [] ∧
    (running (inside (leavesT1 [1, 0] 0)) 0x23#8).phase = 0x23#8 ∧
    2 ≤ (running (inside (leavesT1 [1, 0] 0)) 0x23#8).int.heap.length ∧
    (running (inside (leavesT1 [1, 0] 0)) 0x23#8).status.state = .busy ∧
    (running (inside (leavesT1 [1, 0] 0)) 0x23#8).hostQueue = [] ∧
    (running (inside (leavesT1 [1, 0] 0)) 0x23#8).resume = .start := by decide +kernel

/-- The last bit of X1, with a full payload. -/
theorem witness_UnpackBitComposesIntoUnpack :
    (running midScan 0x72#8).status.state = .busy ∧ (running midScan 0x72#8).hostQueue = [] ∧
    (running midScan 0x72#8).resume = .start ∧ (running midScan 0x72#8).phase = 0x72#8 ∧
    midScan.int.bitcur < midScan.int.trueBits ∧ midScan.int.acc.length < 255 ∧
    midScan.inLen ≤ midScan.params.inCap ∧
    midScan.int.trueBits.toNat ≤ 8 * (midScan.inLen.toNat - midScan.hdrLen.toNat) := by decide +kernel

theorem witness_ResetActsAtAnyTime :
    (running (asked 64 64 [.reset]) 0x10#8).hostQueue = .reset :: [] ∧
    (running (asked 64 64 [.reset]) 0x10#8).status.state = .busy := by decide

/-- The register numbers at the ends of the ranges, and the two kinds of write. -/
theorem witness_HostRegisterAccess :
    (∀ n ∈ [0, 1, 2, 3, 4, 5, 6, 7, 8, 9, 10, 11], (asked 64 64 [.readReg n]).status.state ≠ .busy ∧
      (asked 64 64 [.readReg n]).hostQueue = .readReg n :: []) ∧
    (∀ n ∈ [1, 5, 11], (asked 64 64 [.writeReg n 7]).hostQueue = .writeReg n 7 :: []) := by decide

/-- Nothing, and as many bytes as IN has. -/
theorem witness_LoadFillsTheInput :
    ([] : List Byte).length ≤ (asked 0 64 (load [])).params.inCap.toNat ∧
    (asked 0 64 (load [])).hostQueue = load [] ++ [] ∧
    aaabbc.length ≤ (asked 6 64 (load aaabbc)).params.inCap.toNat ∧
    (asked 6 64 (load aaabbc)).hostQueue = load aaabbc ++ [] ∧
    (asked 6 64 (load aaabbc)).status.state ≠ .busy := by decide

theorem witness_HostWaitsWhileBusy :
    ∃ t, step (running (asked 64 64 [.readReg 1]) 0x10#8) = .next t ∧
      (running (asked 64 64 [.readReg 1]) 0x10#8).status.state = .busy ∧
      (running (asked 64 64 [.readReg 1]) 0x10#8).hostQueue.head? ≠ some .reset := by
  obtain ⟨t, h, _⟩ := next_of_nextSat (o := step (running (asked 64 64 [.readReg 1]) 0x10#8)) (p := fun _ => true)
    (by decide +kernel)
  exact ⟨t, h, by decide, by decide⟩

theorem witness_BusyIsNeverSeen :
    ∃ t, (asked 64 64 [.writeReg 0 1]).status.state ≠ .busy ∧ step (asked 64 64 [.writeReg 0 1]) = .next t := by
  obtain ⟨t, h, _⟩ := next_of_nextSat (o := step (asked 64 64 [.writeReg 0 1])) (p := fun _ => true)
    (by decide +kernel)
  exact ⟨t, by decide, h⟩

/-- A finished command with bytes in both buffers, the last one at the end of OUT. -/
def finished : State :=
  { holding 8 2 [0x61#8] with
    status := { state := .done, empty := false, degen := false }
    outMem := [(0, 0x01#8), (1, 0x02#8)], outLen := 2, hostQueue := [.move] }

theorem witness_EveryStepKeepsTheInvariant : Inv finished ∧ ∃ t, step finished = .next t := by
  refine ⟨⟨by decide, by decide, by decide, by decide, by decide, by decide, by decide, ?_, by decide, rfl⟩, ?_⟩
  · intro h
    cases h
  · obtain ⟨t, h, _⟩ := next_of_nextSat (o := step finished) (p := fun _ => true) (by decide +kernel)
    exact ⟨t, h⟩

theorem witness_NoOperationWritesTheInput :
    nextSat (exec .compress (holding 64 64 [0x61#8])) (fun _ => true) = true ∧
    nextSat (exec .hdrRead (holding 64 64 [0x61#8])) (fun t => t.errSub == .truncated) = true := by decide +kernel

/-- One operation that succeeds and one that raises an error. -/
theorem witness_OnlyTheWritersWriteOut :
    nextSat (exec .freq (holding 64 64 [0x61#8])) (fun t => t.status.state == .idle) = true ∧
    nextSat (exec .pack (holding 64 64 [0x61#8])) (fun t => t.errSub == .noCode) = true := by decide +kernel

theorem witness_ErrorEntryIsComplete :
    (holding 64 64 []).status.state ≠ .error ∧
    nextSat (exec .decompress (holding 64 64 [])) (fun t => t.status.state == .error) = true := by decide +kernel

theorem witness_FreqCountsEveryByte : (holding 6 0 aaabbc).inLen ≤ (holding 6 0 aaabbc).params.inCap := by decide

theorem heapInv_leavesT1 : HeapInv (leavesT1 [2, 0, 1] 0) := by
  refine ⟨by decide, by decide, by decide, ?_⟩
  intro i a b hi ha hb
  match i, hi with
  | 1, _ =>
    cases ha
    cases hb
    exact ⟨_, _, rfl, rfl, by decide⟩
  | 2, _ =>
    cases ha
    cases hb
    exact ⟨_, _, rfl, rfl, by decide⟩
  | n + 3, _ => cases hb

theorem witness_PqInsertKeepsTheHeap :
    HeapInv (leavesT1 [1, 0] 2) ∧ (leavesT1 [1, 0] 2).opA.toNat < (leavesT1 [1, 0] 2).node.length ∧
    (leavesT1 [1, 0] 2).opA ∉ (leavesT1 [1, 0] 2).heap ∧ (leavesT1 [1, 0] 2).heap.length < 256 ∧
    (leavesT1 [] 2).heap = [] := by
  refine ⟨⟨by decide, by decide, by decide, ?_⟩, by decide, by decide, by decide, rfl⟩
  intro i a b hi ha hb
  match i, hi with
  | 1, _ =>
    cases ha
    cases hb
    exact ⟨_, _, rfl, rfl, by decide⟩
  | n + 2, _ => cases hb

theorem witness_PqExtractMinTakesTheLeast :
    HeapInv (leavesT1 [2, 0, 1] 0) ∧ (leavesT1 [2, 0, 1] 0).heap ≠ [] := ⟨heapInv_leavesT1, by decide⟩

/-- The two operands of T1's first merge; the sum fits. -/
theorem witness_MergeMakesTheParent :
    (leavesT1 [0] 2).node[(leavesT1 [0] 2).opA.toNat]? = some (.leaf 1 0x63#8) ∧
    (leavesT1 [0] 2).node[(leavesT1 [0] 2).opB.toNat]? = some (.leaf 2 0x62#8) ∧
    (leavesT1 [0] 2).node.length < 511 ∧
    (Node.leaf 1 0x63#8).freq.toNat + (Node.leaf 2 0x62#8).freq.toNat < 2 ^ 32 := by decide

theorem counts_of_pairs {f : ByteTable Word} {k total : Nat} (h1 : (occurring f).length = k)
    (h2 : ((tablePairs f).map (fun e => e.2.toNat)).sum = total) :
    k = (allBytes.filter (fun b => byteGet f b != 0)).length ∧
      total = (allBytes.map (fun b => (byteGet f b).toNat)).sum := by
  rw [occurring_eq, List.length_map] at h1
  rw [tablePairs_eq, List.map_map] at h2
  exact ⟨h1.symm, h2.symm⟩

/-- One byte value with the largest count, and the counts of T1. -/
theorem witness_BuildMakesTheTree :
    (1 = (allBytes.filter (fun b => byteGet (byteSet Internals.reset.freq 0xff#8 0xffffffff) b != 0)).length ∧
      0xffffffff = (allBytes.map (fun b => (byteGet (byteSet Internals.reset.freq 0xff#8 0xffffffff) b).toNat)).sum) ∧
    (3 = (allBytes.filter (fun b => byteGet (frequencies aaabbc) b != 0)).length ∧
      6 = (allBytes.map (fun b => (byteGet (frequencies aaabbc) b).toNat)).sum) :=
  ⟨counts_of_pairs (by decide +kernel) (by decide +kernel), counts_of_pairs (by decide +kernel) (by decide +kernel)⟩

theorem witness_SingleValueGivesALeaf :
    (holding 2 0 [0x41#8, 0x41#8]).inLen ≠ 0 ∧
    (holding 2 0 [0x41#8, 0x41#8]).inLen ≤ (holding 2 0 [0x41#8, 0x41#8]).params.inCap ∧
    ∀ x ∈ inputBytes (holding 2 0 [0x41#8, 0x41#8]), x = 0x41#8 := by decide +kernel

theorem witness_HeapBuildEqualsScanBuild : occurring (byteSet Internals.reset.freq 0xff#8 1) ≠ [] := by
  decide +kernel

/-- The registers in which each refusal is due, at the boundary of its range. -/
theorem witness_PreconditionsAreRefused :
    (∀ b, byteGet Internals.reset.freq b = 0) ∧ Internals.reset.heap = [] ∧
    256 ≤ (leavesT1 (List.replicate 256 0) 0).heap.length ∧
    ((leavesT1 [0] 0).heap.length < 256 ∧ (leavesT1 [0] 0).opA ∈ (leavesT1 [0] 0).heap) ∧
    ((scanning (header1.take 27) 0).inLen ≤ (scanning (header1.take 27) 0).params.inCap ∧
      (scanning (header1.take 27) 0).inLen < (scanning (header1.take 27) 0).hdrLen) ∧
    Internals.reset.trueBits ≤ Internals.reset.bitcur ∧
    (({ Internals.reset with trueBits := 1, acc := List.replicate 255 true } : Internals).bitcur < 1 ∧
      255 ≤ ({ Internals.reset with trueBits := 1, acc := List.replicate 255 true } : Internals).acc.length) := by
  refine ⟨fun b => byteGet_replicate b 0, rfl, ?_, by decide, by decide, by decide, by decide, ?_⟩ <;>
  exact (List.length_replicate).symm.le

/-- What the arena of trace T6 holds. -/
theorem treeT6_inner {i : Nat} {f : Word} {l r : NodeIdx} (h : treeT6.node[i]? = some (.inner f l r)) :
    i = 2 ∧ f = 3 ∧ l = 0 ∧ r = 1 := by
  match i, h with
  | 0, h => cases h
  | 1, h => cases h
  | 2, h =>
    cases h
    exact ⟨rfl, rfl, rfl, rfl⟩
  | n + 3, h => cases h

theorem treeT6_leaf {i : Nat} {f : Word} {b : Byte} (h : treeT6.node[i]? = some (.leaf f b)) :
    (i = 0 ∧ b = 0x00#8) ∨ (i = 1 ∧ b = 0xff#8) := by
  match i, h with
  | 0, h =>
    cases h
    exact .inl ⟨rfl, rfl⟩
  | 1, h =>
    cases h
    exact .inr ⟨rfl, rfl⟩
  | 2, h => cases h
  | n + 3, h => cases h

theorem treeArena_treeT6 : TreeArena treeT6 := by
  have idx : ∀ p : NodeIdx, p.toNat = 2 → p = 2 := fun p h => BitVec.eq_of_toNat_eq h
  refine ⟨by decide, by decide, ?_, ?_, ?_, ?_, ?_, ?_⟩
  · intro p f l r h
    obtain ⟨hp, _, rfl, rfl⟩ := treeT6_inner h
    rw [idx p hp]
    decide
  · rintro n p q ⟨f, l, r, h, _⟩ ⟨f', l', r', h', _⟩
    rw [idx p (treeT6_inner h).1, idx q (treeT6_inner h').1]
  · intro n hn hr
    refine ⟨2, 3, 0, 1, rfl, ?_⟩
    have hn : n.toNat < 3 := hn
    have hr : n.toNat ≠ 2 := fun h => hr (idx n h)
    rcases (by omega : n.toNat = 0 ∨ n.toNat = 1) with h | h
    · exact .inl (BitVec.eq_of_toNat_eq h)
    · exact .inr (BitVec.eq_of_toNat_eq h)
  · rintro p ⟨f, l, r, h, hc⟩
    obtain ⟨_, _, rfl, rfl⟩ := treeT6_inner h
    rcases hc with hc | hc <;> cases hc
  · intro i j f g b hi hj
    rcases treeT6_leaf hi with ⟨rfl, rfl⟩ | ⟨rfl, rfl⟩ <;> rcases treeT6_leaf hj with ⟨rfl, hb⟩ | ⟨rfl, hb⟩
    · rfl
    · cases hb
    · cases hb
    · rfl
  · intro i f l r x y hi hx hy
    obtain ⟨_, rfl, rfl, rfl⟩ := treeT6_inner hi
    cases hx
    cases hy
    rfl

theorem witness_GencodesFollowsThePaths : TreeArena treeT6 ∧ treeT6.degenSig = false := ⟨treeArena_treeT6, rfl⟩

theorem witness_GencodesDegenerateCode :
    treeT5.degenSig = true ∧ treeT5.node[treeT5.root.toNat]? = some (.leaf 100 0x41#8) := ⟨rfl, rfl⟩

theorem witness_CodesArePrefixFree :
    TreeArena treeT6 ∧ treeT6.degenSig = false ∧ treeT6.node[treeT6.root.toNat]? = some (.inner 3 0 1) :=
  ⟨treeArena_treeT6, rfl, rfl⟩

/-- K1, with an input that fills IN. -/
theorem witness_PackConcatenatesTheCodes :
    (holding 6 0 aaabbc).inLen ≤ (holding 6 0 aaabbc).params.inCap ∧
    Covers tableG1 (inputBytes (holding 6 0 aaabbc)) ∧ LegalLengths tableG1 ∧
    codeBits tableG1 (inputBytes (holding 6 0 aaabbc)) =
      [false, false, false, true, true, true, true, true, false] := by
  refine ⟨by decide, ?_, legalLengths_tableG1, by decide +kernel⟩
  unfold Covers
  decide +kernel

/-- K12, and a COMPRESS that ends. -/
theorem witness_PackReportsAMissingCode :
    (holding 2 0 [0x61#8, 0x62#8]).inLen ≤ (holding 2 0 [0x61#8, 0x62#8]).params.inCap ∧
    inputBytes (holding 2 0 [0x61#8, 0x62#8]) = [0x61#8] ++ 0x62#8 :: [] ∧
    Covers (tableOf [(0x61#8, [false])]) [0x61#8] ∧ byteGet (tableOf [(0x61#8, [false])]) 0x62#8 = none ∧
    nextSat (exec .compress (holding 2 0 [])) (fun t => t.errSub == .outFull) = true := by
  refine ⟨by decide, by decide +kernel, ?_, by decide +kernel, by decide +kernel⟩
  unfold Covers
  decide +kernel

/-- The header of W1 fits exactly, and one byte is missing. -/
theorem witness_HdrWriteAppendsTheHeader :
    header1 = headerBytes 7 3 (codeEntries tableG1) ∧
    (holding 0 28 []).outLen.toNat + header1.length ≤ (holding 0 28 []).params.outCap.toNat ∧
    (holding 0 27 []).params.outCap.toNat < (holding 0 27 []).outLen.toNat + header1.length ∧
    (holding 0 27 []).outLen ≤ (holding 0 27 []).params.outCap := by decide +kernel

theorem witness_PayloadWriteAppendsThePayload :
    ({ holding 0 30 [] with outLen := 28 } : State).outLen.toNat + [0x1f#8, 0x00#8].length ≤
      (holding 0 30 []).params.outCap.toNat ∧
    (holding 0 29 []).params.outCap.toNat <
      ({ holding 0 29 [] with outLen := 28 } : State).outLen.toNat + [0x1f#8, 0x00#8].length ∧
    ({ holding 0 29 [] with outLen := 28 } : State).outLen ≤ (holding 0 29 []).params.outCap := by decide +kernel

theorem witness_HdrReadRebuildsTheTable :
    (holding 28 0 header1).inLen ≤ (holding 28 0 header1).params.inCap ∧ GoodEntries entriesG1 ∧
    header1 = headerBytes 7 entriesG1.length entriesG1 ∧ header1.length ≤ (holding 28 0 header1).inLen.toNat ∧
    memRead (holding 28 0 header1) 0 header1.length = header1 ∧ entriesG1 = codeEntries tableG1 :=
  ⟨by decide, goodEntries_entriesG1, by decide +kernel, by decide, by decide +kernel, by decide +kernel⟩

theorem witness_HdrReadAcceptsOnlyHeaders :
    (holding 28 0 header1).status.state ≠ .error ∧
    nextSat (exec .hdrRead (holding 28 0 header1)) (fun t => t.status.state != .error) = true := by decide +kernel

/-- Checks 1 to 4: 3 bytes; a padding count of 8; 7 bytes; an entry count of 257. -/
theorem witness_HdrReadChecksInStreamOrder_fixed :
    (holding 64 0 (header1.take 3)).inLen.toNat < 4 ∧
    (4 ≤ (holding 64 0 [8, 0, 0, 0]).inLen.toNat ∧ 7 < unU32 (memRead (holding 64 0 [8, 0, 0, 0]) 0 4)) ∧
    (4 ≤ (holding 64 0 (header1.take 7)).inLen.toNat ∧ unU32 (memRead (holding 64 0 (header1.take 7)) 0 4) ≤ 7 ∧
      (holding 64 0 (header1.take 7)).inLen.toNat < 8) ∧
    (8 ≤ (holding 64 0 [7, 0, 0, 0, 1, 1, 0, 0]).inLen.toNat ∧
      unU32 (memRead (holding 64 0 [7, 0, 0, 0, 1, 1, 0, 0]) 0 4) ≤ 7 ∧
      256 < unU32 (memRead (holding 64 0 [7, 0, 0, 0, 1, 1, 0, 0]) 4 4)) := by decide +kernel

/-- An input that begins with the header of W1 cut after its first entry, 14 bytes. -/
def afterFirst (bs : List Byte) : State := holding 64 0 (header1.take 14 ++ bs)

/-- The first entry of G1 is good, the count announces more, and its 14 bytes stand in IN. -/
theorem witness_HdrReadChecksInStreamOrder_entry :
    GoodEntries (entriesG1.take 1) ∧ (entriesG1.take 1).length < 3 ∧
    14 = (headerBytes 7 3 (entriesG1.take 1)).length ∧
    memRead (afterFirst []) 0 14 = headerBytes 7 3 (entriesG1.take 1) ∧
    (afterFirst []).inLen ≤ (afterFirst []).params.inCap :=
  ⟨⟨by decide, by decide⟩, by decide, by decide +kernel, by decide +kernel, by decide⟩

/-- Checks 5 to 10 at the second entry: nothing; a repeated byte; a cut length; lengths 0 and 256; a missing code bit;
a bad second symbol. -/
theorem witness_HdrReadChecksInStreamOrder_second :
    (afterFirst []).inLen.toNat < 14 + 1 ∧
    (afterFirst [0x61#8]).inByte 14 ∈ (entriesG1.take 1).map Prod.fst ∧
    ((afterFirst [0x62#8, 2, 0, 0]).inByte 14 ∉ (entriesG1.take 1).map Prod.fst ∧
      14 + 1 ≤ (afterFirst [0x62#8, 2, 0, 0]).inLen.toNat ∧ (afterFirst [0x62#8, 2, 0, 0]).inLen.toNat < 14 + 5) ∧
    (14 + 5 ≤ (afterFirst [0x62#8, 0, 0, 0, 0]).inLen.toNat ∧
      unU32 (memRead (afterFirst [0x62#8, 0, 0, 0, 0]) 15 4) = 0 ∧
      unU32 (memRead (afterFirst [0x62#8, 0, 1, 0, 0]) 15 4) = 256) ∧
    (unU32 (memRead (afterFirst [0x62#8, 2, 0, 0, 0, 0x31#8]) 15 4) = 2 ∧
      (afterFirst [0x62#8, 2, 0, 0, 0, 0x31#8]).inLen.toNat < 14 + 5 + 2) ∧
    (unU32 (memRead (afterFirst [0x62#8, 2, 0, 0, 0, 0x31#8, 0x32#8]) 15 4) = 2 ∧
      14 + 5 + 2 ≤ (afterFirst [0x62#8, 2, 0, 0, 0, 0x31#8, 0x32#8]).inLen.toNat ∧
      (afterFirst [0x62#8, 2, 0, 0, 0, 0x31#8, 0x32#8]).inByte 19 = 0x31#8 ∧
      (afterFirst [0x62#8, 2, 0, 0, 0, 0x31#8, 0x32#8]).inByte 20 = 0x32#8) := by decide +kernel

/-- G1's table, and M1's with its conflict at `62`. -/
theorem witness_RmapBuildInvertsTheTable :
    PrefixFree tableG1 ∧ (0x61#8 : Byte) < 0x62#8 ∧
    byteGet (tableOf [(0x61#8, [false]), (0x62#8, [false, true])]) 0x61#8 = some [false] ∧
    byteGet (tableOf [(0x61#8, [false]), (0x62#8, [false, true])]) 0x62#8 = some [false, true] ∧
    ([false] : Code) <+: [false, true] ∧
    (∀ (k l : Byte) (a b : Code), k < l → l < 0x62#8 →
      byteGet (tableOf [(0x61#8, [false]), (0x62#8, [false, true])]) k = some a →
      byteGet (tableOf [(0x61#8, [false]), (0x62#8, [false, true])]) l = some b → ¬ a <+: b ∧ ¬ b <+: a) := by
  refine ⟨prefixFree_tableG1, by decide, by decide +kernel, by decide +kernel, by decide, ?_⟩
  intro k l a b hkl hl hk hb
  have hk1 : k ≠ 0x61#8 ∨ l ≠ 0x61#8 := by
    by_cases e : k = 0x61#8
    · exact .inr fun e' => by
        rw [e, e'] at hkl
        exact absurd hkl (by decide)
    · exact .inl e
  have hl2 : l ≠ 0x62#8 := fun e => by
    rw [e] at hl
    exact absurd hl (by decide)
  have hk2 : k ≠ 0x62#8 := fun e => by
    rw [e] at hkl
    exact absurd (BitVec.lt_trans hkl hl) (by decide)
  simp only [tableOf, List.foldl_cons, List.foldl_nil, byteGet_byteSet, byteGet_emptyTable, if_neg hk2] at hk
  simp only [tableOf, List.foldl_cons, List.foldl_nil, byteGet_byteSet, byteGet_emptyTable, if_neg hl2] at hb
  rcases hk1 with e | e
  · simp [e] at hk
  · simp [e] at hb

/-- The state of `midScan` with an accumulator of 254 bits and an empty reverse mapping. -/
def longScan : State := { midScan with int := { midScan.int with acc := List.replicate 254 true, rmap := [] } }

/-- A match with room for one byte, a match with none, no match, and no match with a full accumulator. -/
theorem witness_UnpackBitTransitions :
    (midScan.int.bitcur < midScan.int.trueBits ∧ midScan.int.acc.length < 255 ∧
      midScan.inLen ≤ midScan.params.inCap ∧
      midScan.hdrLen.toNat + midScan.int.bitcur.toNat / 8 < midScan.inLen.toNat) ∧
    midScan.int.acc ++ [(midScan.inByte 28).getLsbD 3] = [true, true] ∧
    midScan.int.rmap.lookup [true, true] = some 0x62#8 ∧
    (({ midScan with params := { inCap := 64, outCap := 4 } } : State).outLen < 4 ∧
      ({ midScan with params := { inCap := 64, outCap := 3 } } : State).params.outCap ≤ midScan.outLen) ∧
    (({ midScan with int := { midScan.int with acc := [] } } : State).int.rmap.lookup [true] = none) ∧
    (longScan.int.acc.length < 255 ∧ (longScan.int.acc ++ [(longScan.inByte 28).getLsbD 3]).length = 255 ∧
      longScan.int.rmap.lookup (longScan.int.acc ++ [(longScan.inByte 28).getLsbD 3]) = none) := by
  decide +kernel

/-- X1, in an OUT that the message fills. -/
def scanningFull (bs : List Byte) (pad : BitVec 3) : State :=
  { scanning bs pad with params := { inCap := 64, outCap := 6 } }

theorem covers_tableG1 : Covers tableG1 aaabbc := by
  unfold Covers
  decide +kernel

theorem witness_UnpackDecodesTheCodes :
    (scanningFull good 7).inLen ≤ (scanningFull good 7).params.inCap ∧
    (scanningFull good 7).hdrLen ≤ (scanningFull good 7).inLen ∧
    (scanningFull good 7).outLen ≤ (scanningFull good 7).params.outCap ∧
    PrefixFree tableG1 ∧ LegalLengths tableG1 ∧ Inverts (scanningFull good 7).int.rmap tableG1 ∧
    Covers tableG1 aaabbc ∧
    9 + (scanningFull good 7).pad.toNat =
      8 * ((scanningFull good 7).inLen.toNat - (scanningFull good 7).hdrLen.toNat) ∧
    inputBits (scanningFull good 7) 28 9 = codeBits tableG1 aaabbc ∧
    (scanningFull good 7).outLen.toNat + aaabbc.length ≤ (scanningFull good 7).params.outCap.toNat :=
  ⟨by decide, by decide, by decide, prefixFree_tableG1, legalLengths_tableG1, inverts_rmapG1, covers_tableG1,
    by decide, by decide +kernel, by decide⟩

/-- X4's tail of one bit, and X9's of 255. -/
theorem witness_UnpackReportsUnmatchedBits :
    inputBits (scanning (header1 ++ [0x1f#8]) 0) 28 8 =
      codeBits tableG1 [0x61#8, 0x61#8, 0x61#8, 0x62#8, 0x62#8] ++ [true] ∧
    8 + (scanning (header1 ++ [0x1f#8]) 0).pad.toNat =
      8 * ((scanning (header1 ++ [0x1f#8]) 0).inLen.toNat - 28) ∧
    (∀ e ∈ entriesG1, ¬ e.2 <+: [true]) ∧
    inputBits (holding 64 64 (List.replicate 32 0xff#8)) 0 255 =
      codeBits (tableOf [(0x61#8, [false])]) [] ++ List.replicate 255 true ∧
    ¬ ([false] : Code) <+: List.replicate 255 true := by
  refine ⟨by decide +kernel, by decide, by decide, by decide +kernel, by decide +kernel⟩

/-- X5, and X1 with room for five bytes. -/
theorem witness_UnpackReportsPadAndFullOutput :
    (8 * ((scanning header1 7).inLen.toNat - (scanning header1 7).hdrLen.toNat) < (scanning header1 7).pad.toNat ∧
      (scanning header1 7).hdrLen ≤ (scanning header1 7).inLen) ∧
    inputBits (scanning good 7) 28 9 = codeBits tableG1 aaabbc ++ [] ∧
    ({ scanning good 7 with params := { inCap := 64, outCap := 5 } } : State).params.outCap.toNat <
      (scanning good 7).outLen.toNat + aaabbc.length := by decide +kernel

/-- X1 and X2. -/
theorem witness_PaddingBitsAreIgnored :
    inputBits { scanning good 7 with inMem := Memory.writeBytes [] 0 (header1 ++ [0x1f#8, 0x7f#8]), inDraw := 1 } 28 9 =
      inputBits (scanning good 7) 28 9 ∧
    nextSat (exec .unpack (scanning good 7)) (fun t => t.outLen == 6) = true ∧
    exec .unpack (scanning (header1.take 27) 0) = .refused .headerBeyondInput := by
  refine ⟨by decide +kernel, by decide +kernel, rfl⟩

theorem witness_HuffmanTableIsACode : aaabbc ≠ [] ∧ aaabbc.length < 2 ^ 32 := by decide

theorem witness_HuffmanTableIsOptimal :
    ∃ r, huffmanTable [0x61#8, 0x62#8, 0x61#8] = .ok r ∧ 2 ≤ distinctCount [0x61#8, 0x62#8, 0x61#8] ∧
      PrefixFree tableG1 ∧ Covers tableG1 [0x61#8, 0x62#8, 0x61#8] ∧
      byteGet r.1 0x61#8 = some [true] ∧ byteGet r.1 0x62#8 = some [false] ∧
      [0x61#8, 0x62#8, 0x61#8].count (0x62#8 : Byte) < [0x61#8, 0x62#8, 0x61#8].count 0x61#8 := by
  have h : (match huffmanTable [0x61#8, 0x62#8, 0x61#8] with
      | .ok r => byteGet r.1 0x61#8 == some [true] && byteGet r.1 0x62#8 == some [false]
      | .error _ => false) = true := by decide +kernel
  split at h
  · rename_i r hr
    rw [Bool.and_eq_true, beq_iff_eq, beq_iff_eq] at h
    refine ⟨r, hr, by decide, prefixFree_tableG1, ?_, h.1, h.2, by decide⟩
    unfold Covers
    decide +kernel
  · cases h

/-- "ab" in an IN of 2 bytes; its stream has 21 bytes, which fit in 21 and not in 20. -/
theorem witness_CompressWritesTheStream :
    (holding 2 21 [0x61#8, 0x62#8]).inLen ≠ 0 ∧
    (holding 2 21 [0x61#8, 0x62#8]).inLen ≤ (holding 2 21 [0x61#8, 0x62#8]).params.inCap ∧
    compressedLength [0x61#8, 0x62#8] = .ok 21 ∧
    21 ≤ (holding 2 21 [0x61#8, 0x62#8]).params.outCap.toNat ∧
    (holding 2 20 [0x61#8, 0x62#8]).params.outCap.toNat < 21 := by
  refine ⟨by decide, by decide, by decide +kernel, by decide, by decide⟩

theorem witness_CompressEmptyInput :
    (holding 0 8 []).inLen = 0 ∧ 8 ≤ (holding 0 8 []).params.outCap.toNat ∧
    (holding 0 7 []).inLen = 0 ∧ (holding 0 7 []).params.outCap.toNat < 8 := by decide

theorem witness_InputBeyondCapacityIsReported :
    (holding 1 64 [0x61#8, 0x62#8]).params.inCap < (holding 1 64 [0x61#8, 0x62#8]).inLen := by decide

theorem witness_DecompressReadsTheStream :
    (holding 30 6 good).inLen ≤ (holding 30 6 good).params.inCap ∧ GoodEntries entriesG1 ∧
    PrefixFree (tableOf entriesG1) ∧ Covers (tableOf entriesG1) aaabbc ∧
    header1 = headerBytes 7 entriesG1.length entriesG1 ∧ header1.length ≤ (holding 30 6 good).inLen.toNat ∧
    memRead (holding 30 6 good) 0 header1.length = header1 ∧
    (codeBits tableG1 aaabbc).length + 7 = 8 * ((holding 30 6 good).inLen.toNat - header1.length) ∧
    inputBits (holding 30 6 good) header1.length 9 = codeBits tableG1 aaabbc ∧
    aaabbc.length ≤ (holding 30 6 good).params.outCap.toNat :=
  ⟨by decide, goodEntries_entriesG1, prefixFree_tableG1, covers_tableG1, by decide +kernel, by decide,
    by decide +kernel, by decide +kernel, by decide +kernel, by decide⟩

/-- The script of "ab", with room for exactly the 21 bytes of its stream, and of nothing, with room for 8. -/
theorem witness_RoundTripIdentity :
    (asked 21 21 (load [0x61#8, 0x62#8] ++ [.writeReg 0 0x01#32, .move, .writeReg 0 0x02#32])).status.state ≠ .busy ∧
    [0x61#8, 0x62#8].length ≤ (21 : Word).toNat ∧ compressedLength [0x61#8, 0x62#8] = .ok 21 ∧
    ([] : List Byte).length ≤ (8 : Word).toNat ∧ compressedLength [] = .ok 8 := by
  refine ⟨by decide, by decide, by decide +kernel, by decide, rfl⟩

/-- The same input, once in a machine that an earlier command has left in an error. -/
theorem witness_CommandsAreIndependent :
    (raise .outFull 0 (holding 64 64 [0x61#8])).params = (holding 64 64 [0x61#8]).params ∧
    (raise .outFull 0 (holding 64 64 [0x61#8])).inLen = (holding 64 64 [0x61#8]).inLen ∧
    (∀ a < 1, (raise .outFull 0 (holding 64 64 [0x61#8])).inByte a = (holding 64 64 [0x61#8]).inByte a) ∧
    nextSat (exec .compress (raise .outFull 0 (holding 64 64 [0x61#8]))) (fun t => t.status.state == .done) = true := by
  refine ⟨rfl, rfl, fun _ _ => rfl, by decide +kernel⟩

theorem witness_EveryCommandEnds :
    (asked 64 64 [.writeReg 0 0xffffffff]).status.state ≠ .busy ∧
    (asked 64 64 [.writeReg 0 0xffffffff]).hostQueue = .writeReg 0 0xffffffff :: [] := by decide

theorem witness_FlagsAfterSuccess :
    nextSat (exec .compress (holding 64 64 [0x61#8])) (fun t => t.status.state == .done) = true ∧
    nextSat (exec .decompress (holding 64 64 (List.replicate 8 0))) (fun t => t.status.state == .done) = true := by
  decide +kernel

/-- A result of the size that is reported, and the capacity that is always enough. -/
theorem witness_CompressedSizeIsBounded :
    (holding 64 64 [0x61#8]).inLen ≠ 0 ∧
    nextSat (exec .compress (holding 64 64 [0x61#8])) (fun t => t.status.state == .done) = true ∧
    ((holding 1 34184 [0x61#8]).inLen ≤ (holding 1 34184 [0x61#8]).params.inCap ∧
      (holding 1 34184 [0x61#8]).inLen.toNat + 34183 ≤ (holding 1 34184 [0x61#8]).params.outCap.toNat) := by
  refine ⟨by decide, by decide +kernel, by decide, by decide⟩

theorem witness_DecodedLengthIsBounded :
    nextSat (exec .decompress (holding 64 64 good)) (fun t => t.status.state == .done) = true := by decide +kernel

end Sys2Proof.Tests
end

section
/-! PROOFS. The FrequencyAnalyzer (R110 to R114): what the counters hold after FREQ, and that FREQ completes. -/

namespace Sys2Proof.Machine

/-- One step of the count (R112): the counter of the byte read goes up by 1, the others stay. -/
theorem byteGet_tally (f : ByteTable Word) (x b : Byte) :
    byteGet (tally f x) b = if b = x then byteGet f b + 1 else byteGet f b := by
  by_cases h : b = x <;> simp [tally, byteGet_byteSet, h]

/-- Counting goes on from whatever the counters hold, modulo 2^32 (R9). -/
theorem byteGet_foldl_tally (bs : List Byte) (f : ByteTable Word) (b : Byte) :
    byteGet (bs.foldl tally f) b = byteGet f b + BitVec.ofNat 32 (bs.count b) := by
  induction bs generalizing f with
  | nil => simp
  | cons x xs ih =>
    rw [List.foldl_cons, ih, byteGet_tally]
    by_cases h : b = x
    · subst h
      rw [if_pos rfl, List.count_cons_self, BitVec.ofNat_add, BitVec.add_assoc, BitVec.add_comm 1]
      rfl
    · rw [if_neg h, List.count_cons_of_ne (Ne.symm h)]

/-- No counter wraps on an input shorter than 2^32 bytes, since a count is at most the length. -/
theorem toNat_byteGet_frequencies {bs : List Byte} (h : bs.length < 2 ^ 32) (b : Byte) :
    (byteGet (frequencies bs) b).toNat = bs.count b := by
  have hlt : bs.count b < 2 ^ 32 := List.count_le_length.trans_lt h
  rw [frequencies, byteGet_foldl_tally, byteGet_replicate, BitVec.ofNat_eq_ofNat, BitVec.zero_add,
    BitVec.toNat_ofNat, Nat.mod_eq_of_lt hlt]

/-- The input of a machine is shorter than 2^32 bytes, the range of `IN_LEN` (R22). -/
theorem length_inputBytes_lt (s : State) : (inputBytes s).length < 2 ^ 32 := by
  rw [inputBytes, length_memRead]
  exact s.inLen.isLt

/-- FREQ completes on every input IN can hold: the converse of `execFreq_next`. -/
theorem execFreq_run {s : State} (h : s.inLen ≤ s.params.inCap) :
    execFreq s = .next { s with
      phase := 0x10#8
      int := { s.int with freq := frequencies (inputBytes s), icur := s.inLen } } := by
  rw [execFreq, checkInput_ok h]
  rfl

/-- Settles O20: FREQ completes, and its counters are the counts since none of them can wrap. -/
theorem freqCountsEveryByte : Obligations.FreqCountsEveryByte := by
  intro s h
  exact ⟨_, execFreq_run h, toNat_byteGet_frequencies (length_inputBytes_lt s), rfl⟩

end Sys2Proof.Machine
end

section
/-! PROOFS. The heap of the TreeBuilder (R32, R121, R123, R124): the key as one number, the two sift loops, and what
PQ_INSERT and PQ_EXTRACT_MIN make of a min-heap. -/

namespace Sys2Proof
open Machine

/-! ## The key (R121) -/

/-- The key of R121 as one number: an index has 9 bits, so the lexicographic order is the order of these numbers. -/
def keyOf (m : Internals) (n : NodeIdx) : Nat := (nodeAt m n).freq.toNat * 512 + n.toNat

theorem keyLess_iff (m : Internals) (a b : NodeIdx) : keyLess m a b = true ↔ keyOf m a < keyOf m b := by
  have ha := a.isLt
  have hb := b.isLt
  simp only [keyLess, Bool.or_eq_true, Bool.and_eq_true, decide_eq_true_eq, BitVec.lt_def, ← BitVec.toNat_inj, keyOf]
  omega

/-- Keys of distinct nodes are never equal (R121). -/
theorem keyOf_inj {m : Internals} {a b : NodeIdx} (h : keyOf m a = keyOf m b) : a = b := by
  have ha := a.isLt
  have hb := b.isLt
  simp only [keyOf] at h
  exact BitVec.eq_of_toNat_eq (by omega)

/-- Between allocated nodes the order of the specification is the order of the keys. -/
theorem precedes_iff {m : Internals} {a b : NodeIdx} (ha : a.toNat < m.node.length) (hb : b.toNat < m.node.length) :
    Precedes m a b ↔ keyOf m a < keyOf m b := by
  have ea := List.getElem?_eq_getElem ha
  have eb := List.getElem?_eq_getElem hb
  rw [← keyLess_iff]
  simp [Precedes, keyLess, nodeAt_of_getElem? ea, nodeAt_of_getElem? eb, ea, eb]

/-- An entry of a list stays when the list is extended. -/
theorem getElem?_append_of_some {α : Type} {l xs : List α} {i : Nat} {x : α} (h : l[i]? = some x) :
    (l ++ xs)[i]? = some x := by
  rw [List.getElem?_append_left (List.getElem?_eq_some_iff.mp h).1, h]

/-- The key order looks at allocated entries alone, so it stays when the arena grows. -/
theorem Precedes.append {m k : Internals} {a b : NodeIdx} {xs : List Node} (h : Precedes m a b)
    (hk : k.node = m.node ++ xs) : Precedes k a b := by
  obtain ⟨x, y, hx, hy, hxy⟩ := h
  exact ⟨x, y, hk ▸ getElem?_append_of_some hx, hk ▸ getElem?_append_of_some hy, hxy⟩

theorem Precedes.freq_le {m : Internals} {a b : NodeIdx} {x y : Node} (h : Precedes m a b)
    (hx : m.node[a.toNat]? = some x) (hy : m.node[b.toNat]? = some y) : x.freq.toNat ≤ y.freq.toNat := by
  obtain ⟨x', y', hx', hy', hxy⟩ := h
  cases hx.symm.trans hx'
  cases hy.symm.trans hy'
  rcases hxy with hlt | ⟨heq, -⟩
  · exact Nat.le_of_lt hlt
  · exact (congrArg BitVec.toNat heq).le

/-! ## Slots -/

/-- `key(HEAP[i])`. -/
def slotKey (m : Internals) (h : List NodeIdx) (i : Nat) : Nat := keyOf m (heapAt h i)

theorem slotLess_iff (m : Internals) (h : List NodeIdx) (i j : Nat) :
    slotLess m h i j = true ↔ slotKey m h i < slotKey m h j := keyLess_iff m _ _

theorem heapAt_swapSlots {h : List NodeIdx} {i j : Nat} (hi : i < h.length) (hj : j < h.length) (k : Nat) :
    heapAt (swapSlots h i j) k = if k = j then heapAt h i else if k = i then heapAt h j else heapAt h k := by
  unfold swapSlots
  rw [List.getElem?_eq_getElem hi, List.getElem?_eq_getElem hj]
  simp only [heapAt, List.getElem?_set, List.length_set]
  by_cases hkj : k = j
  · subst hkj
    simp [hi, hj]
  · by_cases hki : k = i
    · subst hki
      simp [hi, hj, hkj, Ne.symm hkj]
    · simp [hkj, hki, Ne.symm hkj, Ne.symm hki]

theorem slotKey_swapSlots (m : Internals) {h : List NodeIdx} {i j : Nat} (hi : i < h.length) (hj : j < h.length)
    (k : Nat) : slotKey m (swapSlots h i j) k =
      if k = j then slotKey m h i else if k = i then slotKey m h j else slotKey m h k := by
  simp only [slotKey, heapAt_swapSlots hi hj]
  split_ifs <;> rfl

/-- No slot has a lower key than its parent: the order of R32 in terms of `slotKey`. -/
def HeapOrdered (m : Internals) (h : List NodeIdx) : Prop :=
  ∀ i, 0 < i → i < h.length → slotKey m h ((i - 1) / 2) ≤ slotKey m h i

/-- In an ordered heap the top slot has the least key. -/
theorem HeapOrdered.top_le {m : Internals} {h : List NodeIdx} (ho : HeapOrdered m h) (i : Nat) (hi : i < h.length) :
    slotKey m h 0 ≤ slotKey m h i := by
  induction i using Nat.strong_induction_on with
  | _ i ih =>
    rcases Nat.eq_zero_or_pos i with rfl | hpos
    · exact Nat.le_refl _
    · exact (ih ((i - 1) / 2) (by omega) (by omega)).trans (ho i hpos hi)

/-- The heap invariant of R32 is the order of the slots together with what the heap holds. -/
theorem heapInv_iff {m : Internals} : HeapInv m ↔
    (∀ n ∈ m.heap, n.toNat < m.node.length) ∧ m.heap.Nodup ∧ m.heap.length ≤ 256 ∧ HeapOrdered m m.heap := by
  constructor
  · rintro ⟨hin, hnd, hfit, ho⟩
    refine ⟨hin, hnd, hfit, fun i hpos hi => ?_⟩
    have hp : (i - 1) / 2 < m.heap.length := by omega
    have := (precedes_iff (hin _ (List.getElem_mem hp)) (hin _ (List.getElem_mem hi))).mp
      (ho i _ _ hpos (List.getElem?_eq_getElem hp) (List.getElem?_eq_getElem hi))
    simpa [slotKey, heapAt_of_lt hp, heapAt_of_lt hi] using this.le
  · rintro ⟨hin, hnd, hfit, ho⟩
    refine ⟨hin, hnd, hfit, fun i a b hpos ha hb => ?_⟩
    obtain ⟨hp, rfl⟩ := List.getElem?_eq_some_iff.mp ha
    obtain ⟨hi, rfl⟩ := List.getElem?_eq_some_iff.mp hb
    rw [precedes_iff (hin _ (List.getElem_mem hp)) (hin _ (List.getElem_mem hi))]
    have hle : keyOf m m.heap[(i - 1) / 2] ≤ keyOf m m.heap[i] := by
      simpa [slotKey, heapAt_of_lt hp, heapAt_of_lt hi] using ho i hpos hi
    refine lt_of_le_of_ne hle fun e => ?_
    have := (List.Nodup.getElem_inj_iff hnd).mp (keyOf_inj e)
    omega

/-- The heap invariant looks at the allocated entries and the heap alone. -/
theorem HeapInv.append {m k : Internals} (h : HeapInv m) {xs : List Node} (hn : k.node = m.node ++ xs)
    (hh : k.heap = m.heap) : HeapInv k where
  inArena n hm := by
    rw [hn, List.length_append]
    exact Nat.lt_add_right _ (h.inArena n (hh ▸ hm))
  nodup := hh ▸ h.nodup
  fits := hh ▸ h.fits
  ordered i a b hpos ha hb := (h.ordered i a b hpos (hh ▸ ha) (hh ▸ hb)).append hn

theorem HeapInv.congr {m k : Internals} (h : HeapInv m) (hn : k.node = m.node) (hh : k.heap = m.heap) : HeapInv k :=
  h.append (xs := []) (by rw [hn, List.append_nil]) hh

/-! ## The sift loops -/

/-- The loop of PQ_INSERT orders a heap in which only slot `i` may have a lower key than its parent, and in which the
children of `i` do not have lower keys than that parent. -/
theorem siftUp_ordered (m : Internals) (f i : Nat) (h : List NodeIdx) (hi : i < h.length) (hf : i ≤ f)
    (hrest : ∀ j, 0 < j → j < h.length → j ≠ i → slotKey m h ((j - 1) / 2) ≤ slotKey m h j)
    (hgrand : ∀ j, 0 < i → j < h.length → (j - 1) / 2 = i → slotKey m h ((i - 1) / 2) ≤ slotKey m h j) :
    HeapOrdered m (siftUp m f i h) := by
  induction f generalizing i h with
  | zero => exact fun j hpos hj => hrest j hpos hj (by omega)
  | succ f ih =>
    rw [siftUp]
    dsimp only
    split_ifs with hzero hless
    · exact fun j hpos hj => hrest j hpos hj (by omega)
    · rw [slotLess_iff] at hless
      obtain ⟨p, hpe⟩ : ∃ p, p = (i - 1) / 2 := ⟨_, rfl⟩
      rw [← hpe] at hless hgrand ⊢
      have hp : p < h.length := by omega
      have hpi : p ≠ i := by omega
      refine ih _ _ (by simpa using hp) (by omega) (fun j hpos hj hne => ?_) (fun j hpos hj hpar => ?_) <;>
        rw [length_swapSlots] at hj <;> simp only [slotKey_swapSlots m hi hp]
      · have hj' := hrest j hpos hj
        have hg := hgrand j (by omega) hj
        by_cases hpar : (j - 1) / 2 = p
        · rw [hpar] at hj' ⊢
          split_ifs <;> omega
        · split_ifs <;> omega
      · have hj' := hrest j (by omega) hj
        have hp' := hrest p hpos hp hpi
        rw [hpar] at hj'
        split_ifs <;> omega
    · rw [slotLess_iff] at hless
      intro j hpos hj
      rcases eq_or_ne j i with rfl | hne
      · omega
      · exact hrest j hpos hj hne

/-- The child test of PQ_EXTRACT_MIN picks a slot of the heap with the lower key of the two. -/
theorem lowerSlot_spec (m : Internals) (h : List NodeIdx) (c i : Nat) :
    (lowerSlot m h c i = i ∨ (lowerSlot m h c i = c ∧ c < h.length)) ∧
      slotKey m h (lowerSlot m h c i) ≤ slotKey m h i ∧
      (c < h.length → slotKey m h (lowerSlot m h c i) ≤ slotKey m h c) := by
  unfold lowerSlot
  simp only [slotLess_iff]
  split_ifs with hc
  · exact ⟨.inr ⟨rfl, hc.1⟩, hc.2.le, fun _ => le_rfl⟩
  · exact ⟨.inl rfl, le_rfl, fun hl => Nat.le_of_not_lt fun hk => hc ⟨hl, hk⟩⟩

/-- The loop of PQ_EXTRACT_MIN orders a heap in which only the children of slot `i` may have a lower key than their
parent, and in which these do not have lower keys than the parent of `i`. -/
theorem siftDown_ordered (m : Internals) (f i : Nat) (h : List NodeIdx) (hf : h.length ≤ i + f)
    (hrest : ∀ j, 0 < j → j < h.length → (j - 1) / 2 ≠ i → slotKey m h ((j - 1) / 2) ≤ slotKey m h j)
    (hgrand : ∀ j, 0 < i → j < h.length → (j - 1) / 2 = i → slotKey m h ((i - 1) / 2) ≤ slotKey m h j) :
    HeapOrdered m (siftDown m f i h) := by
  induction f generalizing i h with
  | zero =>
    intro j hpos hj
    rw [siftDown] at hj
    exact hrest j hpos hj (by omega)
  | succ f ih =>
    rw [siftDown]
    obtain ⟨hc1, hle1, hch1⟩ := lowerSlot_spec m h (2 * i + 1) i
    obtain ⟨hc2, hle2, hch2⟩ := lowerSlot_spec m h (2 * i + 2) (lowerSlot m h (2 * i + 1) i)
    generalize lowerSlot m h (2 * i + 1) i = q1 at *
    generalize lowerSlot m h (2 * i + 2) q1 = q at *
    have hchild : ∀ j, j < h.length → (j - 1) / 2 = i → 0 < j → slotKey m h q ≤ slotKey m h j := by
      intro j hj hpar hpos
      rcases (by omega : j = 2 * i + 1 ∨ j = 2 * i + 2) with rfl | rfl
      · exact hle2.trans (hch1 hj)
      · exact hch2 hj
    split_ifs with hq
    · intro j hpos hj
      by_cases hpar : (j - 1) / 2 = i
      · rw [hpar]
        exact hq ▸ hchild j hj hpar hpos
      · exact hrest j hpos hj hpar
    · have hql : q < h.length := by omega
      have hil : i < h.length := by omega
      have hqi : (q - 1) / 2 = i := by omega
      refine ih _ _ (by simpa using by omega) (fun j hpos hj hne => ?_) (fun j hpos hj hpar => ?_) <;>
        rw [length_swapSlots] at hj <;> simp only [slotKey_swapSlots m hil hql]
      · rw [if_neg hne]
        have hj' := hrest j hpos hj
        have hc := fun hpar => hchild j hj hpar hpos
        by_cases hji : j = i
        · subst hji
          have hg := hgrand q hpos hql hqi
          rw [if_neg (by omega), if_neg (by omega), if_pos rfl]
          exact hg
        · split_ifs <;> omega
      · have hj' := hrest j (by omega) hj
        rw [hqi, if_neg (Ne.symm hq), if_pos rfl, if_neg (by omega), if_neg (by omega)]
        rw [hpar] at hj'
        omega

/-! ## The primitives on a min-heap (R123, R124) -/

/-- PQ_INSERT of an allocated node that is not in the heap, into a min-heap with room, gives a min-heap with it. -/
theorem pqInsert_heapInv {m : Internals} (h : HeapInv m) (ha : m.opA.toNat < m.node.length)
    (hroom : m.heap.length < 256) (hnew : m.opA ∉ m.heap) :
    ∃ hp, pqInsert m = .ok { m with heap := hp } ∧ hp.Perm (m.opA :: m.heap) ∧ HeapInv { m with heap := hp } := by
  obtain ⟨hin, hnd, hfit, ho⟩ := heapInv_iff.mp h
  have hperm : (siftUp m m.heap.length m.heap.length (m.heap ++ [m.opA])).Perm (m.opA :: m.heap) :=
    (siftUp_perm _ _ _ _).trans (List.perm_append_singleton _ _)
  refine ⟨_, pqInsert_run hroom hnew, hperm, heapInv_iff.mpr ⟨fun n hn => ?_, ?_, ?_, ?_⟩⟩
  · rcases List.mem_cons.mp (hperm.mem_iff.mp hn) with rfl | hn
    · exact ha
    · exact hin n hn
  · exact hperm.nodup_iff.mpr (List.nodup_cons.mpr ⟨hnew, hnd⟩)
  · rw [hperm.length_eq]
    exact hroom
  · have hold : ∀ j, j < m.heap.length → slotKey m (m.heap ++ [m.opA]) j = slotKey m m.heap j := fun j hj => by
      simp [slotKey, heapAt, List.getElem?_append_left hj]
    refine siftUp_ordered m _ _ _ (by simp) le_rfl (fun j hpos hj hne => ?_) (fun j _ hj hpar => ?_) <;>
      rw [List.length_append, List.length_singleton] at hj
    · rw [hold j (by omega), hold _ (by omega)]
      exact ho j hpos (by omega)
    · omega

/-- The top of a min-heap precedes every other node of it. -/
theorem HeapInv.top_precedes {m : Internals} (h : HeapInv m) {r : NodeIdx} {rest : List NodeIdx}
    (hr : m.heap = r :: rest) : ∀ n ∈ rest, Precedes m r n := by
  obtain ⟨hin, hnd, -, ho⟩ := heapInv_iff.mp h
  intro n hn
  have hnd := hr ▸ hnd
  rw [precedes_iff (hin r (by simp [hr])) (hin n (by simp [hr, hn]))]
  obtain ⟨i, hi, rfl⟩ := List.getElem_of_mem hn
  have hle := ho.top_le (i + 1) (by simpa [hr] using hi)
  have hle : keyOf m r ≤ keyOf m rest[i] := by simpa [slotKey, heapAt, hr, hi] using hle
  exact lt_of_le_of_ne hle fun e => (List.nodup_cons.mp hnd).1 (keyOf_inj e ▸ hn)

/-- What is left of a min-heap without one node is a min-heap if its slots are ordered. -/
theorem HeapInv.of_perm_cons {m : Internals} (h : HeapInv m) {r : NodeIdx} {hp : List NodeIdx}
    (hperm : m.heap.Perm (r :: hp)) (ho : HeapOrdered m hp) : HeapInv { m with heap := hp, res := r } := by
  obtain ⟨hin, hnd, hfit, -⟩ := heapInv_iff.mp h
  rw [hperm.length_eq] at hfit
  exact heapInv_iff.mpr ⟨fun n hn => hin n (hperm.mem_iff.mpr (List.mem_cons_of_mem r hn)),
    (List.nodup_cons.mp (hperm.nodup_iff.mp hnd)).2, Nat.le_of_succ_le hfit, ho⟩

theorem pqExtractMin_singleton {m : Internals} {r : NodeIdx} (h : m.heap = [r]) :
    pqExtractMin m = .ok { m with heap := [], res := r } := by
  rw [pqExtractMin, h]
  rfl

theorem pqExtractMin_concat {m : Internals} {r last : NodeIdx} {ys : List NodeIdx}
    (h : m.heap = r :: (ys ++ [last])) :
    pqExtractMin m = .ok { m with heap := siftDown m (ys.length + 1) 0 (last :: ys), res := r } := by
  rw [pqExtractMin, h]
  simp only [List.getLast?_concat, List.dropLast_concat, List.length_append, List.length_singleton]
  rfl

/-- With the last node in the place of the top, only the children of the top can be out of order. -/
theorem HeapOrdered.siftDown_top {m : Internals} {r last : NodeIdx} {ys : List NodeIdx}
    (ho : HeapOrdered m (r :: (ys ++ [last]))) : HeapOrdered m (siftDown m (ys.length + 1) 0 (last :: ys)) := by
  have hold : ∀ j, 0 < j → j < (last :: ys).length →
      slotKey m (last :: ys) j = slotKey m (r :: (ys ++ [last])) j := by
    intro j hpos hj
    obtain ⟨j, rfl⟩ := Nat.exists_eq_succ_of_ne_zero hpos.ne'
    have hj : j < ys.length := by simpa using hj
    simp [slotKey, heapAt, List.getElem?_append_left hj]
  refine siftDown_ordered m _ _ _ (by simp) (fun j hpos hj hpar => ?_) (fun j hpos => absurd hpos (Nat.lt_irrefl 0))
  rw [hold j hpos hj, hold _ (by omega) (by omega)]
  exact ho j hpos (by simp only [List.length_cons, List.length_append] at hj ⊢; omega)

/-- PQ_EXTRACT_MIN of a non-empty min-heap takes out the node that precedes all others, and leaves a min-heap. -/
theorem pqExtractMin_heapInv {m : Internals} (h : HeapInv m) (hne : m.heap ≠ []) :
    ∃ r hp, pqExtractMin m = .ok { m with heap := hp, res := r } ∧ m.heap.Perm (r :: hp) ∧
      (∀ n ∈ hp, Precedes m r n) ∧ HeapInv { m with heap := hp, res := r } := by
  obtain ⟨-, -, -, ho⟩ := heapInv_iff.mp h
  obtain ⟨r, rest, hr⟩ := List.exists_cons_of_ne_nil hne
  rcases List.eq_nil_or_concat' rest with rfl | ⟨ys, last, rfl⟩
  · exact ⟨r, [], pqExtractMin_singleton hr, hr ▸ List.Perm.refl _, by simp,
      h.of_perm_cons (hr ▸ List.Perm.refl _) fun i _ hi => absurd hi (Nat.not_lt_zero i)⟩
  · have hsift : (siftDown m (ys.length + 1) 0 (last :: ys)).Perm (ys ++ [last]) :=
      (siftDown_perm _ _ _ _).trans (List.perm_append_singleton last ys).symm
    have hperm : m.heap.Perm (r :: siftDown m (ys.length + 1) 0 (last :: ys)) := hr ▸ hsift.symm.cons r
    exact ⟨r, _, pqExtractMin_concat hr, hperm, fun n hn => h.top_precedes hr n (hsift.mem_iff.mp hn),
      h.of_perm_cons hperm (hr ▸ ho).siftDown_top⟩

end Sys2Proof
end

section
/-! PROOFS. Weighted binary trees and the exchange argument for the optimality of Huffman's construction (R131): trees
are placed at depths that satisfy Kraft's inequality, and a merge of the two lightest keeps a placement as cheap. -/

namespace Sys2Proof
open Machine

/-- A binary tree whose leaves carry a byte value and its count: what the arena holds under a node (R34). -/
inductive CountTree where
  | leaf (e : Byte × Word)
  | node (l r : CountTree)

namespace CountTree

/-- The leaves from left to right. -/
def leaves : CountTree → List (Byte × Word)
  | leaf e => [e]
  | node l r => l.leaves ++ r.leaves

/-- The sum of the counts. -/
def weight (t : CountTree) : Nat := (t.leaves.map (fun e => e.2.toNat)).sum

/-- The sum of count times depth over the leaves when the root stands at depth `d`. -/
def costAt : CountTree → Nat → Nat
  | leaf e, d => e.2.toNat * d
  | node l r, d => l.costAt (d + 1) + r.costAt (d + 1)

@[simp] theorem weight_leaf (e : Byte × Word) : (leaf e).weight = e.2.toNat := by simp [weight, leaves]

@[simp] theorem weight_node (l r : CountTree) : (node l r).weight = l.weight + r.weight := by simp [weight, leaves]

/-- A tree one level deeper costs its weight more. -/
theorem costAt_add (t : CountTree) (d k : Nat) : t.costAt (d + k) = t.costAt d + t.weight * k := by
  induction t generalizing d with
  | leaf e => simp [costAt, Nat.mul_add]
  | node l r ihl ihr =>
    simp only [costAt, weight_node, Nat.add_right_comm d k 1, ihl, ihr, Nat.add_mul]
    omega

/-- Exchanging the depths of a lighter tree and a heavier one that stands deeper is no loss. -/
theorem costAt_exchange {t u : CountTree} (hw : t.weight ≤ u.weight) {d e : Nat} (hde : d ≤ e) :
    t.costAt e + u.costAt d ≤ t.costAt d + u.costAt e := by
  obtain ⟨k, rfl⟩ := Nat.exists_eq_add_of_le hde
  have := Nat.mul_le_mul_right k hw
  simp only [costAt_add]
  omega

end CountTree

/-! ## Placements -/

/-- Kraft's sum of some depths (R131). -/
noncomputable def kraftSum (ds : Multiset Nat) : ℝ := (ds.map (fun d => (1 / 2 : ℝ) ^ d)).sum

@[simp] theorem kraftSum_cons (d : Nat) (ds : Multiset Nat) : kraftSum (d ::ₘ ds) = (1 / 2) ^ d + kraftSum ds := by
  simp [kraftSum]

theorem kraftSum_add (ds es : Multiset Nat) : kraftSum (ds + es) = kraftSum ds + kraftSum es := by
  simp [kraftSum]

/-- The cost of trees that stand at the given depths. -/
def placementCost (P : Multiset (CountTree × Nat)) : Nat := (P.map (fun q => q.1.costAt q.2)).sum

@[simp] theorem placementCost_cons (q : CountTree × Nat) (P : Multiset (CountTree × Nat)) :
    placementCost (q ::ₘ P) = q.1.costAt q.2 + placementCost P := by
  simp [placementCost]

/-- The trees of a forest can stand at depths that satisfy Kraft's inequality, at a cost of at most `C`. -/
def Placeable (C : Nat) (F : Multiset CountTree) : Prop :=
  ∃ P : Multiset (CountTree × Nat), P.map Prod.fst = F ∧ kraftSum (P.map Prod.snd) ≤ 1 ∧ placementCost P ≤ C

/-- A tree that is lighter than all others can be made the deepest, by exchanges of depths, at no cost. -/
theorem exists_deepest (t : CountTree) (d : Nat) (P : Multiset (CountTree × Nat))
    (hmin : ∀ q ∈ P, t.weight ≤ q.1.weight) :
    ∃ (e : Nat) (Q : Multiset (CountTree × Nat)), Q.map Prod.fst = P.map Prod.fst ∧
      e ::ₘ Q.map Prod.snd = d ::ₘ P.map Prod.snd ∧ (∀ q ∈ Q, q.2 ≤ e) ∧
      t.costAt e + placementCost Q ≤ t.costAt d + placementCost P := by
  induction P using Multiset.induction with
  | empty => exact ⟨d, 0, rfl, rfl, by simp, le_rfl⟩
  | cons q P ih =>
    obtain ⟨e, Q, hfst, hsnd, hdeep, hcost⟩ := ih fun q' hq' => hmin q' (Multiset.mem_cons_of_mem hq')
    rcases le_total q.2 e with hle | hle
    · refine ⟨e, q ::ₘ Q, by simp [hfst], ?_, ?_, ?_⟩
      · rw [Multiset.map_cons, Multiset.cons_swap, hsnd, Multiset.map_cons, Multiset.cons_swap]
      · simpa using And.intro hle fun t k hk => hdeep (t, k) hk
      · simp only [placementCost_cons]
        omega
    · have hex := CountTree.costAt_exchange (hmin q (Multiset.mem_cons_self q P)) hle
      refine ⟨q.2, (q.1, e) ::ₘ Q, by simp [hfst], ?_, ?_, ?_⟩
      · rw [Multiset.map_cons, hsnd, Multiset.map_cons, Multiset.cons_swap]
      · simpa using And.intro hle fun t' k hk => (hdeep (t', k) hk).trans hle
      · simp only [placementCost_cons]
        omega

/-- Kraft's sum of depths up to `e` is a multiple of `2^(-e)`. -/
theorem kraftSum_eq_mul {ds : Multiset Nat} {e : Nat} (h : ∀ d ∈ ds, d ≤ e) :
    ∃ A : Nat, kraftSum ds = A * (1 / 2) ^ e := by
  induction ds using Multiset.induction with
  | empty => exact ⟨0, by simp [kraftSum]⟩
  | cons d ds ih =>
    obtain ⟨A, hA⟩ := ih fun d' hd' => h d' (Multiset.mem_cons_of_mem hd')
    obtain ⟨k, rfl⟩ := Nat.exists_eq_add_of_le (h d (Multiset.mem_cons_self d ds))
    refine ⟨2 ^ k + A, ?_⟩
    have : (2 : ℝ) ^ k * (1 / 2) ^ k = 1 := by rw [← mul_pow]; norm_num
    rw [kraftSum_cons, hA, pow_add]
    push_cast
    linear_combination (-(1 / 2 : ℝ) ^ d) * this

/-- If one depth is larger than all others, it can be lowered to the next largest: the slack in Kraft's inequality is a
multiple of that one's share. The two then have a parent, one level up. -/
theorem kraftSum_lower {d e : Nat} {ds : Multiset Nat} (hds : ∀ k ∈ ds, k ≤ e)
    (hk : kraftSum (d ::ₘ e ::ₘ ds) ≤ 1) : ∃ p, e = p + 1 ∧ kraftSum (p ::ₘ ds) ≤ 1 := by
  obtain ⟨A, hA⟩ := kraftSum_eq_mul hds
  have hpos : (0 : ℝ) < (1 / 2) ^ d := by positivity
  have hinv : (2 : ℝ) ^ e * (1 / 2) ^ e = 1 := by rw [← mul_pow]; norm_num
  rw [kraftSum_cons, kraftSum_cons, hA] at hk
  have hlt : ((1 + A : ℕ) : ℝ) < ((2 ^ e : ℕ) : ℝ) := by
    push_cast
    calc (1 + A : ℝ) = 2 ^ e * ((1 + A) * (1 / 2) ^ e) := by linear_combination -(1 + A : ℝ) * hinv
      _ < 2 ^ e * 1 := by gcongr; linarith
      _ = 2 ^ e := mul_one _
  have hlt : 1 + A < 2 ^ e := by exact_mod_cast hlt
  obtain ⟨p, rfl⟩ : ∃ p, e = p + 1 := by
    cases e with
    | zero => simp at hlt
    | succ p => exact ⟨p, rfl⟩
  refine ⟨p, rfl, ?_⟩
  have hle : ((2 + A : ℕ) : ℝ) ≤ ((2 ^ (p + 1) : ℕ) : ℝ) := by exact_mod_cast (by omega)
  push_cast at hle
  rw [kraftSum_cons, hA]
  calc (1 / 2 : ℝ) ^ p + A * (1 / 2) ^ (p + 1) = (2 + A) * (1 / 2) ^ (p + 1) := by ring
    _ ≤ 2 ^ (p + 1) * (1 / 2) ^ (p + 1) := by gcongr
    _ = 1 := hinv

/-- A placement of a forest places each of its trees somewhere. -/
theorem exists_cons_of_map_fst_eq_cons {P : Multiset (CountTree × Nat)} {t : CountTree} {F : Multiset CountTree}
    (h : P.map Prod.fst = t ::ₘ F) : ∃ d Q, P = (t, d) ::ₘ Q ∧ Q.map Prod.fst = F := by
  classical
  obtain ⟨⟨_, d⟩, hmem, rfl, hQ⟩ := (Multiset.map_eq_cons _ _ _ _).mpr h
  exact ⟨d, _, (Multiset.cons_erase hmem).symm, hQ⟩

/-- The step of Huffman's construction: with the two lightest trees as siblings the forest is as cheap to place. The
lightest becomes the deepest, the second lightest the deepest of the others, and the lightest comes up to it. -/
theorem Placeable.merge {C : Nat} {t u : CountTree} {F : Multiset CountTree} (h : Placeable C (t ::ₘ u ::ₘ F))
    (ht : ∀ v ∈ u ::ₘ F, t.weight ≤ v.weight) (hu : ∀ v ∈ F, u.weight ≤ v.weight) :
    Placeable C (.node t u ::ₘ F) := by
  obtain ⟨P, hP, hk, hc⟩ := h
  obtain ⟨d₀, P, rfl, hF⟩ := exists_cons_of_map_fst_eq_cons hP
  obtain ⟨d, Q, hfst, hsnd, hd, hcQ⟩ := exists_deepest t d₀ P fun q hq =>
    ht _ (hF ▸ Multiset.mem_map_of_mem Prod.fst hq)
  obtain ⟨e₀, Q, rfl, hQ⟩ := exists_cons_of_map_fst_eq_cons (hfst.trans hF)
  obtain ⟨e, R, hfst', hsnd', he, hcR⟩ := exists_deepest u e₀ Q fun q hq =>
    hu _ (hQ ▸ Multiset.mem_map_of_mem Prod.fst hq)
  have hed : e ≤ d := by
    have : e ∈ e₀ ::ₘ Q.map Prod.snd := hsnd' ▸ Multiset.mem_cons_self e _
    rw [← Multiset.map_cons Prod.snd (u, e₀) Q] at this
    obtain ⟨q, hq, rfl⟩ := Multiset.mem_map.mp this
    exact hd q hq
  have hkR : kraftSum (d ::ₘ e ::ₘ R.map Prod.snd) ≤ 1 := by
    rw [hsnd', ← Multiset.map_cons Prod.snd (u, e₀) Q, hsnd, ← Multiset.map_cons Prod.snd (t, d₀) P]
    exact hk
  have heR : ∀ k ∈ R.map Prod.snd, k ≤ e := fun k hk => by
    obtain ⟨q, hq, rfl⟩ := Multiset.mem_map.mp hk
    exact he q hq
  obtain ⟨p, rfl, hkp⟩ := kraftSum_lower heR hkR
  obtain ⟨k, rfl⟩ := Nat.exists_eq_add_of_le hed
  have := t.costAt_add (p + 1) k
  refine ⟨(.node t u, p) ::ₘ R, by rw [Multiset.map_cons, hfst', hQ], by rwa [Multiset.map_cons], ?_⟩
  simp only [placementCost_cons, CountTree.costAt] at *
  omega

/-- A single tree that can be placed at a cost of `C` costs at most `C` at the top. -/
theorem Placeable.costAt_le {C : Nat} {t : CountTree} (h : Placeable C {t}) : t.costAt 0 ≤ C := by
  obtain ⟨P, hP, -, hc⟩ := h
  obtain ⟨⟨t, d⟩, rfl, rfl⟩ := Multiset.map_eq_singleton.mp hP
  have := t.costAt_add 0 d
  simp only [placementCost, Multiset.map_singleton, Multiset.sum_singleton] at hc
  rw [Nat.zero_add] at this
  dsimp only
  omega

end Sys2Proof
end

section
/-! PROOFS. The arena while BUILD runs (R34, R122, R125): a forest whose roots are the heap's nodes, and the tree it is
when one root is left. -/

namespace Sys2Proof
open Machine

/-! ## Nodes -/

/-- The children of a node; a leaf has none (R31). -/
def Machine.Node.children : Node → List NodeIdx
  | .leaf _ _ => []
  | .inner _ l r => [l, r]

/-- The byte value and the count of a leaf. -/
def Machine.Node.entry : Node → Option (Byte × Word)
  | .leaf f b => some (b, f)
  | .inner _ _ _ => none

theorem entry_eq_some {x : Node} {b : Byte} {f : Word} : x.entry = some (b, f) ↔ x = .leaf f b := by
  cases x <;> simp [Node.entry, and_comm]

/-- Every node has two children or is a leaf, so children and leaves count the nodes. -/
theorem length_children_add (node : List Node) :
    (node.flatMap Node.children).length + 2 * (node.filterMap Node.entry).length = 2 * node.length := by
  induction node with
  | nil => rfl
  | cons x node ih =>
    cases x <;> simp [Node.children, Node.entry, List.filterMap_cons] at ih ⊢ <;> omega

theorem childOf_iff {m : Internals} {n p : NodeIdx} :
    ChildOf m n p ↔ ∃ x, m.node[p.toNat]? = some x ∧ n ∈ x.children := by
  constructor
  · rintro ⟨f, l, r, hp, hn⟩
    exact ⟨_, hp, by simpa [Node.children] using hn⟩
  · rintro ⟨_ | ⟨f, l, r⟩, hp, hn⟩
    · simp [Node.children] at hn
    · exact ⟨f, l, r, hp, by simpa [Node.children] using hn⟩

/-- An entry of an arena that has grown by one node is an old one or the new one. -/
theorem getElem?_concat_cases {α : Type} {l : List α} {x y : α} {i : Nat} (h : (l ++ [x])[i]? = some y) :
    (i < l.length ∧ l[i]? = some y) ∨ (i = l.length ∧ y = x) := by
  rcases Nat.lt_trichotomy i l.length with hi | rfl | hi
  · rw [List.getElem?_append_left hi] at h
    exact .inl ⟨hi, h⟩
  · rw [List.getElem?_concat_length] at h
    exact .inr ⟨rfl, (Option.some.inj h).symm⟩
  · rw [List.getElem?_eq_none (by simpa using hi)] at h
    cases h

/-! ## The tree under a node -/

/-- The arena has the tree under the node. -/
def IsTree (node : List Node) : NodeIdx → CountTree → Prop
  | n, .leaf e => node[n.toNat]? = some (.leaf e.2 e.1)
  | n, .node t u => ∃ f l r, node[n.toNat]? = some (.inner f l r) ∧ IsTree node l t ∧ IsTree node r u

theorem IsTree.append {node : List Node} {n : NodeIdx} {t : CountTree} (h : IsTree node n t) (xs : List Node) :
    IsTree (node ++ xs) n t := by
  induction t generalizing n with
  | leaf e => exact getElem?_append_of_some h
  | node t u iht ihu =>
    obtain ⟨f, l, r, hn, ht, hu⟩ := h
    exact ⟨f, l, r, getElem?_append_of_some hn, iht ht, ihu hu⟩

/-- Each internal frequency is the sum of the children's (R34), for every node of an arena. -/
def SumsHold (node : List Node) : Prop :=
  ∀ (i : Nat) (f : Word) (l r : NodeIdx) (x y : Node), node[i]? = some (.inner f l r) →
    node[l.toNat]? = some x → node[r.toNat]? = some y → f.toNat = x.freq.toNat + y.freq.toNat

/-- A node has the total of the counts under it (R34). -/
theorem IsTree.freq {node : List Node} {n : NodeIdx} {t : CountTree} (h : IsTree node n t) (hs : SumsHold node) :
    ∃ x, node[n.toNat]? = some x ∧ x.freq.toNat = t.weight := by
  induction t generalizing n with
  | leaf e => exact ⟨_, h, by simp [Node.freq]⟩
  | node t u iht ihu =>
    obtain ⟨f, l, r, hn, ht, hu⟩ := h
    obtain ⟨x, hx, hxw⟩ := iht ht
    obtain ⟨y, hy, hyw⟩ := ihu hu
    exact ⟨_, hn, by rw [CountTree.weight_node, ← hxw, ← hyw, ← hs _ _ _ _ _ _ hn hx hy]; rfl⟩

/-! ## The forest -/

/-- A node of the arena has the index of one of its entries. -/
theorem mem_indices (n : NodeIdx) (N : Nat) (hN : N ≤ 512) :
    n ∈ (List.range N).map (BitVec.ofNat 9) ↔ n.toNat < N := by
  simp only [List.mem_map, List.mem_range]
  constructor
  · rintro ⟨i, hi, rfl⟩
    rwa [BitVec.toNat_ofNat, Nat.mod_eq_of_lt (by omega)]
  · exact fun h => ⟨n.toNat, h, by simp⟩

theorem nodup_indices {N : Nat} (hN : N ≤ 512) : ((List.range N).map (BitVec.ofNat 9)).Nodup := by
  refine List.Nodup.map_on (fun i hi j hj h => ?_) List.nodup_range
  have := congrArg BitVec.toNat h
  rw [List.mem_range] at hi hj
  rwa [BitVec.toNat_ofNat, BitVec.toNat_ofNat, Nat.mod_eq_of_lt (by omega), Nat.mod_eq_of_lt (by omega)] at this

/-- Both children of a node are older nodes (R34), for every node of an arena. -/
def ChildrenOlder (node : List Node) : Prop :=
  ∀ (i : Nat) (x : Node) (n : NodeIdx), node[i]? = some x → n ∈ x.children → n.toNat < i

/-- The arena is a forest with the given leaves in the order of their indices, the given roots, and the trees `F` under
these. Every index is a root or a child, once: this one equation says that no node is shared, that no root is a child,
and that every other node is one. -/
structure Forest (es : List (Byte × Word)) (node : List Node) (roots : Multiset NodeIdx) (F : Multiset CountTree) :
    Prop where
  leaves : node.filterMap Node.entry = es
  indices : (↑(node.flatMap Node.children) : Multiset NodeIdx) + roots =
    ↑((List.range node.length).map (BitVec.ofNat 9))
  older : ChildrenOlder node
  sums : SumsHold node
  trees : Multiset.Rel (IsTree node) roots F
  entries : F.bind (fun t => (↑t.leaves : Multiset (Byte × Word))) = ↑es

namespace Forest

variable {es : List (Byte × Word)} {node : List Node} {roots : Multiset NodeIdx} {F : Multiset CountTree}

/-- The arena without a node. -/
theorem empty : Forest [] [] 0 0 where
  leaves := rfl
  indices := rfl
  older i x n h := by simp at h
  sums i f l r x y h := by simp at h
  trees := Multiset.Rel.zero
  entries := rfl

/-- `NODE_CNT` and the number of roots together are twice the number of leaves: a merge adds a node and removes a
root. -/
theorem length_add_card (h : Forest es node roots F) : node.length + roots.card = 2 * es.length := by
  have h1 := length_children_add node
  have h2 := congrArg Multiset.card h.indices
  rw [h.leaves] at h1
  simp only [Multiset.card_add, Multiset.coe_card, List.length_map, List.length_range] at h2
  omega

theorem root_lt (h : Forest es node roots F) (hN : node.length ≤ 512) {n : NodeIdx} (hn : n ∈ roots) :
    n.toNat < node.length := by
  rw [← mem_indices n _ hN, ← Multiset.mem_coe, ← h.indices]
  exact Multiset.mem_add.mpr (.inr hn)

/-- The weights of the trees are the counts. -/
theorem sum_weight (h : Forest es node roots F) : (F.map CountTree.weight).sum = (es.map (fun e => e.2.toNat)).sum := by
  have := congrArg (fun s => (s.map (fun e : Byte × Word => e.2.toNat)).sum) h.entries
  simp only [Multiset.map_bind, Multiset.sum_bind, Multiset.map_coe, Multiset.sum_coe] at this
  exact this

/-- What adding a node does to the equation of the indices: its children are roots no longer, it is a new root. -/
theorem indices_concat {x : Node}
    (h : (↑(node.flatMap Node.children) : Multiset NodeIdx) + (↑x.children + roots) =
      ↑((List.range node.length).map (BitVec.ofNat 9))) :
    (↑((node ++ [x]).flatMap Node.children) : Multiset NodeIdx) + (BitVec.ofNat 9 node.length ::ₘ roots) =
      ↑((List.range (node ++ [x]).length).map (BitVec.ofNat 9)) := by
  rw [List.length_append, List.length_singleton, List.range_succ, List.map_append, ← Multiset.coe_add, ← h,
    List.flatMap_append, ← Multiset.coe_add, ← Multiset.singleton_add]
  simp only [List.flatMap_cons, List.flatMap_nil, List.append_nil, List.map_cons, List.map_nil, Multiset.coe_singleton]
  abel

theorem older_concat {x : Node} (h : ChildrenOlder node) (hx : ∀ n ∈ x.children, n.toNat < node.length) :
    ChildrenOlder (node ++ [x]) := by
  intro i y n hy hn
  rcases getElem?_concat_cases hy with ⟨-, hy⟩ | ⟨rfl, rfl⟩
  · exact h i y n hy hn
  · exact hx n hn

/-- The children of a node are older, so the sums of the old nodes stay when a node is added. -/
theorem sums_concat {x : Node} (h : SumsHold node) (hold : ChildrenOlder (node ++ [x]))
    (hx : ∀ f l r y z, x = .inner f l r → node[l.toNat]? = some y → node[r.toNat]? = some z →
      f.toNat = y.freq.toNat + z.freq.toNat) : SumsHold (node ++ [x]) := by
  intro i f l r y z hi hy hz
  have hl := hold i _ l hi (by simp [Node.children])
  have hr := hold i _ r hi (by simp [Node.children])
  rcases getElem?_concat_cases hi with ⟨hlt, hi'⟩ | ⟨rfl, hnew⟩ <;>
    rw [List.getElem?_append_left (by omega)] at hy hz
  · exact h i f l r y z hi' hy hz
  · exact hx f l r y z hnew.symm hy hz

/-- A new leaf is a tree of its own (R122). -/
theorem addLeaf (h : Forest es node roots F) (hN : node.length < 512) (b : Byte) (f : Word) :
    Forest (es ++ [(b, f)]) (node ++ [.leaf f b]) (BitVec.ofNat 9 node.length ::ₘ roots) (.leaf (b, f) ::ₘ F) where
  leaves := by rw [List.filterMap_append, h.leaves]; rfl
  indices := indices_concat (by simpa [Node.children] using h.indices)
  older := older_concat h.older (by simp [Node.children])
  sums := sums_concat h.sums (older_concat h.older (by simp [Node.children])) (by simp)
  trees := by
    refine .cons ?_ (h.trees.mono fun n _ t _ ht => ht.append _)
    simp [IsTree, Nat.mod_eq_of_lt hN]
  entries := by
    simp only [Multiset.cons_bind, CountTree.leaves, h.entries, Multiset.coe_add]
    exact Multiset.coe_eq_coe.mpr List.perm_append_comm

/-- Two roots become the children of a new one, which has the sum of their frequencies (R125). -/
theorem merge {a b : NodeIdx} (h : Forest es node (a ::ₘ b ::ₘ roots) F) (hN : node.length < 512) {f : Word}
    (hf : ∀ x y, node[a.toNat]? = some x → node[b.toNat]? = some y → f.toNat = x.freq.toNat + y.freq.toNat) :
    ∃ t u G, F = t ::ₘ u ::ₘ G ∧ IsTree node a t ∧ IsTree node b u ∧ Multiset.Rel (IsTree node) roots G ∧
      Forest es (node ++ [.inner f a b]) (BitVec.ofNat 9 node.length ::ₘ roots) (.node t u ::ₘ G) := by
  obtain ⟨t, F', ha, hF', rfl⟩ := Multiset.rel_cons_left.mp h.trees
  obtain ⟨u, G, hb, hG, rfl⟩ := Multiset.rel_cons_left.mp hF'
  have hold : ChildrenOlder (node ++ [.inner f a b]) := older_concat h.older fun n hn => h.root_lt hN.le (by
    have : n = a ∨ n = b := by simpa [Node.children] using hn
    rcases this with rfl | rfl <;> simp)
  refine ⟨t, u, G, rfl, ha, hb, hG, ?_, ?_, hold, sums_concat h.sums hold fun g l r x y he hx hy => ?_, ?_, ?_⟩
  · rw [List.filterMap_append, h.leaves]
    exact List.append_nil es
  · refine indices_concat ?_
    rw [← h.indices]
    simp [Node.children, ← Multiset.singleton_add, ← Multiset.cons_coe, add_assoc]
  · cases he
    exact hf x y hx hy
  · refine .cons ⟨f, a, b, ?_, ha.append _, hb.append _⟩ (hG.mono fun n _ t _ ht => ht.append _)
    simp [Nat.mod_eq_of_lt hN]
  · rw [← h.entries]
    simp [CountTree.leaves, ← Multiset.coe_add, add_assoc]

end Forest

/-! ## One root -/

/-- Leaves with different byte values have different indices. -/
theorem leaf_index_unique {node : List Node} (hnd : ((node.filterMap Node.entry).map Prod.fst).Nodup) {i j : Nat}
    {f g : Word} {b : Byte} (hi : node[i]? = some (.leaf f b)) (hj : node[j]? = some (.leaf g b)) : i = j := by
  rw [List.Nodup, List.pairwise_map, List.pairwise_filterMap, List.pairwise_iff_getElem] at hnd
  obtain ⟨hi', ei⟩ := List.getElem?_eq_some_iff.mp hi
  obtain ⟨hj', ej⟩ := List.getElem?_eq_some_iff.mp hj
  rcases Nat.lt_trichotomy i j with hlt | rfl | hlt
  · exact absurd rfl (hnd i j hi' hj' hlt (b, f) (by simp [ei, Node.entry]) (b, g) (by simp [ej, Node.entry]))
  · rfl
  · exact absurd rfl (hnd j i hj' hi' hlt (b, g) (by simp [ej, Node.entry]) (b, f) (by simp [ei, Node.entry]))

namespace Forest

variable {es : List (Byte × Word)} {m : Internals} {F : Multiset CountTree}

/-- With one root the one tree is the tree under it. -/
theorem isTree_root {t : CountTree} (h : Forest es m.node {m.root} {t}) : IsTree m.node m.root t := by
  obtain ⟨u, G, hu, hG, he⟩ := Multiset.rel_cons_left.mp h.trees
  rw [Multiset.rel_zero_left.mp hG, Multiset.cons_zero, Multiset.singleton_inj] at he
  exact he ▸ hu

/-- With one root the root is the last node, since no older node has it as a child. -/
theorem root_toNat (h : Forest es m.node {m.root} F) (hlen : es.length ≤ 256) : m.root.toNat + 1 = m.node.length := by
  have hN := h.length_add_card
  rw [Multiset.card_singleton] at hN
  have hlast : (BitVec.ofNat 9 (m.node.length - 1)).toNat = m.node.length - 1 := by
    rw [BitVec.toNat_ofNat, Nat.mod_eq_of_lt (by omega)]
  have hmem := (mem_indices (BitVec.ofNat 9 (m.node.length - 1)) m.node.length (by omega)).mpr (by omega)
  rw [← Multiset.mem_coe, ← h.indices, Multiset.mem_add, Multiset.mem_coe, List.mem_flatMap] at hmem
  rcases hmem with ⟨x, hx, hc⟩ | hr
  · obtain ⟨i, hi, rfl⟩ := List.getElem_of_mem hx
    have := h.older i _ _ (List.getElem?_eq_getElem hi) hc
    omega
  · rw [← Multiset.mem_singleton.mp hr]
    omega

/-- With one root the arena is a full binary tree (R34). -/
theorem treeArena (h : Forest es m.node {m.root} F) (hlen : es.length ≤ 256) (hnd : (es.map Prod.fst).Nodup) :
    TreeArena m := by
  have hN := h.length_add_card
  rw [Multiset.card_singleton] at hN
  have hidx : (m.node.flatMap Node.children ++ [m.root]).Perm ((List.range m.node.length).map (BitVec.ofNat 9)) :=
    Multiset.coe_eq_coe.mp (by rw [← Multiset.coe_add, ← h.indices]; rfl)
  have hnodup := hidx.nodup_iff.mpr (nodup_indices (by omega))
  obtain ⟨hch, -, hroot⟩ := List.nodup_append'.mp hnodup
  obtain ⟨htwo, hdisj⟩ := List.nodup_flatMap.mp hch
  rw [List.pairwise_iff_getElem] at hdisj
  refine ⟨by omega, ?_, ?_, ?_, ?_, ?_, ?_, h.sums⟩
  · have := h.root_toNat hlen
    omega
  · intro p f l r hp
    have := htwo _ (List.mem_of_getElem? hp)
    exact ⟨h.older _ _ _ hp (by simp [Node.children]), h.older _ _ _ hp (by simp [Node.children]),
      by simpa [Node.children] using this⟩
  · intro n p q hp hq
    obtain ⟨x, hx, hnx⟩ := childOf_iff.mp hp
    obtain ⟨y, hy, hny⟩ := childOf_iff.mp hq
    obtain ⟨hp', rfl⟩ := List.getElem?_eq_some_iff.mp hx
    obtain ⟨hq', rfl⟩ := List.getElem?_eq_some_iff.mp hy
    refine BitVec.eq_of_toNat_eq ?_
    rcases Nat.lt_trichotomy p.toNat q.toNat with hlt | heq | hlt
    · exact absurd hny (hdisj _ _ hp' hq' hlt hnx)
    · exact heq
    · exact absurd hnx (hdisj _ _ hq' hp' hlt hny)
  · intro n hn hne
    have := hidx.mem_iff.mpr ((mem_indices n _ (by omega)).mpr hn)
    rw [List.mem_append, List.mem_flatMap, List.mem_singleton] at this
    obtain ⟨x, hx, hnx⟩ := this.resolve_right hne
    obtain ⟨i, hi, rfl⟩ := List.getElem_of_mem hx
    refine ⟨BitVec.ofNat 9 i, childOf_iff.mpr ⟨_, ?_, hnx⟩⟩
    rw [BitVec.toNat_ofNat, Nat.mod_eq_of_lt (by omega), List.getElem?_eq_getElem hi]
  · intro p hp
    obtain ⟨x, hx, hrx⟩ := childOf_iff.mp hp
    exact hroot (List.mem_flatMap.mpr ⟨x, List.mem_of_getElem? hx, hrx⟩) (List.mem_singleton_self _)
  · exact fun i j f g b hi hj => leaf_index_unique (h.leaves.symm ▸ hnd) hi hj

end Forest

end Sys2Proof
end

section
/-! PROOFS. BUILD (R126): PQ_INIT makes a forest of leaves, each turn of the loop merges its two lightest trees, and
what is left is one tree. -/

namespace Sys2Proof
open Machine

/-- The trees of a forest of these leaves can be placed as cheaply as the leaves at any depths that satisfy Kraft's
inequality: the invariant that makes the last tree optimal (R131). -/
def Optimal (es : List (Byte × Word)) (F : Multiset CountTree) : Prop :=
  ∀ δ : Byte → Nat, kraftSum ↑(es.map (fun e => δ e.1)) ≤ 1 → Placeable (es.map (fun e => e.2.toNat * δ e.1)).sum F

/-- Leaves can be placed at any depths. -/
theorem Optimal.of_leaves (es : List (Byte × Word)) : Optimal es ↑(es.map CountTree.leaf) := by
  intro δ hδ
  refine ⟨↑(es.map (fun e => (CountTree.leaf e, δ e.1))), ?_, ?_, ?_⟩
  · simp [Function.comp_def]
  · simpa [Function.comp_def] using hδ
  · simp [placementCost, Function.comp_def, CountTree.costAt]

/-- The registers while BUILD runs: a min-heap of the roots of a forest with the given leaves, placed optimally. -/
structure Building (es : List (Byte × Word)) (m : Internals) (F : Multiset CountTree) : Prop where
  heap : HeapInv m
  forest : Forest es m.node ↑m.heap F
  optimal : Optimal es F

/-- Only the registers that the primitives of the TreeBuilder write differ (R122 to R125). -/
def TreeFrame (m k : Internals) : Prop :=
  k = { m with
    node := k.node, nodeRest := k.nodeRest, heap := k.heap, opA := k.opA, opB := k.opB, res := k.res }

theorem TreeFrame.trans {m k l : Internals} (h1 : TreeFrame m k) (h2 : TreeFrame k l) : TreeFrame m l :=
  Eq.trans h2 (by rw [h1])

/-- A computation goes on with the result of its first part. -/
theorem ok_bind {α β : Type} {x : Run α} {a : α} (h : x = .ok a) (f : α → Run β) : (x >>= f) = f a := by
  rw [h]
  rfl

theorem Building.congr {es : List (Byte × Word)} {m k : Internals} {F : Multiset CountTree} (h : Building es m F)
    (hn : k.node = m.node) (hh : k.heap = m.heap) : Building es k F :=
  ⟨h.heap.congr hn hh, hn ▸ hh ▸ h.forest, h.optimal⟩

/-- The node that has just been allocated goes into the heap (R122, R126). -/
theorem pqInsert_newNode {m k : Internals} {x : Node} (h : HeapInv m) (hroom : m.heap.length < 256)
    (hN : m.node.length < 512) (hn : k.node = m.node ++ [x]) (hh : k.heap = m.heap)
    (ha : k.opA = BitVec.ofNat 9 m.node.length) :
    ∃ hp, pqInsert k = .ok { k with heap := hp } ∧ hp.Perm (BitVec.ofNat 9 m.node.length :: m.heap) ∧
      HeapInv { k with heap := hp } := by
  have hnew : k.opA.toNat = m.node.length := by rw [ha, BitVec.toNat_ofNat, Nat.mod_eq_of_lt hN]
  rw [← hh, ← ha]
  refine pqInsert_heapInv (h.append hn hh) (by simp [hnew, hn]) (hh ▸ hroom) fun hmem => ?_
  exact Nat.lt_irrefl _ (hnew ▸ h.inArena _ (hh ▸ hmem))

/-! ## PQ_INIT (R122) -/

/-- One turn of PQ_INIT adds a leaf. -/
theorem addLeaf_run {es : List (Byte × Word)} {m : Internals} (h : Building es m ↑(es.map CountTree.leaf))
    (e : Byte × Word) (hlen : es.length < 256) (hcount : m.heap.length = es.length) :
    ∃ k, addLeaf m e = .ok k ∧ Building (es ++ [e]) k ↑((es ++ [e]).map CountTree.leaf) ∧
      k.heap.length = (es ++ [e]).length ∧ TreeFrame m k := by
  have hN := h.forest.length_add_card
  rw [Multiset.coe_card] at hN
  obtain ⟨hp, hrun, hperm, hinv⟩ := pqInsert_newNode (k := { pushNode m (.leaf e.2 e.1) with
    opA := BitVec.ofNat 9 m.node.length }) h.heap (by omega) (by omega) rfl rfl rfl
  refine ⟨_, hrun, ⟨hinv, ?_, .of_leaves _⟩, ?_, rfl⟩
  · have hroots : (↑hp : Multiset NodeIdx) = BitVec.ofNat 9 m.node.length ::ₘ ↑m.heap := Multiset.coe_eq_coe.mpr hperm
    have htrees : (↑((es ++ [e]).map CountTree.leaf) : Multiset CountTree) =
        .leaf e ::ₘ ↑(es.map CountTree.leaf) := by
      rw [List.map_append, ← Multiset.coe_add, add_comm]
      rfl
    rw [htrees]
    exact hroots ▸ h.forest.addLeaf (by omega) e.1 e.2
  · simp [hperm.length_eq, hcount]

/-- The loop of PQ_INIT, from any number of leaves on. -/
theorem foldlM_addLeaf_run (rest es : List (Byte × Word)) (m : Internals) (hlen : (es ++ rest).length ≤ 256)
    (h : Building es m ↑(es.map CountTree.leaf)) (hcount : m.heap.length = es.length) :
    ∃ k, rest.foldlM addLeaf m = .ok k ∧ Building (es ++ rest) k ↑((es ++ rest).map CountTree.leaf) ∧
      k.heap.length = (es ++ rest).length ∧ TreeFrame m k := by
  induction rest generalizing es m with
  | nil => exact ⟨m, rfl, by simpa using h, by simpa using hcount, rfl⟩
  | cons e rest ih =>
    have hlt : es.length < 256 := by
      simp only [List.length_append, List.length_cons] at hlen
      omega
    obtain ⟨k, hk, hb, hc, hf⟩ := addLeaf_run h e hlt hcount
    obtain ⟨l, hl, hb', hc', hf'⟩ := ih (es ++ [e]) k (by simpa using hlen) hb hc
    exact ⟨l, by rw [List.foldlM_cons, ok_bind hk, hl], by simpa using hb', by simpa using hc', hf.trans hf'⟩

/-- The heap invariant of the empty heap. -/
theorem HeapInv.of_heap_nil {m : Internals} (h : m.heap = []) : HeapInv m :=
  heapInv_iff.mpr ⟨by simp [h], by simp [h], by simp [h], fun i _ hi => by simp [h] at hi⟩

/-- PQ_INIT makes the forest of the leaves of the occurring byte values, whatever the arena and the heap held. -/
theorem pqInit_run (m : Internals) :
    ∃ k, pqInit m = .ok k ∧ Building (occurring m.freq) k ↑((occurring m.freq).map CountTree.leaf) ∧
      k.heap.length = (occurring m.freq).length ∧ TreeFrame m k :=
  foldlM_addLeaf_run (occurring m.freq) [] { m with node := [], nodeRest := Config.freeNodes m, heap := [] }
    (length_occurring_le m.freq) ⟨.of_heap_nil rfl, .empty, .of_leaves []⟩ rfl

/-! ## The loop (R126) -/

/-- A root whose key precedes those of other roots has the lightest tree. -/
theorem weight_le_of_precedes {m : Internals} {r : NodeIdx} {hp : List NodeIdx} {t : CountTree}
    {G : Multiset CountTree} (hs : SumsHold m.node) (ht : IsTree m.node r t)
    (hG : Multiset.Rel (IsTree m.node) ↑hp G) (hpre : ∀ n ∈ hp, Precedes m r n) :
    ∀ v ∈ G, t.weight ≤ v.weight := by
  intro v hv
  obtain ⟨n, hn, hnv⟩ := Multiset.exists_mem_of_rel_of_mem (Multiset.rel_flip.mpr hG) hv
  obtain ⟨x, hx, hxw⟩ := ht.freq hs
  obtain ⟨y, hy, hyw⟩ := IsTree.freq hnv hs
  rw [← hxw, ← hyw]
  exact (hpre n hn).freq_le hx hy

/-- The sum of two roots' frequencies is at most the total, so MERGE does not overflow (R125). -/
theorem Forest.freq_add_le {es : List (Byte × Word)} {node : List Node} {a b : NodeIdx} {roots : Multiset NodeIdx}
    {F : Multiset CountTree} (h : Forest es node (a ::ₘ b ::ₘ roots) F) {x y : Node}
    (hx : node[a.toNat]? = some x) (hy : node[b.toNat]? = some y) :
    x.freq.toNat + y.freq.toNat ≤ (es.map (fun e => e.2.toNat)).sum := by
  rw [← h.sum_weight]
  obtain ⟨t, F', ha, hF', rfl⟩ := Multiset.rel_cons_left.mp h.trees
  obtain ⟨u, G, hb, hG, rfl⟩ := Multiset.rel_cons_left.mp hF'
  obtain ⟨x', hx', hxw⟩ := ha.freq h.sums
  obtain ⟨y', hy', hyw⟩ := hb.freq h.sums
  cases hx.symm.trans hx'
  cases hy.symm.trans hy'
  rw [hxw, hyw, Multiset.map_cons, Multiset.sum_cons, Multiset.map_cons, Multiset.sum_cons]
  omega

theorem merge_run {m : Internals} (h : m.node.length < 511) :
    merge m = .ok { pushNode m (.inner ((nodeAt m m.opA).freq + (nodeAt m m.opB).freq) m.opA m.opB) with
      res := BitVec.ofNat 9 m.node.length } := by
  rw [merge, if_neg (show ¬ Config.maxNodes ≤ m.node.length from Nat.not_le.mpr h)]
  rfl

/-- One turn of the loop: the two nodes with the least keys leave the heap and become the children of a new node, which
goes into it. -/
theorem buildRound_heapInv {m : Internals} (h : HeapInv m) (htwo : 2 ≤ m.heap.length) (hN : m.node.length < 511) :
    ∃ a b rest hp, buildRound m = .ok { m with
        node := m.node ++ [.inner ((nodeAt m a).freq + (nodeAt m b).freq) a b], nodeRest := m.nodeRest.drop 1
        heap := hp, opA := BitVec.ofNat 9 m.node.length, opB := b, res := BitVec.ofNat 9 m.node.length } ∧
      m.heap.Perm (a :: b :: rest) ∧ (∀ n ∈ b :: rest, Precedes m a n) ∧ (∀ n ∈ rest, Precedes m b n) ∧
      hp.Perm (BitVec.ofNat 9 m.node.length :: rest) ∧
      HeapInv { m with
        node := m.node ++ [.inner ((nodeAt m a).freq + (nodeAt m b).freq) a b], nodeRest := m.nodeRest.drop 1
        heap := hp, opA := BitVec.ofNat 9 m.node.length, opB := b, res := BitVec.ofNat 9 m.node.length } := by
  have hfits := h.fits
  obtain ⟨a, h₁, run₁, perm₁, pre₁, inv₁⟩ := pqExtractMin_heapInv h (List.ne_nil_of_length_pos (by omega))
  have len₁ : m.heap.length = h₁.length + 1 := perm₁.length_eq
  obtain ⟨b, h₂, run₂, perm₂, pre₂, inv₂⟩ := pqExtractMin_heapInv
    (inv₁.congr (k := { m with heap := h₁, res := a, opA := a }) rfl rfl)
    (List.ne_nil_of_length_pos (by dsimp only; omega))
  have len₂ : h₁.length = h₂.length + 1 := perm₂.length_eq
  have run₃ := merge_run (m := { m with heap := h₂, res := b, opA := a, opB := b }) hN
  obtain ⟨h₃, run₄, perm₃, inv₃⟩ := pqInsert_newNode (m := { m with heap := h₂, res := b, opA := a })
    (k := { m with
      node := m.node ++ [.inner ((nodeAt m a).freq + (nodeAt m b).freq) a b], nodeRest := m.nodeRest.drop 1
      heap := h₂, opA := BitVec.ofNat 9 m.node.length, opB := b, res := BitVec.ofNat 9 m.node.length })
    inv₂ (by dsimp only; omega) (by dsimp only; omega) rfl rfl rfl
  exact ⟨a, b, h₂, h₃, (ok_bind run₁ _).trans ((ok_bind run₂ _).trans ((ok_bind run₃ _).trans run₄)),
    perm₁.trans (perm₂.cons a), fun n hn => pre₁ n (perm₂.mem_iff.mpr hn), pre₂, perm₃, inv₃⟩

/-- One turn of the loop merges the two lightest trees. -/
theorem buildRound_run {es : List (Byte × Word)} {m : Internals} {F : Multiset CountTree} (h : Building es m F)
    (hes : es.length ≤ 256) (htot : (es.map (fun e => e.2.toNat)).sum < 2 ^ 32) (htwo : 2 ≤ m.heap.length) :
    ∃ k G, buildRound m = .ok k ∧ Building es k G ∧ TreeFrame m k := by
  have hcard := h.forest.length_add_card
  rw [Multiset.coe_card] at hcard
  obtain ⟨a, b, rest, hp, hrun, hperm, ha, hb, hperm', hinv⟩ := buildRound_heapInv h.heap htwo (by omega)
  have hf : Forest es m.node (a ::ₘ b ::ₘ ↑rest) F :=
    (show (↑m.heap : Multiset NodeIdx) = a ::ₘ b ::ₘ ↑rest from Multiset.coe_eq_coe.mpr hperm) ▸ h.forest
  have hsum : ∀ x y, m.node[a.toNat]? = some x → m.node[b.toNat]? = some y →
      ((nodeAt m a).freq + (nodeAt m b).freq).toNat = x.freq.toNat + y.freq.toNat := fun x y hx hy => by
    rw [nodeAt_of_getElem? hx, nodeAt_of_getElem? hy, BitVec.toNat_add,
      Nat.mod_eq_of_lt ((hf.freq_add_le hx hy).trans_lt htot)]
  obtain ⟨t, u, G, rfl, ht, hu, hG, hforest⟩ := hf.merge (by omega) hsum
  refine ⟨_, .node t u ::ₘ G, hrun, ⟨hinv, (Multiset.coe_eq_coe.mpr hperm').symm ▸ hforest, fun δ hδ => ?_⟩, rfl⟩
  exact (h.optimal δ hδ).merge (weight_le_of_precedes (hp := b :: rest) hf.sums ht (.cons hu hG) ha)
    (weight_le_of_precedes hf.sums hu hG hb)

/-- The loop ends with one tree. -/
theorem buildLoop_run {es : List (Byte × Word)} (hes : es.length ≤ 256)
    (htot : (es.map (fun e => e.2.toNat)).sum < 2 ^ 32) (f : Nat) (m : Internals) (F : Multiset CountTree)
    (h : Building es m F) (hpos : 1 ≤ m.heap.length) (hf : m.heap.length ≤ f + 1) :
    ∃ k G, buildLoop f m = .ok k ∧ Building es k G ∧ k.heap.length = 1 ∧ TreeFrame m k := by
  induction f generalizing m F with
  | zero => exact ⟨m, F, rfl, h, by omega, rfl⟩
  | succ f ih =>
    rw [buildLoop]
    split_ifs with hlt
    · obtain ⟨k, G, hk, hb, hfr⟩ := buildRound_run h hes htot hlt
      have hlen := buildRound_length hk
      obtain ⟨l, H, hl, hb', hone, hfr'⟩ := ih k G hb (by omega) (by omega)
      exact ⟨l, H, (ok_bind hk _).trans hl, hb', hone, hfr.trans hfr'⟩
    · exact ⟨m, F, rfl, h, by omega, rfl⟩

theorem takeRoot_singleton {m : Internals} {r : NodeIdx} (h : m.heap = [r]) :
    takeRoot m = .ok { m with root := r } := by
  rw [takeRoot, h]
  rfl

/-- What BUILD leaves: a forest of one tree, whose root is `ROOT` and the one entry of the heap. -/
structure Built (es : List (Byte × Word)) (k : Internals) (t : CountTree) : Prop where
  heap : k.heap = [k.root]
  forest : Forest es k.node {k.root} {t}
  optimal : Optimal es {t}

/-- A forest with one root is one tree, and `ROOT` takes its root. -/
theorem takeRoot_run {es : List (Byte × Word)} {m : Internals} {F : Multiset CountTree} (h : Building es m F)
    (hone : m.heap.length = 1) : ∃ r t, takeRoot m = .ok { m with root := r } ∧ Built es { m with root := r } t := by
  obtain ⟨r, hr⟩ := List.length_eq_one_iff.mp hone
  have hf := h.forest
  rw [hr, Multiset.coe_singleton] at hf
  obtain ⟨t, rfl⟩ := Multiset.card_eq_one.mp (Multiset.card_eq_card_of_rel hf.trees).symm
  exact ⟨r, t, takeRoot_singleton hr, hr, hf, h.optimal⟩

/-- BUILD after PQ_INIT: the degenerate case and the loop both end with one tree (R126, R127). -/
theorem buildAfterInit_run {es : List (Byte × Word)} {m : Internals} {F : Multiset CountTree} (h : Building es m F)
    (hes : es.length ≤ 256) (htot : (es.map (fun e => e.2.toNat)).sum < 2 ^ 32) (hpos : 1 ≤ m.heap.length) :
    ∃ k r t, buildAfterInit m = .ok { k with root := r } ∧ Built es { k with root := r } t ∧
      TreeFrame { m with degenSig := decide (m.heap.length = 1) } k := by
  rw [buildAfterInit]
  split_ifs with hone
  · obtain ⟨r, t, hrun, hb⟩ := takeRoot_run (h.congr (k := { m with degenSig := true }) rfl rfl) hone
    exact ⟨_, r, t, hrun, hb, by simp only [hone]; rfl⟩
  · obtain ⟨k, G, hk, hb, hlen, hf⟩ := buildLoop_run hes htot m.heap.length { m with degenSig := false } F
      (h.congr rfl rfl) hpos (Nat.le_succ _)
    obtain ⟨r, t, hrun, hb⟩ := takeRoot_run hb hlen
    exact ⟨k, r, t, (ok_bind hk _).trans hrun, hb, by simpa only [hone, decide_false] using hf⟩

/-- BUILD makes one tree of the occurring byte values (R126), whatever the arena and the heap held. -/
theorem build_run {m : Internals} {es : List (Byte × Word)} (hes : es = occurring m.freq) (hne : es ≠ [])
    (htot : (es.map (fun e => e.2.toNat)).sum < 2 ^ 32) :
    ∃ k t, build m = .ok k ∧ Built es k t ∧ k.degenSig = decide (es.length = 1) ∧
      k = { m with
        node := k.node, nodeRest := k.nodeRest, heap := k.heap, root := k.root, degenSig := k.degenSig
        opA := k.opA, opB := k.opB, res := k.res } := by
  subst hes
  obtain ⟨k₁, run₁, hb, hlen, hf₁⟩ := pqInit_run m
  obtain ⟨k₂, r, t, run₂, hb, hf₂⟩ := buildAfterInit_run hb (length_occurring_le _) htot
    (hlen ▸ List.length_pos_of_ne_nil hne)
  refine ⟨{ k₂ with root := r }, t, ?_, hb, ?_, ?_⟩
  · rw [build, if_neg hne, ok_bind run₁, run₂]
  · rw [hf₂, ← hlen]
  · rw [hf₂, hf₁]

/-! ## The occurring byte values -/

/-- A sum over the occurring byte values, weighted by the counts, is the sum over all byte values (R30). -/
theorem sum_occurring (f : ByteTable Word) (g : Byte → Nat) :
    ((occurring f).map (fun e => e.2.toNat * g e.1)).sum = (allBytes.map (fun b => (byteGet f b).toNat * g b)).sum := by
  rw [occurring_eq, List.map_map]
  induction allBytes with
  | nil => rfl
  | cons b bs ih =>
    by_cases hb : byteGet f b = 0#32 <;> simpa [List.filter_cons, hb] using ih

theorem nodup_occurring (f : ByteTable Word) : ((occurring f).map Prod.fst).Nodup := by
  rw [occurring_eq, List.map_map]
  simpa [Function.comp_def] using nodup_allBytes.filter _

/-- Settles O25: BUILD's arena is the one tree that `build_run` leaves. -/
theorem buildMakesTheTree : Obligations.BuildMakesTheTree := by
  intro s k total hk htotal hpos hlt
  have hlen : (occurring s.int.freq).length = k := by rw [hk, occurring_eq, List.length_map]
  have hsum : ((occurring s.int.freq).map (fun e => e.2.toNat)).sum = total := by
    rw [htotal]
    simpa using sum_occurring s.int.freq (fun _ => 1)
  have h256 := length_occurring_le s.int.freq
  obtain ⟨m, t, hrun, ⟨hheap, hforest, -⟩, hdegen, hframe⟩ := build_run (m := s.int) rfl
    (List.ne_nil_of_length_pos (hlen ▸ hpos)) (hsum ▸ hlt)
  have hcard := hforest.length_add_card
  have hroot := hforest.root_toNat h256
  rw [Multiset.card_singleton] at hcard
  refine ⟨{ s with int := m, phase := 0x20#8 }, onInternals_ok hrun, ?_, ?_, ?_, hheap,
    hforest.treeArena h256 (nodup_occurring _), fun f b => ?_, ?_, ?_⟩
  · show m.node.length = 2 * k - 1
    omega
  · show m.root.toNat = 2 * k - 2
    omega
  · rw [← hlen]
    exact hdegen
  · rw [← List.mem_iff_getElem?, ← mem_occurring (e := (b, f)), ← hforest.leaves, List.mem_filterMap]
    simp [entry_eq_some]
  · obtain ⟨x, hx, hw⟩ := hforest.isTree_root.freq hforest.sums
    refine ⟨x, hx, ?_⟩
    rw [hw, ← hsum, ← hforest.sum_weight, Multiset.map_singleton, Multiset.sum_singleton]
  · exact congrArg (fun m => { s with int := m, phase := 0x20#8 }) hframe

end Sys2Proof
end

section
/-! PROOFS. The counters that FREQ gives BUILD (R111, R126): their total, and the input of one byte value (R127). -/

namespace Sys2Proof
open Machine

/-- The counts of all byte values add up to the length. -/
theorem sum_count_allBytes (bs : List Byte) : (allBytes.map (fun b => bs.count b)).sum = bs.length := by
  have h := Multiset.sum_count_eq_card (s := allBytes.toFinset) (m := (↑bs : Multiset Byte))
    fun b _ => List.mem_toFinset.mpr (mem_allBytes b)
  rw [List.sum_toFinset _ nodup_allBytes] at h
  simpa using h

/-- The total of the counters of an input is its length. -/
theorem sum_frequencies {bs : List Byte} (h : bs.length < 2 ^ 32) :
    (allBytes.map (fun b => (byteGet (frequencies bs) b).toNat)).sum = bs.length := by
  simp only [toNat_byteGet_frequencies h, sum_count_allBytes]

/-- A counter is 0 exactly if the byte value does not occur. -/
theorem byteGet_frequencies_ne_zero {bs : List Byte} (h : bs.length < 2 ^ 32) (b : Byte) :
    byteGet (frequencies bs) b ≠ 0 ↔ b ∈ bs := by
  rw [Ne, ← BitVec.toNat_inj, toNat_byteGet_frequencies h, ← List.count_pos_iff, Nat.pos_iff_ne_zero]
  rfl

/-- The counters of a non-empty input give BUILD something to do. -/
theorem occurring_frequencies_ne_nil {bs : List Byte} (h : bs.length < 2 ^ 32) (hne : bs ≠ []) :
    occurring (frequencies bs) ≠ [] := by
  obtain ⟨b, hb⟩ := List.exists_mem_of_ne_nil bs hne
  exact List.ne_nil_of_mem (a := (b, byteGet (frequencies bs) b))
    (mem_occurring.mpr ⟨rfl, (byteGet_frequencies_ne_zero h b).mpr hb⟩)

/-- One byte value of the 256 is the given one. -/
theorem length_filter_allBytes_eq (b : Byte) : (allBytes.filter (fun c => c == b)).length = 1 := by
  rw [← List.countP_eq_length_filter]
  exact List.count_eq_one_of_mem nodup_allBytes (mem_allBytes b)

/-- Settles O26: with one counter that is not 0, BUILD's arena of `2 · 1 − 1` nodes is the one leaf (O25). -/
theorem singleValueGivesALeaf : Obligations.SingleValueGivesALeaf := by
  intro s b hne hcap hall
  have hlt := length_inputBytes_lt s
  have hn : s.inLen.toNat ≠ 0 := fun h => hne (BitVec.eq_of_toNat_eq h)
  have hin : inputBytes s = List.replicate s.inLen.toNat b :=
    List.eq_replicate_iff.mpr ⟨length_memRead s 0 _, hall⟩
  have hb : byteGet (frequencies (inputBytes s)) b = s.inLen := by
    refine BitVec.eq_of_toNat_eq ?_
    rw [toNat_byteGet_frequencies hlt, hin, List.count_replicate_self]
  have hk : 1 = (allBytes.filter (fun c => byteGet (frequencies (inputBytes s)) c != 0)).length := by
    rw [← length_filter_allBytes_eq b]
    congr 1
    refine List.filter_congr fun c _ => ?_
    rw [Bool.eq_iff_iff, beq_iff_eq, bne_iff_ne, byteGet_frequencies_ne_zero hlt, hin, List.mem_replicate,
      and_iff_right hn]
  obtain ⟨t, hrun, hnode, hroot, hdegen, -, -, hleaves, -, -⟩ := buildMakesTheTree
    { s with phase := 0x10#8, int := { s.int with freq := frequencies (inputBytes s), icur := s.inLen } }
    1 _ hk rfl le_rfl ((sum_frequencies hlt).trans_lt hlt)
  obtain ⟨x, hx⟩ := List.length_eq_one_iff.mp hnode
  obtain ⟨i, hi⟩ := (hleaves s.inLen b).mpr ⟨hb.symm, hne⟩
  have hxi := List.mem_of_getElem? hi
  rw [hx, List.mem_singleton] at hxi
  exact ⟨_, t, execFreq_run hcap, hrun, hxi ▸ hx, BitVec.eq_of_toNat_eq hroot, hdegen⟩

end Sys2Proof
end

section
/-! PROOFS. The code that GENCODES reads off BUILD's tree (R141 to R143): the paths of a tree, the table they give, and
its lengths. -/

namespace Sys2Proof
open Machine

/-! ## Paths -/

namespace CountTree

/-- The leaves with the edge labels from the root, 0 left and 1 right, after the path `p` to the root (R141). -/
def paths : CountTree → Code → List ((Byte × Word) × Code)
  | leaf e, p => [(e, p)]
  | node l r, p => l.paths (p ++ [false]) ++ r.paths (p ++ [true])

/-- The number of nodes, which is the number of visits of GENCODES (R259). -/
def size : CountTree → Nat
  | leaf _ => 1
  | node l r => l.size + r.size + 1

theorem size_add_one (t : CountTree) : t.size + 1 = 2 * t.leaves.length := by
  induction t with
  | leaf e => rfl
  | node l r ihl ihr =>
    simp only [size, leaves, List.length_append]
    omega

theorem map_fst_paths (t : CountTree) (p : Code) : (t.paths p).map Prod.fst = t.leaves := by
  induction t generalizing p with
  | leaf e => rfl
  | node l r ihl ihr => rw [paths, List.map_append, ihl, ihr, leaves]

/-- The cost of a tree is that of its paths. -/
theorem sum_paths (t : CountTree) (p : Code) :
    ((t.paths p).map (fun x => x.1.2.toNat * x.2.length)).sum = t.costAt p.length := by
  induction t generalizing p with
  | leaf e => simp [paths, costAt]
  | node l r ihl ihr => simp [paths, costAt, ihl, ihr]

/-- The paths of a tree share out what its root has of Kraft's sum (R131). -/
theorem kraftSum_paths (t : CountTree) (p : Code) :
    kraftSum ↑((t.paths p).map (fun x => x.2.length)) = (1 / 2) ^ p.length := by
  induction t generalizing p with
  | leaf e => simp [paths, kraftSum]
  | node l r ihl ihr =>
    rw [paths, List.map_append, ← Multiset.coe_add, kraftSum_add, ihl, ihr]
    simp only [List.length_append, List.length_singleton, pow_succ]
    ring

/-- A path is at least as long as the one to the root, and longer by less than the number of leaves (R146). -/
theorem length_paths {t : CountTree} {p : Code} {x : (Byte × Word) × Code} (hx : x ∈ t.paths p) :
    p.length ≤ x.2.length ∧ x.2.length < p.length + t.leaves.length := by
  induction t generalizing p with
  | leaf e =>
    rw [paths, List.mem_singleton] at hx
    simp [hx, leaves]
  | node l r ihl ihr =>
    have hl : 0 < l.leaves.length := by have := l.size_add_one; omega
    have hr : 0 < r.leaves.length := by have := r.size_add_one; omega
    rw [paths, List.mem_append] at hx
    rcases hx with hx | hx
    · have := ihl hx
      simp only [List.length_append, List.length_singleton, leaves] at *
      omega
    · have := ihr hx
      simp only [List.length_append, List.length_singleton, leaves] at *
      omega

end CountTree

/-! ## The walk of GENCODES (R143) -/

/-- The byte values with their codes. -/
def codesOf (X : List ((Byte × Word) × Code)) : List (Byte × Code) := X.map (fun x => (x.1.1, x.2))

/-- The walk enters the paths of the tree under the node on top of the stack, and goes on with the rest of the stack. -/
theorem walk_tree {m : Internals} {t : CountTree} {n : NodeIdx} (h : IsTree m.node n t) (f : Nat) (p : Code)
    (stk : List (NodeIdx × Code)) (ct : ByteTable (Option Code)) (cnt : BitVec 9) :
    walk m (f + t.size) ((n, p) :: stk) ct cnt =
      walk m f stk ((codesOf (t.paths p)).foldl (fun c e => byteSet c e.1 (some e.2)) ct)
        (cnt + BitVec.ofNat 9 t.leaves.length) := by
  induction t generalizing n f p stk ct cnt with
  | leaf e =>
    rw [CountTree.size, walk, nodeAt_of_getElem? h]
    rfl
  | node l r ihl ihr =>
    obtain ⟨g, a, b, hn, ha, hb⟩ := h
    rw [show f + (CountTree.node l r).size = f + r.size + l.size + 1 by simp only [CountTree.size]; omega, walk,
      nodeAt_of_getElem? hn]
    simp only [ihl ha, ihr hb, CountTree.paths, codesOf, List.map_append, List.foldl_append, CountTree.leaves,
      List.length_append, BitVec.ofNat_add, BitVec.add_assoc]

/-- GENCODES on a tree makes the table of its paths. -/
theorem codeTable_tree {m : Internals} {t : CountTree} (h : IsTree m.node m.root t) (hd : m.degenSig = false)
    (hsize : t.leaves.length ≤ 256) :
    codeTable m = .ok (tableOf (codesOf (t.paths [])), BitVec.ofNat 9 t.leaves.length) := by
  have hs := t.size_add_one
  rw [codeTable, hd, if_neg Bool.false_ne_true,
    show Config.maxNodes = 511 - t.size + t.size by simp only [Config.maxNodes]; omega, walk_tree h, walk,
    show (0 : BitVec 9) + _ = _ from BitVec.zero_add _]
  rfl

/-- GENCODES on a single leaf gives it the code of one bit (R142). -/
theorem codeTable_leaf {m : Internals} {e : Byte × Word} (h : IsTree m.node m.root (.leaf e)) (hd : m.degenSig = true) :
    codeTable m = .ok (tableOf (codesOf [(e, [false])]), 1) := by
  have hs : symAt m m.root = e.1 := by rw [symAt, nodeAt_of_getElem? h]
  rw [codeTable, hd, hs]
  rfl

/-! ## The table -/

/-- A table of entries with different byte values holds exactly these. -/
theorem byteGet_tableOf {es : List (Byte × Code)} (hnd : (es.map Prod.fst).Nodup) {b : Byte} {p : Code} :
    byteGet (tableOf es) b = some p ↔ (b, p) ∈ es := by
  induction es using List.reverseRecOn with
  | nil => simp [tableOf]
  | append_singleton es e ih =>
    rw [List.map_append, List.nodup_append'] at hnd
    obtain ⟨hnd, -, hdisj⟩ := hnd
    rw [byteGet_tableOf_append, List.mem_append, List.mem_singleton]
    split_ifs with hb
    · subst hb
      have hnot : (e.1, p) ∉ es := fun hmem => hdisj (List.mem_map_of_mem hmem) (List.mem_singleton_self _)
      simp [hnot, Prod.ext_iff, eq_comm]
    · rw [ih hnd]
      simp [Prod.ext_iff, hb]

/-- The length of a byte value's code, 0 without one. -/
def codeLength (ct : ByteTable (Option Code)) (b : Byte) : Nat := ((byteGet ct b).getD []).length

theorem codeLength_of_some {ct : ByteTable (Option Code)} {b : Byte} {p : Code} (h : byteGet ct b = some p) :
    codeLength ct b = p.length := by
  rw [codeLength, h, Option.getD_some]

/-- What the table of an input does for its counts `es`: it has codes of 1 to 255 bits for exactly the byte values that
occur, its lengths satisfy Kraft's inequality, with equality for two or more, and no other such lengths cost less. -/
structure OptimalTable (es : List (Byte × Word)) (ct : ByteTable (Option Code)) : Prop where
  isSome_iff : ∀ b, (byteGet ct b).isSome = true ↔ b ∈ es.map Prod.fst
  legal : ∀ e ∈ es, 1 ≤ codeLength ct e.1 ∧ codeLength ct e.1 ≤ 255
  kraft_le : kraftSum ↑(es.map (fun e => codeLength ct e.1)) ≤ 1
  kraft_eq : 2 ≤ es.length → kraftSum ↑(es.map (fun e => codeLength ct e.1)) = 1
  least : ∀ δ : Byte → Nat, kraftSum ↑(es.map (fun e => δ e.1)) ≤ 1 → (∀ e ∈ es, 1 ≤ δ e.1) →
    (es.map (fun e => e.2.toNat * codeLength ct e.1)).sum ≤ (es.map (fun e => e.2.toNat * δ e.1)).sum

section
variable {es : List (Byte × Word)} {X : List ((Byte × Word) × Code)}

theorem map_fst_codesOf (hX : (X.map Prod.fst).Perm es) : ((codesOf X).map Prod.fst).Perm (es.map Prod.fst) := by
  have := hX.map Prod.fst
  rw [List.map_map] at this
  rw [codesOf, List.map_map]
  exact this

/-- The entries of a table made of paths are the leaves with the lengths of the paths. -/
theorem perm_codeLength (hX : (X.map Prod.fst).Perm es) (hnd : (es.map Prod.fst).Nodup) :
    (es.map (fun e => (e, codeLength (tableOf (codesOf X)) e.1))).Perm (X.map (fun x => (x.1, x.2.length))) := by
  have hX' := (map_fst_codesOf hX).nodup_iff.mpr hnd
  refine (hX.map _).symm.trans (List.Perm.of_eq ?_)
  rw [List.map_map]
  refine List.map_congr_left fun x hx => ?_
  have : byteGet (tableOf (codesOf X)) x.1.1 = some x.2 :=
    (byteGet_tableOf hX').mpr (List.mem_map_of_mem (f := fun x => (x.1.1, x.2)) hx)
  simp [codeLength_of_some this]

/-- Facts about the leaves and the lengths of the paths are facts about the table. -/
theorem OptimalTable.of_paths (hX : (X.map Prod.fst).Perm es) (hnd : (es.map Prod.fst).Nodup)
    (hlegal : ∀ x ∈ X, 1 ≤ x.2.length ∧ x.2.length ≤ 255) (hle : kraftSum ↑(X.map (fun x => x.2.length)) ≤ 1)
    (heq : 2 ≤ es.length → kraftSum ↑(X.map (fun x => x.2.length)) = 1)
    (hleast : ∀ δ : Byte → Nat, kraftSum ↑(es.map (fun e => δ e.1)) ≤ 1 → (∀ e ∈ es, 1 ≤ δ e.1) →
      (X.map (fun x => x.1.2.toNat * x.2.length)).sum ≤ (es.map (fun e => e.2.toNat * δ e.1)).sum) :
    OptimalTable es (tableOf (codesOf X)) := by
  have hperm := perm_codeLength hX hnd
  have hkraft : kraftSum ↑(es.map (fun e => codeLength (tableOf (codesOf X)) e.1)) =
      kraftSum ↑(X.map (fun x => x.2.length)) := by
    have := Multiset.coe_eq_coe.mpr (hperm.map Prod.snd)
    rw [List.map_map, List.map_map] at this
    exact congrArg kraftSum this
  have hcost : (es.map (fun e => e.2.toNat * codeLength (tableOf (codesOf X)) e.1)).sum =
      (X.map (fun x => x.1.2.toNat * x.2.length)).sum := by
    have := (hperm.map (fun y => y.1.2.toNat * y.2)).sum_eq
    rw [List.map_map, List.map_map] at this
    exact this
  refine ⟨fun b => ?_, fun e he => ?_, hkraft ▸ hle, fun h => hkraft ▸ heq h, fun δ h1 h2 => hcost ▸ hleast δ h1 h2⟩
  · rw [← (map_fst_codesOf hX).mem_iff, Option.isSome_iff_exists]
    simp [byteGet_tableOf ((map_fst_codesOf hX).nodup_iff.mpr hnd)]
  · have := hperm.mem_iff.mp (List.mem_map_of_mem he)
    obtain ⟨x, hx, hxe⟩ := List.mem_map.mp this
    rw [← (Prod.mk.inj hxe).2]
    exact hlegal x hx

/-- The table of a single leaf, with its code of one bit (R142). -/
theorem OptimalTable.of_leaf (e : Byte × Word) : OptimalTable [e] (tableOf (codesOf [(e, [false])])) := by
  refine .of_paths (List.Perm.refl _) (List.nodup_singleton _) (by simp) ?_ (by simp) fun δ _ hδ => ?_
  · norm_num [kraftSum]
  · simpa using Nat.le_mul_of_pos_right e.2.toNat (hδ e (List.mem_singleton_self e))

/-- The table of a tree with an internal root that is placed optimally. -/
theorem OptimalTable.of_node {l r : CountTree} (hleaves : (CountTree.node l r).leaves.Perm es)
    (hnd : (es.map Prod.fst).Nodup) (h256 : es.length ≤ 256) (hopt : Optimal es {.node l r}) :
    OptimalTable es (tableOf (codesOf ((CountTree.node l r).paths []))) := by
  have hk := (CountTree.node l r).kraftSum_paths []
  refine .of_paths (by rwa [CountTree.map_fst_paths]) hnd (fun x hx => ?_) hk.le (fun _ => hk) fun δ hδ _ => ?_
  · have hlong := (CountTree.length_paths hx).2
    rw [hleaves.length_eq, List.length_nil] at hlong
    refine ⟨?_, by omega⟩
    rw [CountTree.paths, List.mem_append] at hx
    rcases hx with hx | hx <;> exact (CountTree.length_paths hx).1
  · rw [CountTree.sum_paths]
    exact (hopt δ hδ).costAt_le

end

/-- A tree with an internal root has two leaves or more. -/
theorem CountTree.two_le_length_leaves (l r : CountTree) : 2 ≤ (CountTree.node l r).leaves.length := by
  have hl := l.size_add_one
  have hr := r.size_add_one
  rw [CountTree.leaves, List.length_append]
  omega

/-- BUILD and GENCODES make an optimal table of a non-empty input. -/
theorem huffmanTable_optimal {bs : List Byte} (hne : bs ≠ []) (hlt : bs.length < 2 ^ 32) :
    ∃ ct cnt dg, huffmanTable bs = .ok (ct, cnt, dg) ∧ OptimalTable (occurring (frequencies bs)) ct := by
  obtain ⟨es, hes⟩ : ∃ es, es = occurring (frequencies bs) := ⟨_, rfl⟩
  have hsum : (es.map (fun e => e.2.toNat)).sum = bs.length := by
    rw [hes, ← sum_frequencies hlt]
    simpa using sum_occurring (frequencies bs) (fun _ => 1)
  obtain ⟨m, t, hrun, ⟨-, hforest, hopt⟩, hdg, -⟩ := build_run (m := { Internals.reset with freq := frequencies bs })
    hes (hes ▸ occurring_frequencies_ne_nil hlt hne) (hsum ▸ hlt)
  have hleaves : t.leaves.Perm es := by
    have := hforest.entries
    rw [Multiset.singleton_bind] at this
    exact Multiset.coe_eq_coe.mp this
  have h256 : es.length ≤ 256 := hes ▸ length_occurring_le _
  have hroot := hforest.isTree_root
  rw [← hes]
  cases t with
  | leaf e =>
    obtain rfl : [e] = es := List.singleton_perm.mp hleaves
    exact ⟨_, _, _, (ok_bind hrun _).trans (ok_bind (codeTable_leaf hroot hdg) _), .of_leaf e⟩
  | node l r =>
    have htwo := hleaves.length_eq ▸ CountTree.two_le_length_leaves l r
    exact ⟨_, _, _, (ok_bind hrun _).trans (ok_bind (codeTable_tree hroot
      (hdg.trans (decide_eq_false (by omega))) (hleaves.length_eq ▸ h256)) _),
      .of_node hleaves (hes ▸ nodup_occurring _) h256 hopt⟩

end Sys2Proof
end

section
/-! PROOFS. The code table is optimal (R131): Kraft's inequality for any other code, and what follows for the
lengths of frequent and rare byte values. -/

namespace Sys2Proof
open Machine

/-! ## Kraft's inequality -/

/-- A set of non-empty codes, none of which begins another, is uniquely decodable: the first codes of two sequences with
the same bits both begin these bits, so they are equal. -/
theorem uniquelyDecodable_of_prefixFree {S : Set Code} (hne : [] ∉ S)
    (hpf : ∀ c ∈ S, ∀ d ∈ S, c <+: d → c = d) : InformationTheory.UniquelyDecodable S := by
  intro L₁
  induction L₁ with
  | nil =>
    rintro (_ | ⟨d, L₂⟩) - h₂ he
    · rfl
    · have : d = [] := by
        rw [List.flatten_nil, List.flatten_cons] at he
        exact (List.append_eq_nil_iff.mp he.symm).1
      exact absurd (this ▸ h₂ d (List.mem_cons_self)) hne
  | cons c L₁ ih =>
    rintro (_ | ⟨d, L₂⟩) h₁ h₂ he
    · rw [List.flatten_nil, List.flatten_cons] at he
      exact absurd ((List.append_eq_nil_iff.mp he).1 ▸ h₁ c List.mem_cons_self) hne
    · rw [List.flatten_cons, List.flatten_cons] at he
      have hc := h₁ c List.mem_cons_self
      have hd := h₂ d List.mem_cons_self
      have hcd : c = d := by
        rcases List.prefix_or_prefix_of_prefix (List.prefix_append c _) (he ▸ List.prefix_append d _) with h | h
        · exact hpf c hc d hd h
        · exact (hpf d hd c hc h).symm
      subst hcd
      rw [ih L₂ (fun w hw => h₁ w (List.mem_cons_of_mem _ hw)) (fun w hw => h₂ w (List.mem_cons_of_mem _ hw))
        (List.append_cancel_left he)]

/-- The lengths of the codes that a table has for some byte values satisfy Kraft's inequality if none begins another. -/
theorem kraftSum_le_one_of_prefixFree {ct : ByteTable (Option Code)} (hpf : PrefixFree ct) {l : List Byte}
    (hnd : l.Nodup) (hcov : Covers ct l) (hne : ∀ b p, byteGet ct b = some p → p ≠ []) :
    kraftSum ↑(l.map (codeLength ct)) ≤ 1 := by
  have hcode : ∀ b ∈ l, byteGet ct b = some ((byteGet ct b).getD []) := fun b hb => by
    obtain ⟨p, hp⟩ := Option.isSome_iff_exists.mp (hcov b hb)
    rw [hp, Option.getD_some]
  have hinj : ∀ b ∈ l, ∀ c ∈ l, (byteGet ct b).getD [] <+: (byteGet ct c).getD [] → b = c := fun b hb c hc h =>
    by_contra fun hbc => hpf b c _ _ hbc (hcode b hb) (hcode c hc) h
  have hS : (l.map (fun b => (byteGet ct b).getD [])).Nodup :=
    List.Nodup.map_on (fun b hb c hc h => hinj b hb c hc (h ▸ List.prefix_refl _)) hnd
  have hud : InformationTheory.UniquelyDecodable
      ((l.map (fun b => (byteGet ct b).getD [])).toFinset : Set Code) := by
    refine uniquelyDecodable_of_prefixFree ?_ ?_
    · simp only [List.coe_toFinset, Set.mem_ofPred_eq, List.mem_map, not_exists, not_and]
      exact fun b hb => hne b _ (hcode b hb)
    · simp only [List.coe_toFinset, Set.mem_ofPred_eq, List.mem_map]
      rintro _ ⟨b, hb, rfl⟩ _ ⟨c, hc, rfl⟩ h
      rw [hinj b hb c hc h]
  have := InformationTheory.kraft_mcmillan_inequality hud
  rw [List.sum_toFinset _ hS] at this
  simpa [kraftSum, Function.comp_def, codeLength] using this

/-! ## Frequent and rare byte values -/

/-- Exchanging two byte values of a list rearranges it. -/
theorem map_swap_perm {l : List Byte} (hnd : l.Nodup) {b c : Byte} (hb : b ∈ l) (hc : c ∈ l) :
    (l.map (Equiv.swap b c)).Perm l := by
  refine (List.perm_ext_iff_of_nodup (hnd.map (Equiv.injective _)) hnd).mpr fun x => ?_
  rw [List.mem_map_of_involutive (Equiv.swap_apply_self b c), Equiv.swap_apply_def]
  split_ifs with hxb hxc
  · exact iff_of_true hc (hxb ▸ hb)
  · exact iff_of_true hb (hxc ▸ hc)
  · rfl

/-- What the exchange of two byte values' lengths changes in the weighted length. -/
theorem sum_swap (w L : Byte → Nat) {b c : Byte} (hbc : b ≠ c) :
    (allBytes.map (fun x => w x * L (Equiv.swap b c x))).sum + (w b * L b + w c * L c) =
      (allBytes.map (fun x => w x * L x)).sum + (w b * L c + w c * L b) := by
  have hc : c ∈ allBytes.erase b := (List.mem_erase_of_ne hbc.symm).mpr (mem_allBytes c)
  have hperm : allBytes.Perm (b :: c :: (allBytes.erase b).erase c) :=
    (List.perm_cons_erase (mem_allBytes b)).trans ((List.perm_cons_erase hc).cons b)
  have hnd := hperm.nodup_iff.mp nodup_allBytes
  have hrest : ((allBytes.erase b).erase c).map (fun x => w x * L (Equiv.swap b c x)) =
      ((allBytes.erase b).erase c).map (fun x => w x * L x) := by
    refine List.map_congr_left fun x hx => ?_
    rw [Equiv.swap_apply_of_ne_of_ne]
    · rintro rfl
      exact (List.nodup_cons.mp hnd).1 (List.mem_cons_of_mem _ hx)
    · rintro rfl
      exact (List.nodup_cons.mp (List.nodup_cons.mp hnd).2).1 hx
  rw [(hperm.map _).sum_eq, (hperm.map (fun x => w x * L x)).sum_eq]
  simp only [List.map_cons, List.sum_cons, hrest, Equiv.swap_apply_left, Equiv.swap_apply_right]
  omega

/-- In an optimal table a byte value that occurs more often has no longer code: else the exchange of the two lengths
would cost less. -/
theorem OptimalTable.length_le {f : ByteTable Word} {ct : ByteTable (Option Code)} (h : OptimalTable (occurring f) ct)
    {b c : Byte} (hb : b ∈ (occurring f).map Prod.fst) (hc : c ∈ (occurring f).map Prod.fst)
    (hlt : (byteGet f c).toNat < (byteGet f b).toNat) : codeLength ct b ≤ codeLength ct c := by
  by_contra! hlong
  have hbc : b ≠ c := fun e => Nat.lt_irrefl _ (e ▸ hlt)
  have hswap := map_swap_perm (nodup_occurring f) hb hc
  have hkraft : kraftSum ↑((occurring f).map (fun e => codeLength ct (Equiv.swap b c e.1))) ≤ 1 := by
    have := Multiset.coe_eq_coe.mpr (hswap.map (codeLength ct))
    simp only [List.map_map, Function.comp_def] at this
    rw [this]
    exact h.kraft_le
  have hle := h.least (fun x => codeLength ct (Equiv.swap b c x)) hkraft fun e he => by
    have := hswap.mem_iff.mp (List.mem_map_of_mem (List.mem_map_of_mem he))
    obtain ⟨e', he', heq⟩ := List.mem_map.mp this
    exact heq ▸ (h.legal e' he').1
  rw [sum_occurring f (codeLength ct), sum_occurring f (fun x => codeLength ct (Equiv.swap b c x))] at hle
  have hsum := sum_swap (fun x => (byteGet f x).toNat) (codeLength ct) hbc
  have hgain := mul_add_mul_lt_mul_add_mul hlt hlong
  omega

/-! ## The statement -/

/-- Kraft's sum of lengths up to `N`, scaled by `2^N` to a natural number. -/
theorem sum_two_pow_sub {N : Nat} {ds : List Nat} (h : ∀ d ∈ ds, d ≤ N) :
    (((ds.map (fun d => 2 ^ (N - d))).sum : Nat) : ℝ) = 2 ^ N * kraftSum ↑ds := by
  induction ds with
  | nil => simp [kraftSum]
  | cons d ds ih =>
    obtain ⟨k, rfl⟩ := Nat.exists_eq_add_of_le (h d List.mem_cons_self)
    have hinv : (2 : ℝ) ^ d * (1 / 2) ^ d = 1 := by rw [← mul_pow]; norm_num
    rw [List.map_cons, List.sum_cons, Nat.cast_add, ih fun d' hd' => h d' (List.mem_cons_of_mem _ hd'),
      ← Multiset.cons_coe, kraftSum_cons, Nat.add_sub_cancel_left, pow_add]
    push_cast
    linear_combination -(2 : ℝ) ^ k * hinv

/-- The entries of an optimal table are the byte values that occur, ascending, with their codes. -/
theorem OptimalTable.codeEntries_eq {f : ByteTable Word} {ct : ByteTable (Option Code)}
    (h : OptimalTable (occurring f) ct) :
    codeEntries ct = (occurring f).map (fun e => (e.1, (byteGet ct e.1).getD [])) := by
  have hsome : ∀ b, (byteGet ct b).isSome = (byteGet f b != 0) := fun b => by
    rw [Bool.eq_iff_iff, h.isSome_iff, List.mem_map, bne_iff_ne]
    simp [mem_occurring]
  rw [Machine.codeEntries_eq, occurring_eq, List.map_map, List.filter_congr fun b _ => (hsome b).symm]
  induction allBytes with
  | nil => rfl
  | cons b bs ih => cases hp : byteGet ct b <;> simp [hp, ih]

/-- The number of distinct byte values is the number of counters that are not 0. -/
theorem distinctCount_eq {bs : List Byte} (hlt : bs.length < 2 ^ 32) :
    distinctCount bs = (occurring (frequencies bs)).length := by
  rw [distinctCount, occurring_eq, List.length_map]
  refine ((List.perm_ext_iff_of_nodup (List.nodup_dedup bs) (nodup_allBytes.filter _)).mpr fun b => ?_).length_eq
  rw [List.mem_dedup, List.mem_filter, bne_iff_ne, byteGet_frequencies_ne_zero hlt]
  simp [mem_allBytes]

/-- Settles O46: the table is optimal among all lengths that satisfy Kraft's inequality, and those of every other
table do. -/
theorem huffmanTableIsOptimal : Obligations.HuffmanTableIsOptimal := by
  intro bs ct cnt dg hne hlt hrun
  obtain ⟨ct', cnt', dg', hrun', h⟩ := huffmanTable_optimal hne hlt
  cases hrun.symm.trans hrun'
  have hmem : ∀ b ∈ (occurring (frequencies bs)).map Prod.fst, b ∈ bs := fun b hb => by
    obtain ⟨e, he, rfl⟩ := List.mem_map.mp hb
    obtain ⟨he, hne0⟩ := mem_occurring.mp he
    exact (byteGet_frequencies_ne_zero hlt _).mp (he ▸ hne0)
  refine ⟨fun other hpf hcov hoth => ?_, fun htwo => ?_, fun b c p q hp hq hcount => ?_⟩
  · have hkraft := kraftSum_le_one_of_prefixFree hpf (nodup_occurring (frequencies bs))
      (fun b hb => hcov b (hmem b hb)) hoth
    rw [List.map_map] at hkraft
    have hle := h.least (codeLength other) hkraft fun e he => by
      obtain ⟨p, hp⟩ := Option.isSome_iff_exists.mp (hcov e.1 (hmem e.1 (List.mem_map_of_mem he)))
      rw [codeLength_of_some hp]
      exact List.length_pos_of_ne_nil (hoth _ _ hp)
    rwa [sum_occurring _ (codeLength ct), sum_occurring _ (codeLength other)] at hle
  · have hscale := sum_two_pow_sub (N := 255) (ds := (occurring (frequencies bs)).map (fun e => codeLength ct e.1))
      (List.forall_mem_map.mpr fun e he => (h.legal e he).2)
    rw [h.kraft_eq (distinctCount_eq hlt ▸ htwo), mul_one, List.map_map] at hscale
    rw [h.codeEntries_eq, List.map_map]
    exact_mod_cast hscale
  · rw [← codeLength_of_some hp, ← codeLength_of_some hq]
    refine h.length_le ((h.isSome_iff b).mp (by rw [hp]; rfl)) ((h.isSome_iff c).mp (by rw [hq]; rfl)) ?_
    rwa [toNat_byteGet_frequencies hlt, toNat_byteGet_frequencies hlt]

end Sys2Proof
end

section
/-! PROOFS. The table of GENCODES on any arena that is a tree (R34, R141 to R143), and the table of an input, in
which no code begins another one and exactly the input's byte values have a code (R146 to R148). -/

namespace Sys2Proof
open Machine

/-! ## The tree of an arena -/

/-- The entry of an arena at the index of one of its nodes. -/
theorem getElem?_ofNat {node : List Node} {i : Nat} (hi : i < node.length) (hN : node.length ≤ 512) :
    node[(BitVec.ofNat 9 i).toNat]? = some node[i] := by
  rw [BitVec.toNat_ofNat, Nat.mod_eq_of_lt (by omega), List.getElem?_eq_getElem hi]

namespace Forest

variable {node : List Node} {x : Node} {roots : Multiset NodeIdx}

/-- The newest node is a root, since only a newer node could have it as a child. -/
theorem newest_mem_roots (hN : node.length < 512) (hold : ChildrenOlder (node ++ [x]))
    (h : (↑((node ++ [x]).flatMap Node.children) : Multiset NodeIdx) + roots =
      ↑((List.range (node ++ [x]).length).map (BitVec.ofNat 9))) : BitVec.ofNat 9 node.length ∈ roots := by
  have hnew : (BitVec.ofNat 9 node.length).toNat = node.length := by rw [BitVec.toNat_ofNat, Nat.mod_eq_of_lt hN]
  have hlen : (node ++ [x]).length = node.length + 1 := by simp
  have hmem := (mem_indices (BitVec.ofNat 9 node.length) (node ++ [x]).length (by omega)).mpr (by omega)
  rw [← Multiset.mem_coe, ← h, Multiset.mem_add, Multiset.mem_coe, List.mem_flatMap] at hmem
  refine hmem.resolve_left fun ⟨y, hy, hc⟩ => ?_
  obtain ⟨i, hi, rfl⟩ := List.getElem_of_mem hy
  have := hold i _ _ (List.getElem?_eq_getElem hi) hc
  omega

/-- The converse of `indices_concat`: without its newest node, which is a root, an arena has the node's children as
roots in its place. -/
theorem indices_of_concat
    (h : (↑((node ++ [x]).flatMap Node.children) : Multiset NodeIdx) + (BitVec.ofNat 9 node.length ::ₘ roots) =
      ↑((List.range (node ++ [x]).length).map (BitVec.ofNat 9))) :
    (↑(node.flatMap Node.children) : Multiset NodeIdx) + (↑x.children + roots) =
      ↑((List.range node.length).map (BitVec.ofNat 9)) := by
  rw [List.length_append, List.length_singleton, List.range_succ, List.map_append, ← Multiset.coe_add,
    List.flatMap_append, ← Multiset.coe_add, ← Multiset.singleton_add, List.flatMap_singleton, List.map_singleton,
    Multiset.coe_singleton] at h
  refine add_right_cancel (b := {BitVec.ofNat 9 node.length}) (Eq.trans ?_ h)
  abel

/-- An arena in which every index is a root or a child once, and children are older, is a forest: its newest node is a
leaf of its own or the merge of two trees of what is left without it. -/
theorem of_indices (hN : node.length ≤ 512) (hold : ChildrenOlder node) (hsum : SumsHold node)
    (hidx : (↑(node.flatMap Node.children) : Multiset NodeIdx) + roots =
      ↑((List.range node.length).map (BitVec.ofNat 9))) :
    ∃ F, Forest (node.filterMap Node.entry) node roots F := by
  induction node using List.reverseRecOn generalizing roots with
  | nil =>
    obtain rfl : roots = 0 := by simpa using hidx
    exact ⟨0, .empty⟩
  | append_singleton node x ih =>
    have hlt : node.length < 512 := by
      rw [List.length_append, List.length_singleton] at hN
      exact hN
    obtain ⟨roots, rfl⟩ := Multiset.exists_cons_of_mem (newest_mem_roots hlt hold hidx)
    obtain ⟨F, hF⟩ := ih hlt.le (fun i y n hy => hold i y n (getElem?_append_of_some hy))
      (fun i f l r y z hi hy hz => hsum i f l r y z (getElem?_append_of_some hi) (getElem?_append_of_some hy)
        (getElem?_append_of_some hz)) (indices_of_concat hidx)
    rw [List.filterMap_append]
    cases x with
    | leaf f b =>
      rw [show (↑(Node.leaf f b).children : Multiset NodeIdx) = 0 from rfl, zero_add] at hF
      exact ⟨_, hF.addLeaf hlt b f⟩
    | inner f l r =>
      rw [show (↑(Node.inner f l r).children : Multiset NodeIdx) = l ::ₘ r ::ₘ 0 from rfl, Multiset.cons_add,
        Multiset.cons_add, zero_add] at hF
      obtain ⟨t, u, G, -, -, -, -, hG⟩ := hF.merge hlt fun y z hy hz =>
        hsum node.length f l r y z List.getElem?_concat_length (getElem?_append_of_some hy) (getElem?_append_of_some hz)
      rw [show [Node.inner f l r].filterMap Node.entry = [] from rfl, List.append_nil]
      exact ⟨_, hG⟩

end Forest

namespace TreeArena

variable {m : Internals}

/-- A node that stands among the children of an entry is a child of the entry's index. -/
theorem childOf_ofNat (h : TreeArena m) {i : Nat} (hi : i < m.node.length) {n : NodeIdx}
    (hn : n ∈ m.node[i].children) : ChildOf m n (BitVec.ofNat 9 i) :=
  childOf_iff.mpr ⟨_, getElem?_ofNat hi (h.size.trans (by omega)), hn⟩

theorem childrenOlder (h : TreeArena m) : ChildrenOlder m.node := by
  intro i x n hx hn
  obtain ⟨hi, rfl⟩ := List.getElem?_eq_some_iff.mp hx
  have hN := h.size
  obtain ⟨f, l, r, hp, hn⟩ := h.childOf_ofNat hi hn
  obtain ⟨hl, hr, -⟩ := h.older _ f l r hp
  have hlt : n < BitVec.ofNat 9 i := by
    rcases hn with rfl | rfl
    · exact hl
    · exact hr
  rwa [BitVec.lt_def, BitVec.toNat_ofNat, Nat.mod_eq_of_lt (by omega)] at hlt

/-- The children of the arena's nodes, as a list with the root, name no node twice: no node is shared. -/
theorem nodup_children (h : TreeArena m) : (m.node.flatMap Node.children ++ [m.root]).Nodup := by
  have hN := h.size
  refine List.nodup_append'.mpr ⟨List.nodup_flatMap.mpr ⟨fun x hx => ?_, ?_⟩, List.nodup_singleton _, ?_⟩
  · obtain ⟨i, hi, rfl⟩ := List.getElem_of_mem hx
    cases hx : m.node[i] with
    | leaf f b => exact List.nodup_nil
    | inner f l r =>
      obtain ⟨-, -, hne⟩ := h.older (BitVec.ofNat 9 i) f l r (hx ▸ getElem?_ofNat hi (by omega))
      simpa [Node.children] using hne
  · refine List.pairwise_iff_getElem.mpr fun i j hi hj hij n hni hnj => ?_
    have := congrArg BitVec.toNat (h.noSharing n _ _ (h.childOf_ofNat hi hni) (h.childOf_ofNat hj hnj))
    rw [BitVec.toNat_ofNat, BitVec.toNat_ofNat, Nat.mod_eq_of_lt (by omega), Nat.mod_eq_of_lt (by omega)] at this
    omega
  · intro n hn hroot
    obtain ⟨x, hx, hnx⟩ := List.mem_flatMap.mp hn
    obtain ⟨i, hi, rfl⟩ := List.getElem_of_mem hx
    exact h.rootFree _ (List.mem_singleton.mp hroot ▸ h.childOf_ofNat hi hnx)

/-- The converse of `Forest.treeArena`: an arena that is a tree (R34) is a forest with one root. -/
theorem forest (h : TreeArena m) : ∃ t, Forest (m.node.filterMap Node.entry) m.node {m.root} {t} := by
  have hN := h.size
  have hidx : (m.node.flatMap Node.children ++ [m.root]).Perm ((List.range m.node.length).map (BitVec.ofNat 9)) := by
    refine (List.perm_ext_iff_of_nodup h.nodup_children (nodup_indices (by omega))).mpr fun n => ?_
    rw [mem_indices n _ (by omega), List.mem_append, List.mem_singleton]
    constructor
    · rintro (hn | rfl)
      · obtain ⟨x, hx, hnx⟩ := List.mem_flatMap.mp hn
        obtain ⟨i, hi, rfl⟩ := List.getElem_of_mem hx
        exact (h.childrenOlder i _ n (List.getElem?_eq_getElem hi) hnx).trans hi
      · exact h.root
    · intro hn
      refine or_iff_not_imp_right.mpr fun hne => ?_
      obtain ⟨p, hp⟩ := h.connected n hn hne
      obtain ⟨x, hx, hnx⟩ := childOf_iff.mp hp
      exact List.mem_flatMap.mpr ⟨x, List.mem_of_getElem? hx, hnx⟩
  obtain ⟨F, hF⟩ := Forest.of_indices (roots := {m.root}) (by omega) h.childrenOlder h.sums
    (by rw [← Multiset.coe_eq_coe.mpr hidx, ← Multiset.coe_add, Multiset.coe_singleton])
  obtain ⟨t, rfl⟩ := Multiset.card_eq_one.mp (Multiset.card_eq_card_of_rel hF.trees).symm
  exact ⟨t, hF⟩

/-- No byte value is on two leaves (R34). -/
theorem nodup_symbols (h : TreeArena m) : ((m.node.filterMap Node.entry).map Prod.fst).Nodup := by
  rw [List.Nodup, List.pairwise_map, List.pairwise_filterMap, List.pairwise_iff_getElem]
  rintro i j hi hj hij ⟨b, f⟩ hb ⟨c, g⟩ hc rfl
  rw [entry_eq_some] at hb hc
  have := h.symbols i j f g b (hb ▸ List.getElem?_eq_getElem hi) (hc ▸ List.getElem?_eq_getElem hj)
  omega

end TreeArena

/-- The leaves of the one tree are the leaves of the arena. -/
theorem Forest.leaves_perm {es : List (Byte × Word)} {node : List Node} {roots : Multiset NodeIdx} {t : CountTree}
    (h : Forest es node roots {t}) : t.leaves.Perm es := by
  have := h.entries
  rw [Multiset.singleton_bind] at this
  exact Multiset.coe_eq_coe.mp this

theorem length_filterMap_entry (m : Internals) : (m.node.filterMap Node.entry).length = leafCount m := by
  rw [List.length_filterMap_eq_countP, leafCount]
  refine List.countP_congr fun x _ => ?_
  cases x <;> simp [Node.entry]

/-! ## Paths and codes -/

namespace CountTree

/-- A path to the root begins every path to a leaf. -/
theorem paths_eq_map (t : CountTree) (p : Code) : t.paths p = (t.paths []).map (fun x => (x.1, p ++ x.2)) := by
  induction t generalizing p with
  | leaf e => simp [paths]
  | node l r ihl ihr =>
    rw [paths, paths, ihl, ihr, ihl ([] ++ [false]), ihr ([] ++ [true])]
    simp [Function.comp_def]

theorem nil_notMem_paths_node {l r : CountTree} {e : Byte × Word} : (e, []) ∉ (node l r).paths [] := by
  simp [paths, paths_eq_map _ [_]]

/-- The first edge of a path says which child it goes on from (R141). -/
theorem cons_mem_paths_node {l r : CountTree} {e : Byte × Word} {x : Bool} {p : Code} :
    (e, x :: p) ∈ (node l r).paths [] ↔ (e, p) ∈ (if x then r else l).paths [] := by
  cases x <;> simp [paths, paths_eq_map _ [_]]

/-- No path to a leaf begins the path to another one (R147). -/
theorem eq_of_prefix {t : CountTree} {d e : Byte × Word} {p q : Code} (hp : (d, p) ∈ t.paths [])
    (hq : (e, q) ∈ t.paths []) (h : p <+: q) : d = e := by
  induction t generalizing p q with
  | leaf g =>
    rw [paths, List.mem_singleton] at hp hq
    rw [(Prod.mk.inj hp).1, (Prod.mk.inj hq).1]
  | node l r ihl ihr =>
    match p, q with
    | [], _ => exact absurd hp nil_notMem_paths_node
    | x :: p, [] => exact absurd hq nil_notMem_paths_node
    | x :: p, y :: q =>
      obtain ⟨rfl, hpq⟩ := List.cons_prefix_cons.mp h
      rw [cons_mem_paths_node] at hp hq
      cases x
      · exact ihl hp hq hpq
      · exact ihr hp hq hpq

end CountTree

/-- The edge labels that lead from a node to a leaf are the leaf's path in the tree under the node (R141). -/
theorem IsTree.descend_iff {m : Internals} {n : NodeIdx} {t : CountTree} (h : IsTree m.node n t) {b : Byte} {f : Word}
    {p : Code} : (∃ k, descend m n p = some k ∧ m.node[k.toNat]? = some (.leaf f b)) ↔ ((b, f), p) ∈ t.paths [] := by
  induction t generalizing n p with
  | leaf e =>
    have hn : m.node[n.toNat]? = some (.leaf e.2 e.1) := h
    cases p with
    | nil => simp [descend, hn, CountTree.paths, Prod.ext_iff, eq_comm, and_comm]
    | cons x p => simp [descend, hn, CountTree.paths]
  | node l r ihl ihr =>
    obtain ⟨g, a, c, hn, ha, hc⟩ := h
    cases p with
    | nil => simp [descend, hn, CountTree.nil_notMem_paths_node]
    | cons x p =>
      rw [CountTree.cons_mem_paths_node]
      simp only [descend, hn]
      cases x
      · exact ihl ha
      · exact ihr hc

theorem mem_codesOf {X : List ((Byte × Word) × Code)} {b : Byte} {p : Code} :
    (b, p) ∈ codesOf X ↔ ∃ f, ((b, f), p) ∈ X := by
  simp [codesOf]

/-- Paths of which none begins another leaf's give a table in which no code begins another one (R147). -/
theorem prefixFree_tableOf_codesOf {X : List ((Byte × Word) × Code)} (hnd : ((codesOf X).map Prod.fst).Nodup)
    (hX : ∀ d e p q, (d, p) ∈ X → (e, q) ∈ X → p <+: q → d = e) : PrefixFree (tableOf (codesOf X)) := by
  intro b c p q hbc hp hq hpq
  obtain ⟨f, hp⟩ := mem_codesOf.mp ((byteGet_tableOf hnd).mp hp)
  obtain ⟨g, hq⟩ := mem_codesOf.mp ((byteGet_tableOf hnd).mp hq)
  exact hbc (Prod.mk.inj (hX _ _ p q hp hq hpq)).1

/-! ## GENCODES -/

/-- GENCODES writes the table and its entry count, and empties the stack (R143). -/
theorem execGencodes_run {s : State} {ct : ByteTable (Option Code)} {cnt : BitVec 9}
    (h : codeTable s.int = .ok (ct, cnt)) :
    execGencodes s = .next { s with phase := 0x30#8, entryCnt := cnt, int := { s.int with ct := ct, stk := [] } } := by
  rw [execGencodes, ok_bind h]
  rfl

/-- Settles O29: the arena is the forest of one tree, GENCODES makes the table of that tree's paths, and these are the
paths that `descend` follows. -/
theorem gencodesFollowsThePaths : Obligations.GencodesFollowsThePaths := by
  intro s h hd
  obtain ⟨t, hF⟩ := h.forest
  have hroot := hF.isTree_root
  have hcard := hF.length_add_card
  have hperm := hF.leaves_perm
  have hsize := h.size
  rw [Multiset.card_singleton] at hcard
  have hnd : ((codesOf (t.paths [])).map Prod.fst).Nodup :=
    (map_fst_codesOf ((t.map_fst_paths []).symm ▸ hperm)).nodup_iff.mpr h.nodup_symbols
  have h256 : t.leaves.length ≤ 256 := by
    rw [hperm.length_eq]
    omega
  refine ⟨_, execGencodes_run (codeTable_tree hroot hd h256), fun b p => ?_, ?_, rfl⟩
  · rw [byteGet_tableOf hnd, mem_codesOf, exists_comm]
    exact exists_congr fun f => hroot.descend_iff.symm
  · rw [BitVec.toNat_ofNat, Nat.mod_eq_of_lt (by omega), hperm.length_eq, length_filterMap_entry]

theorem symAt_of_getElem? {m : Internals} {n : NodeIdx} {f : Word} {b : Byte}
    (h : m.node[n.toNat]? = some (.leaf f b)) : symAt m n = b := by
  rw [symAt, nodeAt_of_getElem? h]

/-- GENCODES with `DEGEN_SIG = 1` reads the root's byte value and nothing else of the arena (R142). -/
theorem codeTable_degenerate {m : Internals} (hd : m.degenSig = true) :
    codeTable m = .ok (byteSet emptyTable (symAt m m.root) (some [false]), 1) := by
  rw [codeTable, if_pos hd]
  rfl

/-- Settles O30: the one entry is that of the root's byte value. -/
theorem gencodesDegenerateCode : Obligations.GencodesDegenerateCode := by
  intro s hd
  refine ⟨_, symAt s.int s.int.root, execGencodes_run (codeTable_degenerate hd), fun f c hc => symAt_of_getElem? hc,
    byteGet_byteSet_self _ _ _, fun c hc => ?_, rfl, rfl⟩
  rw [byteGet_byteSet, if_neg hc, byteGet_emptyTable]

/-! ## The table of an input -/

/-- The table of a non-empty input is made of one path for each byte value that occurs, and no path begins another:
those of BUILD's tree, or the code of one bit for its only leaf (R142, R147, R148). -/
theorem huffmanTable_paths {bs : List Byte} (hne : bs ≠ []) (hlt : bs.length < 2 ^ 32) :
    ∃ X, huffmanTable bs = .ok (tableOf (codesOf X), BitVec.ofNat 9 X.length, decide (X.length = 1)) ∧
      (X.map Prod.fst).Perm (occurring (frequencies bs)) ∧
      ∀ d e p q, (d, p) ∈ X → (e, q) ∈ X → p <+: q → d = e := by
  have hsum : ((occurring (frequencies bs)).map (fun e => e.2.toNat)).sum = bs.length := by
    rw [← sum_frequencies hlt]
    simpa using sum_occurring (frequencies bs) (fun _ => 1)
  obtain ⟨m, t, hrun, ⟨-, hforest, -⟩, hdg, -⟩ := build_run (m := { Internals.reset with freq := frequencies bs })
    rfl (occurring_frequencies_ne_nil hlt hne) (hsum ▸ hlt)
  have hroot := hforest.isTree_root
  have hperm := hforest.leaves_perm
  rw [← hperm.length_eq] at hdg
  cases t with
  | leaf e =>
    refine ⟨[(e, [false])], (ok_bind hrun _).trans ((ok_bind (codeTable_leaf hroot hdg) _).trans ?_), hperm, ?_⟩
    · rw [hdg]
      rfl
    · intro d e' p q hp hq _
      rw [List.mem_singleton] at hp hq
      rw [(Prod.mk.inj hp).1, (Prod.mk.inj hq).1]
  | node l r =>
    have htwo := CountTree.two_le_length_leaves l r
    have hlen : ((CountTree.node l r).paths []).length = (CountTree.node l r).leaves.length := by
      rw [← CountTree.map_fst_paths _ [], List.length_map]
    refine ⟨_, (ok_bind hrun _).trans ((ok_bind (codeTable_tree hroot (hdg.trans (decide_eq_false (by omega)))
      (hperm.length_eq ▸ length_occurring_le _)) _).trans ?_), (CountTree.map_fst_paths _ []).symm ▸ hperm,
      fun d e p q => CountTree.eq_of_prefix⟩
    rw [hlen, hdg]
    rfl

/-- The codes of an optimal table have 1 to 255 bits. -/
theorem OptimalTable.legalLengths {es : List (Byte × Word)} {ct : ByteTable (Option Code)} (h : OptimalTable es ct) :
    LegalLengths ct := by
  intro b p hp
  obtain ⟨e, he, rfl⟩ := List.mem_map.mp ((h.isSome_iff b).mp (by rw [hp]; rfl))
  rw [← codeLength_of_some hp]
  exact h.legal e he

/-- The byte values with a counter that is not 0 are those of the input (R113). -/
theorem mem_occurring_frequencies {bs : List Byte} (hlt : bs.length < 2 ^ 32) (b : Byte) :
    b ∈ (occurring (frequencies bs)).map Prod.fst ↔ b ∈ bs := by
  rw [← byteGet_frequencies_ne_zero hlt, List.mem_map]
  simp [mem_occurring]

/-- Settles O45: the paths give the count and `DEGEN_SIG`, and none begins another one; the domain and the lengths are those of an
optimal table (O46). -/
theorem huffmanTableIsACode : Obligations.HuffmanTableIsACode := by
  intro bs hne hlt
  obtain ⟨X, hrun, hX, hpf⟩ := huffmanTable_paths hne hlt
  obtain ⟨ct, cnt, dg, hrun', hopt⟩ := huffmanTable_optimal hne hlt
  cases hrun.symm.trans hrun'
  have hlen : X.length = distinctCount bs := by rw [distinctCount_eq hlt, ← hX.length_eq, List.length_map]
  have h256 : distinctCount bs ≤ 256 := distinctCount_eq hlt ▸ length_occurring_le _
  rw [hlen] at hrun
  refine ⟨_, _, hrun, ?_, prefixFree_tableOf_codesOf ((map_fst_codesOf hX).nodup_iff.mpr (nodup_occurring _)) hpf,
    hopt.legalLengths, fun b => (hopt.isSome_iff b).trans (mem_occurring_frequencies hlt b)⟩
  rw [BitVec.toNat_ofNat, Nat.mod_eq_of_lt (by omega)]

end Sys2Proof
end

section
/-! PROOFS. The BitPacker (R150 to R156): the bits that have entered it are whole bytes in `PAY` and up to seven bits in
`BITBUF`, and PACK is that packer run on the codes of the input. -/

namespace Sys2Proof
open Machine

/-! ## The buffer (R152) -/

/-- `BITBUF` after one more bit has been shifted in. -/
def shiftIn (buf : Byte) (x : Bool) : Byte := (buf <<< 1) ||| (BitVec.ofBool x).setWidth 8

theorem packBit_store {m : Internals} {x : Bool} (h : m.bitfill = 7) :
    packBit m x = { m with
      pay := m.pay ++ [shiftIn m.bitbuf x], bitbuf := 0, bitfill := 0, bitcnt := m.bitcnt + 1 } := by
  rw [packBit, if_pos h]
  rfl

theorem packBit_keep {m : Internals} {x : Bool} (h : m.bitfill ≠ 7) :
    packBit m x = { m with
      bitbuf := shiftIn m.bitbuf x, bitfill := m.bitfill + 1, bitcnt := m.bitcnt + 1 } := by
  rw [packBit, if_neg h]
  rfl

theorem getLsbD_shiftIn_zero (buf : Byte) (x : Bool) : (shiftIn buf x).getLsbD 0 = x := by
  simp [shiftIn]

theorem getLsbD_shiftIn_succ (buf : Byte) (x : Bool) {i : Nat} (hi : i + 1 < 8) :
    (shiftIn buf x).getLsbD (i + 1) = buf.getLsbD i := by
  simp [shiftIn, hi, BitVec.getLsbD_eq_getElem (show i < 8 by omega)]

/-- The buffer holds the last bits shifted in, the newest in the least significant place. -/
theorem getLsbD_foldl_shiftIn (bits : Code) {i : Nat} (hi : i < 8) :
    (bits.foldl shiftIn 0).getLsbD i = bits.reverse.getD i false := by
  induction bits using List.reverseRecOn generalizing i with
  | nil => simp
  | append_singleton bits x ih =>
    rw [List.foldl_append, List.reverse_append]
    cases i with
    | zero => exact getLsbD_shiftIn_zero _ x
    | succ i => exact (getLsbD_shiftIn_succ _ x hi).trans (ih (by omega))

/-- A buffer of up to eight bits, moved to the left end of the byte, is these bits and then zeros (R65, R152). -/
theorem payloadBit_foldl_shiftIn {bits : Code} (hbits : bits.length ≤ 8) {k : Nat} (hk : k < 8) :
    payloadBit (bits.foldl shiftIn 0 <<< (8 - bits.length)) k = bits.getD k false := by
  rw [payloadBit, BitVec.getLsbD_shiftLeft, getLsbD_foldl_shiftIn bits (by omega)]
  rcases Nat.lt_or_ge k bits.length with h | h
  · have hin : 7 - k - (8 - bits.length) < bits.reverse.length := by
      rw [List.length_reverse]
      omega
    rw [List.getD_eq_getElem _ _ hin, List.getElem_reverse, List.getD_eq_getElem _ _ h]
    simp only [show bits.length - 1 - (7 - k - (8 - bits.length)) = k by omega]
    simp [show 7 - k < 8 by omega, show 8 - bits.length ≤ 7 - k by omega]
  · rw [List.getD_eq_default _ _ h]
    simp [show 7 - k < 8 - bits.length by omega]

/-! ## The payload (R151) -/

/-- Whole bytes followed by a last byte of one to eight bits. -/
theorem IsPayload.concat {pay : List Byte} {full rest : Code} (h : IsPayload pay full) (hfull : full.length % 8 = 0)
    (hpos : 0 < rest.length) (hrest : rest.length ≤ 8) :
    IsPayload (pay ++ [rest.foldl shiftIn 0 <<< (8 - rest.length)]) (full ++ rest) := by
  obtain ⟨hlen, hbit⟩ := h
  refine ⟨by simp only [List.length_append, List.length_singleton]; omega, fun k hk => ?_⟩
  rw [List.length_append, List.length_singleton] at hk
  rcases Nat.lt_or_ge k full.length with hlt | hge
  · rw [List.getD_append _ _ _ _ (by omega), List.getD_append _ _ _ _ hlt]
    exact hbit k (by omega)
  · rw [List.getD_append_right _ _ _ _ (by omega), List.getD_append_right _ _ _ _ hge,
      show k / 8 - pay.length = 0 by omega, show k - full.length = k % 8 by omega]
    exact payloadBit_foldl_shiftIn hrest (Nat.mod_lt k (by decide))

/-- The packer after `full` and then `rest` have entered it: `full` fills the bytes of `PAY`, `rest` is in `BITBUF`. -/
structure Packed (m : Internals) (full rest : Code) : Prop where
  pay : IsPayload m.pay full
  whole : full.length % 8 = 0
  bitbuf : m.bitbuf = rest.foldl shiftIn 0
  bitfill : m.bitfill.toNat = rest.length
  bitcnt : m.bitcnt = BitVec.ofNat 64 (full.length + rest.length)

/-- The registers with the input cursor `ICUR` at an offset (R29). -/
def cursorAt (m : Internals) (i : BitVec 32) : Internals := { m with icur := i }

/-- The registers with which PACK enters its loop (R152). -/
def packStart (m : Internals) : Internals := { m with pay := [], bitbuf := 0, bitfill := 0, bitcnt := 0, icur := 0 }

namespace Packed
variable {m : Internals} {full rest : Code}

/-- One more bit fills a byte or waits in the buffer. -/
theorem packBit (h : Packed m full rest) (x : Bool) :
    ∃ full' rest', Packed (packBit m x) full' rest' ∧ full' ++ rest' = full ++ rest ++ [x] := by
  obtain ⟨hpay, hwhole, hbuf, hfill, hcnt⟩ := h
  have hlen : (rest ++ [x]).length = rest.length + 1 := List.length_append
  have hcnt' : m.bitcnt + 1 = BitVec.ofNat 64 (full.length + (rest ++ [x]).length) := by
    rw [hcnt, hlen, ← Nat.add_assoc, BitVec.ofNat_add _ 1]
    rfl
  by_cases h7 : m.bitfill = 7
  · have h8 : (rest ++ [x]).length = 8 := by
      rw [hlen, ← hfill, h7]
      rfl
    rw [packBit_store h7]
    refine ⟨full ++ (rest ++ [x]), [], ⟨?_, ?_, rfl, rfl, ?_⟩, by simp⟩
    · have := hpay.concat hwhole (rest := rest ++ [x]) (by omega) (by omega)
      simpa [h8, hbuf] using this
    · rw [List.length_append, h8]
      omega
    · rw [hcnt', ← List.length_append]
      rfl
  · rw [packBit_keep h7]
    refine ⟨full, rest ++ [x], ⟨hpay, hwhole, ?_, ?_, hcnt'⟩, (List.append_assoc _ _ _).symm⟩
    · rw [List.foldl_append, hbuf]
      rfl
    · rw [hlen, ← hfill]
      bv_omega

/-- All bits that enter the packer are in it, in order. -/
theorem foldl_packBit (h : Packed m full rest) (bits : Code) :
    ∃ full' rest', Packed (bits.foldl Machine.packBit m) full' rest' ∧ full' ++ rest' = full ++ rest ++ bits := by
  induction bits generalizing m full rest with
  | nil => exact ⟨full, rest, h, by simp⟩
  | cons x bits ih =>
    obtain ⟨f₁, r₁, h₁, e₁⟩ := h.packBit x
    obtain ⟨f₂, r₂, h₂, e₂⟩ := ih h₁
    exact ⟨f₂, r₂, h₂, by rw [e₂, e₁]; simp⟩

/-- The registers with which PACK enters its loop hold no bits. -/
theorem packStart (m : Internals) : Packed (packStart m) [] [] :=
  ⟨⟨rfl, fun _ hk => absurd hk (Nat.not_lt_zero _)⟩, rfl, rfl, rfl, rfl⟩

theorem cursorAt (h : Packed m full rest) (i : BitVec 32) : Packed (cursorAt m i) full rest :=
  ⟨h.pay, h.whole, h.bitbuf, h.bitfill, h.bitcnt⟩

/-- No bit is left in the buffer: `PAY` is the payload, with nothing to pad (R154). -/
theorem isPayload_of_empty (h : Packed m full rest) (h0 : m.bitfill = 0) :
    IsPayload m.pay (full ++ rest) ∧ padCount (full ++ rest).length = 0 := by
  obtain rfl : rest = [] := List.eq_nil_of_length_eq_zero (h.bitfill ▸ congrArg BitVec.toNat h0)
  have := h.whole
  rw [List.append_nil, padCount]
  exact ⟨h.pay, by omega⟩

/-- The bits that are left in the buffer go into a last byte, padded with zeros (R152, R154). -/
theorem isPayload_of_left (h : Packed m full rest) (h0 : m.bitfill ≠ 0) :
    IsPayload (m.pay ++ [lastByte m]) (full ++ rest) ∧
      (BitVec.ofNat 3 (8 - m.bitfill.toNat)).toNat = padCount (full ++ rest).length := by
  have hlt := m.bitfill.isLt
  have hpos : m.bitfill.toNat ≠ 0 := fun h => h0 (BitVec.eq_of_toNat_eq h)
  obtain ⟨hpay, hwhole, hbuf, hfill, -⟩ := h
  constructor
  · rw [lastByte, hfill, hbuf]
    exact hpay.concat hwhole (by omega) (by omega)
  · rw [BitVec.toNat_ofNat, padCount, List.length_append]
    omega

end Packed

/-! ## The loop of PACK (R152, R153) -/

theorem packBit_cursorAt (m : Internals) (i : BitVec 32) (x : Bool) :
    packBit (cursorAt m i) x = cursorAt (packBit m x) i := by
  by_cases h : m.bitfill = 7
  · rw [packBit_store h, packBit_store (m := cursorAt m i) h]
    rfl
  · rw [packBit_keep h, packBit_keep (m := cursorAt m i) h]
    rfl

theorem foldl_packBit_cursorAt (bits : Code) (m : Internals) (i : BitVec 32) :
    bits.foldl packBit (cursorAt m i) = cursorAt (bits.foldl packBit m) i := by
  induction bits generalizing m with
  | nil => rfl
  | cons x bits ih => rw [List.foldl_cons, packBit_cursorAt, ih, List.foldl_cons]

theorem ct_foldl_packBit (bits : Code) (m : Internals) : (bits.foldl packBit m).ct = m.ct := by
  rw [packBits_frame]

theorem icur_foldl_packBit (bits : Code) (m : Internals) : (bits.foldl packBit m).icur = m.icur := by
  rw [packBits_frame]

/-- One turn of the loop, on a byte with a code. -/
theorem packBytes_cons {m : Internals} {b : Byte} {c : Code} (h : byteGet m.ct b = some c) (bs : List Byte) :
    packBytes m (b :: bs) = packBytes (cursorAt (c.foldl packBit m) (m.icur + 1)) bs := by
  rw [packBytes, h, ← icur_foldl_packBit c m]
  rfl

/-- One turn of the loop, on a byte without a code (R153). -/
theorem packBytes_missing {m : Internals} {b : Byte} (h : byteGet m.ct b = none) (bs : List Byte) :
    packBytes m (b :: bs) = .error (.raised .noCode m.icur) := by
  rw [packBytes, h]
  rfl

theorem codeBits_cons {ct : ByteTable (Option Code)} {b : Byte} {c : Code} (h : byteGet ct b = some c)
    (bs : List Byte) : codeBits ct (b :: bs) = c ++ codeBits ct bs := by
  rw [codeBits, List.flatMap_cons, h]
  rfl

/-- Over bytes that all have a code, the loop puts their code bits into the packer and moves the cursor past them. -/
theorem packBytes_append {m : Internals} {pre : List Byte} (h : Covers m.ct pre) (rest : List Byte) :
    packBytes m (pre ++ rest) = packBytes
      (cursorAt ((codeBits m.ct pre).foldl packBit m) (m.icur + BitVec.ofNat 32 pre.length)) rest := by
  induction pre generalizing m with
  | nil => simp [codeBits, cursorAt]
  | cons b pre ih =>
    obtain ⟨c, hc⟩ := Option.isSome_iff_exists.mp (h b List.mem_cons_self)
    have hct : (cursorAt (c.foldl packBit m) (m.icur + 1)).ct = m.ct := ct_foldl_packBit c m
    have hcur : m.icur + 1 + BitVec.ofNat 32 pre.length = m.icur + BitVec.ofNat 32 (b :: pre).length := by
      rw [BitVec.add_assoc, BitVec.add_comm 1, List.length_cons, BitVec.ofNat_add]
      rfl
    rw [List.cons_append, packBytes_cons hc, ih (hct ▸ fun x hx => h x (List.mem_cons_of_mem b hx)), hct,
      foldl_packBit_cursorAt, codeBits_cons hc, List.foldl_append, ← hcur]
    rfl

/-! ## PACK -/

/-- What PACK makes of the registers with which its loop ends: the last byte, `PAD` and `PHASE` (R152). -/
def packEnd (s : State) (m : Internals) : State :=
  if m.bitfill = 0 then { s with phase := 0x40#8, pad := 0, int := m }
  else { s with
    phase := 0x40#8
    pad := BitVec.ofNat 3 (8 - m.bitfill.toNat)
    int := { m with pay := m.pay ++ [lastByte m] } }

theorem execPack_eq {s : State} (hcap : s.inLen ≤ s.params.inCap) :
    execPack s = settle s ((packBytes (packStart s.int) (inputBytes s)).map (packEnd s)) := by
  rw [execPack, ok_bind (checkInput_ok hcap)]
  show settle s (packBytes (packStart s.int) (inputBytes s) >>= _) = _
  cases packBytes (packStart s.int) (inputBytes s) with
  | error e => rfl
  | ok m =>
    show settle s (if m.bitfill = 0 then _ else _) = settle s (.ok (packEnd s m))
    rw [packEnd]
    split_ifs <;> rfl

theorem packEnd_phase (s : State) (m : Internals) : (packEnd s m).phase = 0x40#8 := by
  rw [packEnd]
  split_ifs <;> rfl

theorem packEnd_bitcnt (s : State) (m : Internals) : (packEnd s m).int.bitcnt = m.bitcnt := by
  rw [packEnd]
  split_ifs <;> rfl

theorem packEnd_icur (s : State) (m : Internals) : (packEnd s m).int.icur = m.icur := by
  rw [packEnd]
  split_ifs <;> rfl

/-- The loop of PACK has packed the codes of the first bytes of the input, which all have one. -/
theorem packBytes_packStart {m : Internals} {pre : List Byte} (h : Covers m.ct pre) (rest : List Byte) :
    packBytes (packStart m) (pre ++ rest) = packBytes
      (cursorAt ((codeBits m.ct pre).foldl packBit (packStart m)) (BitVec.ofNat 32 pre.length)) rest := by
  have hloop := packBytes_append (m := packStart m) h rest
  rwa [show (packStart m).icur = 0#32 from rfl, BitVec.zero_add] at hloop

/-- With total coverage (R150) the loop ends, with the codes of all bytes in the packer and the cursor past them. -/
theorem packBytes_run {k : Internals} {bs : List Byte} (h : Covers k.ct bs) :
    ∃ m full rest, packBytes (packStart k) bs = .ok m ∧ Packed m full rest ∧ full ++ rest = codeBits k.ct bs ∧
      m.icur = BitVec.ofNat 32 bs.length := by
  have hloop := packBytes_packStart h []
  rw [List.append_nil] at hloop
  obtain ⟨full, rest, hpacked, happ⟩ := (Packed.packStart k).foldl_packBit (codeBits k.ct bs)
  exact ⟨_, full, rest, hloop, hpacked.cursorAt _, happ, rfl⟩

/-- The end of PACK makes the payload of the bits that have entered the packer. -/
theorem packEnd_packed {s : State} {m : Internals} {full rest : Code} (h : Packed m full rest) :
    IsPayload (packEnd s m).int.pay (full ++ rest) ∧
      (packEnd s m).pad.toNat = padCount (full ++ rest).length := by
  rw [packEnd]
  split_ifs with h0
  · obtain ⟨hpay, hpad⟩ := h.isPayload_of_empty h0
    exact ⟨hpay, hpad.symm⟩
  · exact h.isPayload_of_left h0

/-- PACK on an input whose bytes all have a code: `PAY`, `PAD` and `BITCNT` describe the codes of the input. -/
theorem execPack_run {s : State} {bits : Code} (hcap : s.inLen ≤ s.params.inCap)
    (hcov : Covers s.int.ct (inputBytes s)) (hbits : bits = codeBits s.int.ct (inputBytes s)) :
    ∃ t, execPack s = .next t ∧ IsPayload t.int.pay bits ∧ t.pad.toNat = padCount bits.length ∧
      t.int.bitcnt = BitVec.ofNat 64 bits.length ∧
      t = { s with
        phase := 0x40#8
        pad := t.pad
        int := { s.int with
          pay := t.int.pay, bitbuf := t.int.bitbuf, bitfill := t.int.bitfill, bitcnt := t.int.bitcnt
          icur := s.inLen } } := by
  obtain ⟨m, full, rest, hloop, hpacked, happ, hcur⟩ := packBytes_run hcov
  obtain rfl : full ++ rest = bits := happ.trans hbits.symm
  rw [inputBytes, length_memRead, BitVec.ofNat_toNat, BitVec.setWidth_eq] at hcur
  have hrun : execPack s = .next (packEnd s m) := by
    rw [execPack_eq hcap, hloop]
    rfl
  obtain ⟨hpay, hpad⟩ := packEnd_packed (s := s) hpacked
  refine ⟨packEnd s m, hrun, hpay, hpad, ?_, ?_⟩
  · rw [packEnd_bitcnt, List.length_append, hpacked.bitcnt]
  · rcases execPack_next hrun with hframe | ⟨sub, info, herr⟩
    · rwa [packEnd_icur, hcur] at hframe
    · have hphase := packEnd_phase s m
      rw [herr, raise_phase] at hphase
      exact absurd hphase (by decide)

/-- PACK stops at the first byte without a code (R153). -/
theorem execPack_missing {s : State} {pre post : List Byte} {b : Byte} (hcap : s.inLen ≤ s.params.inCap)
    (hin : inputBytes s = pre ++ b :: post) (hcov : Covers s.int.ct pre) (hb : byteGet s.int.ct b = none) :
    execPack s = .next (raise .noCode (BitVec.ofNat 32 pre.length) s) := by
  have hct : byteGet (cursorAt ((codeBits s.int.ct pre).foldl packBit (packStart s.int))
      (BitVec.ofNat 32 pre.length)).ct b = none := by
    rw [cursorAt, ct_foldl_packBit]
    exact hb
  rw [execPack_eq hcap, hin, packBytes_packStart hcov, packBytes_missing hct]
  rfl

/-- A code has at most 255 bits, so the codes of a sequence have at most 255 times its length. -/
theorem length_codeBits_le {ct : ByteTable (Option Code)} (h : LegalLengths ct) (bs : List Byte) :
    (codeBits ct bs).length ≤ 255 * bs.length := by
  rw [codeBits, List.length_flatMap, Nat.mul_comm, ← List.length_map (f := fun b => ((byteGet ct b).getD []).length)]
  refine List.sum_le_card_nsmul _ 255 fun n hn => ?_
  obtain ⟨b, -, rfl⟩ := List.mem_map.mp hn
  cases hc : byteGet ct b with
  | none => exact Nat.zero_le _
  | some p => exact (h b p hc).2

/-- Settles O32: what the packer holds is the payload (`execPack_run`), and the codes of an input are too short for
`BITCNT` to wrap. -/
theorem packConcatenatesTheCodes : Obligations.PackConcatenatesTheCodes := by
  intro s bits hcap hcov hlegal hbits
  obtain ⟨t, hrun, hpay, hpad, hcnt, hframe⟩ := execPack_run hcap hcov hbits
  have hcnt' : t.int.bitcnt.toNat = bits.length := by
    have hle := length_codeBits_le hlegal (inputBytes s)
    have hlt := length_inputBytes_lt s
    rw [← hbits] at hle
    rw [hcnt, BitVec.toNat_ofNat, Nat.mod_eq_of_lt (by omega)]
  refine ⟨t, hrun, hpay, hpad, hcnt', ?_, hframe⟩
  rw [hcnt', hpad, hpay.1, (padCount_spec bits.length).2]

end Sys2Proof
end

section
/-! PROOFS. COMPRESS as far as PACK (R200): the table of GENCODES has a code for every byte of the input, so that PACK
completes and the only error left is a full OUT (R153, R227). -/

namespace Sys2Proof
open Machine

/-! ## The table inside COMPRESS -/

/-- GENCODES after BUILD makes an optimal table, whatever the other registers held. -/
theorem Built.codeTable_run {es : List (Byte × Word)} {k : Internals} {t : CountTree} (h : Built es k t)
    (hdg : k.degenSig = decide (es.length = 1)) (h256 : es.length ≤ 256) (hnd : (es.map Prod.fst).Nodup) :
    ∃ ct cnt, codeTable k = .ok (ct, cnt) ∧ OptimalTable es ct := by
  obtain ⟨-, hforest, hopt⟩ := h
  have hroot := hforest.isTree_root
  have hleaves := hforest.leaves_perm
  cases t with
  | leaf e =>
    obtain rfl : [e] = es := List.singleton_perm.mp hleaves
    exact ⟨_, _, codeTable_leaf hroot hdg, .of_leaf e⟩
  | node l r =>
    have htwo := hleaves.length_eq ▸ CountTree.two_le_length_leaves l r
    exact ⟨_, _, codeTable_tree hroot (hdg.trans (decide_eq_false (by omega))) (hleaves.length_eq ▸ h256),
      .of_node hleaves hnd h256 hopt⟩

/-- BUILD and GENCODES on the counters of a non-empty input give each of its bytes a code. -/
theorem build_codeTable_covers {m : Internals} {bs : List Byte} (hne : bs ≠ []) (hlt : bs.length < 2 ^ 32)
    (hfreq : m.freq = frequencies bs) :
    ∃ k ct cnt, build m = .ok k ∧ codeTable k = .ok (ct, cnt) ∧ Covers ct bs := by
  have hsum : ((occurring (frequencies bs)).map (fun e => e.2.toNat)).sum = bs.length := by
    rw [← sum_frequencies hlt]
    simpa using sum_occurring (frequencies bs) (fun _ => 1)
  obtain ⟨k, t, hbuild, hb, hdg, -⟩ := build_run (m := m) (hfreq ▸ rfl) (occurring_frequencies_ne_nil hlt hne)
    (hsum ▸ hlt)
  obtain ⟨ct, cnt, hct, hopt⟩ := hb.codeTable_run hdg (length_occurring_le _) (nodup_occurring _)
  exact ⟨k, ct, cnt, hbuild, hct, fun b hb => (hopt.isSome_iff b).mpr ((mem_occurring_frequencies hlt b).mpr hb)⟩

/-- The command goes on with the state of a unit operation that has not ended it. -/
theorem thenBusy_run {o : Result} {k : State → Result} {s : State} (h : o = .next s)
    (hbusy : s.status.state = .busy) : thenBusy o k = k s := by
  rw [h, thenBusy_busy hbusy]

/-- COMPRESS of a non-empty input comes to HDR_WRITE, with nothing changed but `PHASE`, `PAD`, `ENTRY_CNT` and the
internal registers. -/
theorem compressBody_run {s : State} (hne : s.inLen ≠ 0) (hcap : s.inLen ≤ s.params.inCap)
    (hbusy : s.status.state = .busy) :
    ∃ u, compressBody s = thenBusy (execHdrWrite u)
        (fun v => thenBusy (execPayloadWrite v) fun w => .next (finishCompress w)) ∧
      u = { s with phase := 0x40#8, pad := u.pad, entryCnt := u.entryCnt, int := u.int } := by
  have hin : inputBytes s ≠ [] := List.ne_nil_of_length_pos (by
    rw [inputBytes, length_memRead]
    exact Nat.pos_of_ne_zero fun h => hne (BitVec.eq_of_toNat_eq h))
  obtain ⟨m, hm⟩ : ∃ m, m = { s.int with freq := frequencies (inputBytes s), icur := s.inLen } := ⟨_, rfl⟩
  obtain ⟨k, ct, cnt, hk, hct, hcov⟩ := build_codeTable_covers (m := m) hin (length_inputBytes_lt s) (hm ▸ rfl)
  obtain ⟨g, hg⟩ : ∃ g : State, g = { s with
    phase := 0x30#8, entryCnt := cnt, int := { k with ct := ct, stk := [] } } := ⟨_, rfl⟩
  have hing : inputBytes g = inputBytes s := hg ▸ memRead_congr fun _ _ => rfl
  have hcovg : Covers g.int.ct (inputBytes g) := hing ▸ hg ▸ hcov
  obtain ⟨u, hpack, -, -, -, hu⟩ := execPack_run (hg ▸ hcap) hcovg rfl
  have hfreq : execFreq s = .next { s with phase := 0x10#8, int := m } := hm ▸ execFreq_run hcap
  have hbuild : execBuild { s with phase := 0x10#8, int := m } = .next { s with phase := 0x20#8, int := k } :=
    onInternals_ok hk
  have hgen : execGencodes { s with phase := 0x20#8, int := k } = .next g := hg ▸ execGencodes_run hct
  subst hg
  refine ⟨u, ?_, by rw [hu]⟩
  rw [compressBody, if_neg hne, thenBusy_run hfreq hbusy, thenBusy_run hbuild hbusy, thenBusy_run hgen hbusy,
    thenBusy_run hpack (hu ▸ hbusy)]

/-! ## The errors of COMPRESS (R161, R162, R227) -/

section
variable {s t : State} {e : ErrSub}

/-- HDR_WRITE raises no error but `OUT_FULL`. -/
theorem execHdrWrite_errSub_ne (he : e ≠ .outFull) (hs : s.errSub ≠ e) (hfits : s.outLen ≤ s.params.outCap)
    (h : execHdrWrite s = .next t) : t.errSub ≠ e := by
  rw [execHdrWrite_eq hfits] at h
  rcases outAppend_cases { s with phase := 0x50#8 } (headerFields s.pad s.entryCnt s.int.ct).flatten with
    ⟨-, hrun⟩ | ⟨-, hrun⟩
  · rw [hrun] at h
    cases h
    exact hs
  · rw [hrun] at h
    cases h
    exact he.symm

/-- PAYLOAD_WRITE raises no error but `OUT_FULL`. -/
theorem execPayloadWrite_errSub_ne (he : e ≠ .outFull) (hs : s.errSub ≠ e) (h : execPayloadWrite s = .next t) :
    t.errSub ≠ e := by
  rw [execPayloadWrite] at h
  rcases outAppend_cases { s with phase := 0x51#8 } s.int.pay with ⟨-, hrun⟩ | ⟨-, hrun⟩
  · rw [hrun] at h
    cases h
    exact hs
  · rw [hrun] at h
    cases h
    exact he.symm

/-- Two operations leave another sub-cause if each of them does. -/
theorem thenBusy_errSub_ne {o : Result} {k : State → Result} (ho : ∀ v, o = .next v → v.errSub ≠ e)
    (hk : ∀ v, v.errSub ≠ e → k v = .next t → t.errSub ≠ e) (h : thenBusy o k = .next t) : t.errSub ≠ e := by
  rcases thenBusy_next h with ⟨hrun, -⟩ | ⟨v, hrun, -, hv⟩
  · exact ho t hrun
  · exact hk v (ho v hrun) hv

theorem finish_errSub_ne {f : State → State} (hf : ∀ v, (f v).errSub = v.errSub) {v : State} (hv : v.errSub ≠ e)
    (h : (.next (f v) : Result) = .next t) : t.errSub ≠ e := by
  cases h
  rwa [hf]

/-- COMPRESS after its prologue raises no error but `OUT_FULL`. -/
theorem compressBody_errSub_ne (he : e ≠ .outFull) (hs : s.errSub ≠ e) (hcap : s.inLen ≤ s.params.inCap)
    (hbusy : s.status.state = .busy) (hfits : s.outLen ≤ s.params.outCap) (h : compressBody s = .next t) :
    t.errSub ≠ e := by
  by_cases hne : s.inLen = 0
  · rw [compressBody, if_pos hne] at h
    exact thenBusy_errSub_ne (fun v => execHdrWrite_errSub_ne (s := emptyInput s) he hs hfits)
      (fun v hv => finish_errSub_ne (f := finishEmpty) (fun _ => rfl) hv) h
  · obtain ⟨u, hrun, hu⟩ := compressBody_run hne hcap hbusy
    rw [hrun] at h
    refine thenBusy_errSub_ne (fun v => execHdrWrite_errSub_ne he (hu ▸ hs) (hu ▸ hfits)) (fun v hv => ?_) h
    exact thenBusy_errSub_ne (fun w => execPayloadWrite_errSub_ne he hv) fun w hw =>
      finish_errSub_ne (f := finishCompress) (fun _ => rfl) hw

end

/-- Settles O33: PACK's loop stops at the missing code (`execPack_missing`), and COMPRESS gives every byte a code. -/
theorem packReportsAMissingCode : Obligations.PackReportsAMissingCode := by
  refine ⟨fun s pre post b hcap hin hcov hb => execPack_missing hcap hin hcov hb, fun s t h => ?_⟩
  change withPrologue s compressBody = .next t at h
  by_cases hcap : s.params.inCap < s.inLen
  · rw [withPrologue_inRange hcap] at h
    cases h
    exact ErrSub.noConfusion
  · have hcap := BitVec.not_lt.mp hcap
    rw [withPrologue_body hcap] at h
    exact compressBody_errSub_ne (s := prologue s) (by decide) (by simp) hcap rfl (BitVec.le_def.mpr (Nat.zero_le _)) h

end Sys2Proof
end

section
/-! PROOFS. PAYLOAD_WRITE (R162): what one append leaves in OUT, read back byte by byte (R12, R227). -/

namespace Sys2Proof
open Machine

@[simp] theorem length_outRead (s : State) (a n : Nat) : (outRead s a n).length = n := by
  induction n generalizing a with
  | zero => rfl
  | succ n ih => rw [outRead, List.length_cons, ih]

theorem getElem_outRead (s : State) (a n i : Nat) (h : i < (outRead s a n).length) :
    (outRead s a n)[i] = s.outByte (a + i) := by
  induction n generalizing a i with
  | zero => exact absurd h (Nat.not_lt_zero i)
  | succ n ih =>
    cases i with
    | zero => rfl
    | succ i =>
      simp only [outRead, List.getElem_cons_succ, ih]
      rw [Nat.add_assoc, Nat.add_comm 1 i]

/-- An append that fits puts its bytes behind what OUT held and changes nothing else (R12, R227). -/
theorem outAppend_appends {s : State} {v : List Byte} (hs : s.outLen ≤ s.params.outCap)
    (hfit : s.outLen.toNat + v.length ≤ s.params.outCap.toNat) :
    ∃ t, outAppend s v = .ok t ∧ outRead t s.outLen.toNat v.length = v ∧
      (∀ a, a < s.outLen.toNat ∨ s.outLen.toNat + v.length ≤ a → t.outByte a = s.outByte a) ∧
      t.outLen.toNat = s.outLen.toNat + v.length ∧ t = { s with outMem := t.outMem, outLen := t.outLen } := by
  have hroom : v.length ≤ s.params.outCap.toNat - s.outLen.toNat := by omega
  have hrun := outAppend_ok hroom
  refine ⟨_, hrun, List.ext_getElem (length_outRead ..) fun i h1 h2 => ?_, fun a ha => ?_,
    (outLen_append hs hroom).1, rfl⟩
  · rw [getElem_outRead, outByte_outAppend hrun, if_pos (by omega), Nat.add_sub_cancel_left,
      List.getElem?_eq_getElem h2, Option.getD_some]
  · rw [outByte_outAppend hrun, if_neg (by omega)]

/-- Settles O35: PAYLOAD_WRITE is one append, which fits (`outAppend_appends`) or does not (`outAppend_full`). -/
theorem payloadWriteAppendsThePayload : Obligations.PayloadWriteAppendsThePayload := by
  intro s hs
  refine ⟨fun hfit => ?_, fun hfull => ?_⟩
  · obtain ⟨t, hrun, happ⟩ := outAppend_appends (s := { s with phase := 0x51#8 }) hs hfit
    exact ⟨t, congrArg (settle s) hrun, happ⟩
  · have hshort : s.params.outCap.toNat - s.outLen.toNat < s.int.pay.length := by
      have := BitVec.le_def.mp hs
      omega
    exact congrArg (settle s) (outAppend_full (s := { s with phase := 0x51#8 }) hshort)

end Sys2Proof
end

section
/-! PROOFS. The HeaderCodec's reader (R163 to R168): the fields of a header that stand in IN, one entry in the order of
its checks, all entries, and HDR_READ over them. -/

namespace Sys2Proof
open Machine

/-! ## Bytes of the input -/

/-- The bytes stand in IN from an index on and belong to the input, `IN[0 .. IN_LEN)` (R60). -/
def StandsAt (s : State) (a : Nat) (bs : List Byte) : Prop :=
  memRead s a bs.length = bs ∧ a + bs.length ≤ s.inLen.toNat

theorem StandsAt.append {s : State} {a : Nat} {xs ys : List Byte} (h : StandsAt s a (xs ++ ys)) :
    StandsAt s a xs ∧ StandsAt s (a + xs.length) ys := by
  obtain ⟨hread, hlen⟩ := h
  rw [List.length_append] at hlen
  rw [List.length_append, memRead_add] at hread
  obtain ⟨hx, hy⟩ := List.append_inj hread (length_memRead ..)
  exact ⟨⟨hx, by omega⟩, hy, by omega⟩

theorem StandsAt.cons {s : State} {a : Nat} {b : Byte} {bs : List Byte} (h : StandsAt s a (b :: bs)) :
    s.inByte a = b ∧ StandsAt s (a + 1) bs := by
  obtain ⟨⟨hb, -⟩, hbs⟩ := StandsAt.append (xs := [b]) h
  exact ⟨(List.cons.inj hb).1, hbs⟩

/-! ## The fields of a header (R164, R165) -/

/-- A 4-byte integer that stands in the input is read (R89). -/
theorem StandsAt.readInt_run {s : State} {a v : Nat} (h : StandsAt s a (u32 v)) (hv : v < 2 ^ 32) :
    readInt s a = .ok v := by
  obtain ⟨hread, hlen⟩ := h
  rw [length_u32] at hread hlen
  rw [readInt_ok (by omega), hread, unU32_u32 hv]

/-- The bit symbols of a code are read as the code (R90). -/
theorem StandsAt.readCode_run {s : State} {a : Nat} {c : Code} (h : StandsAt s a (c.map bitSymbol)) :
    readCode s a c.length = .ok c := by
  induction c generalizing a with
  | nil => rfl
  | cons x c ih =>
    obtain ⟨hx, hc⟩ := h.cons
    simp only [List.length_cons, readCode, hx, symbolBit_bitSymbol, ok_bind (ih hc)]
    rfl

/-- The first byte that is no bit symbol ends the reading of a code (R165 check 10). -/
theorem readCode_bad {s : State} {a n j : Nat} (hj : j < n) (hgood : ∀ k < j, symbolBit (s.inByte (a + k)) ≠ none)
    (hbad : symbolBit (s.inByte (a + j)) = none) :
    readCode s a n = .error (.raised .badBitsym (BitVec.ofNat 32 (a + j))) := by
  induction n generalizing a j with
  | zero => exact absurd hj (Nat.not_lt_zero j)
  | succ n ih =>
    cases j with
    | zero =>
      simp only [readCode, Nat.add_zero] at hbad ⊢
      rw [hbad]
      rfl
    | succ j =>
      obtain ⟨x, hx⟩ := Option.ne_none_iff_exists'.mp (hgood 0 (Nat.succ_pos j))
      have hshift : ∀ k, a + (k + 1) = a + 1 + k := fun k => by omega
      have hrest := ih (a := a + 1) (Nat.lt_of_succ_lt_succ hj)
        (fun k hk => hshift k ▸ hgood (k + 1) (Nat.succ_lt_succ hk)) (hshift j ▸ hbad)
      rw [Nat.add_zero] at hx
      rw [readCode, hx, hrest, hshift j]
      rfl

/-! ## One entry (R163, R165 checks 5 to 10) -/

/-- An entry of a new byte value once its length `n` is read: checks 8 to 10. -/
def readCodeField (s : State) (a : Nat) (ct : ByteTable (Option Code)) (n : Nat) :
    Run (Nat × ByteTable (Option Code)) :=
  if n = 0 ∨ 255 < n then .error (.raised .badLen (BitVec.ofNat 32 (a + 1)))
  else need s (a + 5) n >>= fun _ =>
    (readCode s (a + 5) n).map fun c => (a + 5 + n, byteSet ct (s.inByte a) (some c))

section
variable {s : State} {a n : Nat} {ct : ByteTable (Option Code)}

theorem readEntry_truncated (h : s.inLen.toNat < a + 1) :
    readEntry s a ct = .error (.raised .truncated (BitVec.ofNat 32 a)) := by
  rw [readEntry, need_short (by omega)]
  rfl

/-- An entry is its byte value, checked against the table, and then its length and code. -/
theorem readEntry_eq (h : a + 1 ≤ s.inLen.toNat) :
    readEntry s a ct =
      if (byteGet ct (s.inByte a)).isSome then .error (.raised .dupSymbol (BitVec.ofNat 32 a))
      else readInt s (a + 1) >>= readCodeField s a ct := by
  rw [readEntry, ok_bind (need_ok (by omega))]
  rfl

theorem readEntry_known (h : a + 1 ≤ s.inLen.toNat) (hb : (byteGet ct (s.inByte a)).isSome) :
    readEntry s a ct = .error (.raised .dupSymbol (BitVec.ofNat 32 a)) := by
  rw [readEntry_eq h, if_pos hb]

theorem readEntry_new_truncated (h : a + 1 ≤ s.inLen.toNat) (hb : ¬(byteGet ct (s.inByte a)).isSome)
    (hlen : s.inLen.toNat < a + 5) :
    readEntry s a ct = .error (.raised .truncated (BitVec.ofNat 32 (a + 1))) := by
  rw [readEntry_eq h, if_neg hb, readInt_short (by omega)]
  rfl

theorem readEntry_new (hb : ¬(byteGet ct (s.inByte a)).isSome) (hlen : a + 5 ≤ s.inLen.toNat) :
    readEntry s a ct = readCodeField s a ct (unU32 (memRead s (a + 1) 4)) := by
  rw [readEntry_eq (by omega), if_neg hb, ok_bind (readInt_ok (by omega))]

theorem readCodeField_badLen (h : n = 0 ∨ 255 < n) :
    readCodeField s a ct n = .error (.raised .badLen (BitVec.ofNat 32 (a + 1))) :=
  if_pos h

theorem readCodeField_truncated (h1 : 1 ≤ n) (h255 : n ≤ 255) (hlen : s.inLen.toNat < a + 5 + n) :
    readCodeField s a ct n = .error (.raised .truncated (BitVec.ofNat 32 (a + 5))) := by
  rw [readCodeField, if_neg (by omega), need_short (by omega)]
  rfl

theorem readCodeField_eq (h1 : 1 ≤ n) (h255 : n ≤ 255) (hlen : a + 5 + n ≤ s.inLen.toNat) :
    readCodeField s a ct n =
      (readCode s (a + 5) n).map fun c => (a + 5 + n, byteSet ct (s.inByte a) (some c)) := by
  rw [readCodeField, if_neg (by omega), ok_bind (need_ok (by omega))]

end

theorem length_entryBytes (e : Byte × Code) : (entryBytes e).length = 5 + e.2.length := by
  rw [entryBytes, List.length_append, List.length_cons, length_u32, List.length_map]

/-- An entry of a new byte value and a legal length that stands in the input is read (R163). -/
theorem StandsAt.readEntry_run {s : State} {a : Nat} {ct : ByteTable (Option Code)} {e : Byte × Code}
    (h : StandsAt s a (entryBytes e)) (hnew : ¬(byteGet ct e.1).isSome) (h1 : 1 ≤ e.2.length)
    (h255 : e.2.length ≤ 255) :
    readEntry s a ct = .ok (a + (entryBytes e).length, byteSet ct e.1 (some e.2)) := by
  have hend := h.2
  rw [length_entryBytes] at hend ⊢
  obtain ⟨hfixed, hcode⟩ := h.append
  obtain ⟨hb, hlen⟩ := hfixed.cons
  rw [readEntry_eq (by omega), hb, if_neg hnew, ok_bind (hlen.readInt_run (by omega)),
    readCodeField_eq h1 h255 (by omega), hb]
  rw [show a + (e.1 :: u32 e.2.length).length = a + 5 from rfl] at hcode
  rw [hcode.readCode_run, ← Nat.add_assoc]
  rfl

/-! ## All entries -/

theorem readEntries_succ (s : State) (n a : Nat) (ct : ByteTable (Option Code)) :
    readEntries s (n + 1) a ct = readEntry s a ct >>= fun r => readEntries s n r.1 r.2 := rfl

/-- A table of entries with different byte values has a code for exactly these. -/
theorem isSome_byteGet_tableOf {es : List (Byte × Code)} (hnd : (es.map Prod.fst).Nodup) (b : Byte) :
    (byteGet (tableOf es) b).isSome ↔ b ∈ es.map Prod.fst := by
  simp [Option.isSome_iff_exists, byteGet_tableOf hnd]

theorem tableOf_append (es : List (Byte × Code)) (e : Byte × Code) :
    tableOf (es ++ [e]) = byteSet (tableOf es) e.1 (some e.2) := by
  rw [tableOf, List.foldl_append]
  rfl

/-- The table of a table's own entries is the table. -/
theorem tableOf_codeEntries (ct : ByteTable (Option Code)) : tableOf (codeEntries ct) = ct := by
  have hnd : ((codeEntries ct).map Prod.fst).Nodup :=
    List.pairwise_map.mpr ((pairwise_codeEntries ct).imp fun h => BitVec.ne_of_lt h)
  refine byteTable_ext fun b => Option.ext fun p => ?_
  rw [byteGet_tableOf hnd, mem_codeEntries]

/-- There are at most 256 entries, since no byte value has two. -/
theorem GoodEntries.length_le {es : List (Byte × Code)} (h : GoodEntries es) : es.length ≤ 256 := by
  have hle := (h.1.subperm fun b _ => mem_allBytes b).length_le
  rwa [List.length_map, length_allBytes] at hle

theorem GoodEntries.of_append {es : List (Byte × Code)} {e : Byte × Code} (h : GoodEntries (es ++ [e])) :
    GoodEntries es ∧ e.1 ∉ es.map Prod.fst ∧ 1 ≤ e.2.length ∧ e.2.length ≤ 255 := by
  obtain ⟨hnd, hlen⟩ := h
  rw [List.map_append, List.nodup_append'] at hnd
  obtain ⟨hnd, -, hdisj⟩ := hnd
  obtain ⟨hes, he⟩ := List.forall_mem_append.mp hlen
  exact ⟨⟨hnd, hes⟩, fun hmem => hdisj hmem (List.mem_singleton_self _), he e (List.mem_singleton_self _)⟩

/-- Good entries that stand in the input are read into their table, whatever number of entries is to follow. -/
theorem StandsAt.readEntries_run {s : State} {a : Nat} {es : List (Byte × Code)}
    (h : StandsAt s a (es.flatMap entryBytes)) (hgood : GoodEntries es) (k : Nat) :
    readEntries s (es.length + k) a emptyTable =
      readEntries s k (a + (es.flatMap entryBytes).length) (tableOf es) := by
  induction es using List.reverseRecOn generalizing k with
  | nil =>
    rw [List.length_nil, Nat.zero_add]
    rfl
  | append_singleton es e ih =>
    obtain ⟨hes, hnew, h1, h255⟩ := hgood.of_append
    rw [List.flatMap_append, List.flatMap_singleton] at h ⊢
    obtain ⟨hbefore, he⟩ := h.append
    have hread := he.readEntry_run (mt (isSome_byteGet_tableOf hes.1 _).mp hnew) h1 h255
    rw [List.length_append, List.length_singleton, Nat.add_assoc, Nat.add_comm 1 k, ih hbefore hes, readEntries_succ,
      ok_bind hread, tableOf_append, List.length_append, Nat.add_assoc]

/-! ## HDR_READ -/

/-- The end of HDR_READ: what it writes after its last check (R163). -/
def hdrReadEnd (s : State) (pad n : Nat) (r : Nat × ByteTable (Option Code)) : State :=
  { s with
    phase := 0x60#8
    pad := BitVec.ofNat 3 pad
    entryCnt := BitVec.ofNat 9 n
    hdrLen := BitVec.ofNat 32 r.1
    int := { s.int with ct := r.2, hcur := BitVec.ofNat 32 r.1 } }

/-- HDR_READ after its padding count: the entry count and the entries (R163). -/
def hdrReadBody (s : State) (pad : Nat) : Run State :=
  readInt s 4 >>= fun n =>
    if 256 < n then .error (.raised .badCount 4)
    else (readEntries s n 8 emptyTable).map (hdrReadEnd s pad n)

section
variable {s : State} {pad n : Nat}

theorem execHdrRead_eq (hcap : s.inLen ≤ s.params.inCap) :
    execHdrRead s = settle s (readInt s 0 >>= fun pad =>
      if 7 < pad then .error (.raised .badPad 0) else hdrReadBody s pad) := by
  rw [execHdrRead, ok_bind (checkInput_ok hcap)]
  rfl

/-- HDR_READ goes on after a legal padding count. -/
theorem execHdrRead_body (hcap : s.inLen ≤ s.params.inCap) (hread : readInt s 0 = .ok pad) (hpad : pad ≤ 7) :
    execHdrRead s = settle s (hdrReadBody s pad) := by
  rw [execHdrRead_eq hcap, ok_bind hread, if_neg (Nat.not_lt.mpr hpad)]

theorem length_headerBytes (pad n : Nat) (es : List (Byte × Code)) :
    (headerBytes pad n es).length = 8 + (es.flatMap entryBytes).length := by
  rw [headerBytes, List.length_append]
  rfl

/-- HDR_READ reads a header as far as its good entries go, with `k` more announced. -/
theorem execHdrRead_header {es : List (Byte × Code)} {k : Nat} (hcap : s.inLen ≤ s.params.inCap) (hpad : pad ≤ 7)
    (h256 : n ≤ 256) (hn : es.length + k = n) (hgood : GoodEntries es) (h : StandsAt s 0 (headerBytes pad n es)) :
    execHdrRead s = settle s ((readEntries s k (headerBytes pad n es).length (tableOf es)).map
      (hdrReadEnd s pad n)) := by
  obtain ⟨hfixed, hentries⟩ := h.append
  obtain ⟨hp, hc⟩ := hfixed.append
  have hcount : readInt s 4 = .ok n := hc.readInt_run (by omega)
  have hloop := StandsAt.readEntries_run (a := 8) hentries hgood k
  rw [hn, ← length_headerBytes pad n] at hloop
  rw [execHdrRead_body hcap (hp.readInt_run (by omega)) hpad, hdrReadBody, ok_bind hcount,
    if_neg (Nat.not_lt.mpr h256), hloop]

end

/-- Settles O36: all entries of the header are read (`execHdrRead_header`), at most 256, and none is left over. -/
theorem hdrReadRebuildsTheTable : Obligations.HdrReadRebuildsTheTable := by
  rintro s pad es h hcap hpad hgood rfl hlen hread
  have hcount := hgood.length_le
  have hlt := s.inLen.isLt
  have hrun := execHdrRead_header (k := 0) hcap hpad hcount rfl hgood ⟨hread, by omega⟩
  exact ⟨_, hrun, Nat.mod_eq_of_lt (by omega), Nat.mod_eq_of_lt (by omega), Nat.mod_eq_of_lt (by omega), rfl,
    fun ct hes => hes ▸ tableOf_codeEntries ct, rfl⟩

/-- An error in the entry after the good entries of a header is HDR_READ's error. -/
theorem execHdrRead_entry_error {s : State} {pad n c : Nat} {es : List (Byte × Code)} {sub : ErrSub} {info : Word}
    (hcap : s.inLen ≤ s.params.inCap) (hpad : pad ≤ 7) (h256 : n ≤ 256) (hmore : es.length < n) (hgood : GoodEntries es)
    (hc : c = (headerBytes pad n es).length) (h : StandsAt s 0 (headerBytes pad n es))
    (herr : readEntry s c (tableOf es) = .error (.raised sub info)) :
    execHdrRead s = .next (raise sub info s) := by
  obtain ⟨k, hk⟩ := Nat.exists_eq_add_of_lt hmore
  rw [execHdrRead_header (k := k + 1) hcap hpad h256 hk.symm hgood h, readEntries_succ, ← hc, herr]
  rfl

/-- Settles O38: the fixed fields are checked by `execHdrRead_eq`, and an entry's checks are those of `readEntry`, on
the table of the entries before it. -/
theorem hdrReadChecksInStreamOrder : Obligations.HdrReadChecksInStreamOrder := by
  intro s hcap
  have hrun : exec .hdrRead s = _ := execHdrRead_eq hcap
  have hbody (h4 : 4 ≤ s.inLen.toNat) (hp : unU32 (memRead s 0 4) ≤ 7) : exec .hdrRead s = _ :=
    execHdrRead_body hcap (readInt_ok h4) hp
  refine ⟨fun h => ?_, fun h hp => ?_, fun h4 hp h => ?_, fun h hp hn => ?_,
    fun pad n c es hpad hn hgood hmore hc hlen hread => ?_⟩
  · rw [hrun, readInt_short (by omega)]
    rfl
  · rw [hrun, ok_bind (readInt_ok (by omega)), if_pos hp]
    rfl
  · rw [hbody h4 hp, hdrReadBody, readInt_short (by omega)]
    rfl
  · rw [hbody (by omega) hp, hdrReadBody, ok_bind (readInt_ok (by omega)), if_pos hn]
    rfl
  · have hstands : StandsAt s 0 (headerBytes pad n es) := ⟨hc ▸ hread, by omega⟩
    have hknown := isSome_byteGet_tableOf hgood.1 (s.inByte c)
    have herr {sub info} (h : readEntry s c (tableOf es) = .error (.raised sub info)) :
        exec .hdrRead s = .next (raise sub info s) :=
      execHdrRead_entry_error hcap hpad hn hmore hgood hc hstands h
    refine ⟨fun h => herr (readEntry_truncated h), fun h hb => herr (readEntry_known h (hknown.mpr hb)),
      fun h hb h5 => herr (readEntry_new_truncated h (mt hknown.mp hb) h5), fun L hL hb h5 => ?_⟩
    have hfield := readEntry_new (mt hknown.mp hb) h5
    rw [← hL] at hfield
    refine ⟨fun hbad => herr (hfield.trans (readCodeField_badLen hbad)),
      fun h1 h255 h => herr (hfield.trans (readCodeField_truncated h1 h255 h)),
      fun j h1 h255 h hj hsym h30 h31 => herr ?_⟩
    have hbefore : ∀ k < j, symbolBit (s.inByte (c + 5 + k)) ≠ none := fun k hk hnone => by
      obtain ⟨hk30, hk31⟩ := symbolBit_eq_none.mp hnone
      exact (hsym k hk).elim hk30 hk31
    rw [hfield, readCodeField_eq h1 h255 h, readCode_bad hj hbefore (symbolBit_eq_none.mpr ⟨h30, h31⟩)]
    rfl

end Sys2Proof
end

section
/-! PROOFS. RMAP_BUILD (R181): the reverse mapping of entries that do not conflict is these entries turned around, and
the first entry that conflicts with an earlier one is reported. -/

namespace Sys2Proof
open Machine

theorem conflict_eq_true {c d : Code} : conflict c d = true ↔ c <+: d ∨ d <+: c := by
  rw [conflict, Bool.or_eq_true, List.isPrefixOf_iff_prefix, List.isPrefixOf_iff_prefix]

theorem conflict_eq_false {c d : Code} : conflict c d = false ↔ ¬ c <+: d ∧ ¬ d <+: c := by
  rw [← Bool.not_eq_true, conflict_eq_true, not_or]

/-- No entry's code conflicts with the code of an earlier entry (R181). -/
def Compatible (es : List (Byte × Code)) : Prop := es.Pairwise fun e f => conflict e.2 f.2 = false

theorem mapEntry_new {es : List (Byte × Code)} {e : Byte × Code} (h : ∀ f ∈ es, conflict f.2 e.2 = false) :
    mapEntry (es.map Prod.swap) e = .ok ((es ++ [e]).map Prod.swap) := by
  have hnone : ¬ (es.map Prod.swap).any (fun r => conflict r.1 e.2) = true := by
    simpa [List.any_map] using h
  rw [mapEntry, if_neg hnone, List.map_append]
  rfl

theorem mapEntry_conflict {es : List (Byte × Code)} {e f : Byte × Code} (hf : f ∈ es)
    (h : conflict f.2 e.2 = true) :
    mapEntry (es.map Prod.swap) e = .error (.raised .notPrefixFree (e.1.setWidth 32)) :=
  if_pos (List.any_eq_true.mpr ⟨f.swap, List.mem_map_of_mem hf, h⟩)

/-- The outer loop of RMAP_BUILD on entries that do not conflict. -/
theorem Compatible.foldlM_mapEntry {es : List (Byte × Code)} (h : Compatible es) :
    es.foldlM mapEntry [] = .ok (es.map Prod.swap) := by
  induction es using List.reverseRecOn with
  | nil => rfl
  | append_singleton es e ih =>
    obtain ⟨hes, -, hnew⟩ := List.pairwise_append.mp h
    rw [List.foldlM_append, ok_bind (ih hes), List.foldlM_cons,
      ok_bind (mapEntry_new fun f hf => hnew f hf e (List.mem_singleton_self e))]
    rfl

/-- The outer loop of RMAP_BUILD ends at the first entry that conflicts with an earlier one. -/
theorem Compatible.foldlM_mapEntry_conflict {pre post : List (Byte × Code)} {e f : Byte × Code} (h : Compatible pre)
    (hf : f ∈ pre) (hconf : conflict f.2 e.2 = true) :
    (pre ++ e :: post).foldlM mapEntry [] = .error (.raised .notPrefixFree (e.1.setWidth 32)) := by
  rw [List.foldlM_append, ok_bind h.foldlM_mapEntry, List.foldlM_cons, mapEntry_conflict hf hconf]
  rfl

/-- A code that conflicts with no other stands at one place of the reverse mapping (R181). -/
theorem Compatible.lookup_swap {es : List (Byte × Code)} (h : Compatible es) {e : Byte × Code} (he : e ∈ es) :
    (es.map Prod.swap).lookup e.2 = some e.1 := by
  obtain ⟨pre, post, rfl⟩ := List.append_of_mem he
  obtain ⟨-, -, hpre⟩ := List.pairwise_append.mp h
  refine List.lookup_eq_some_iff.mpr ⟨pre.map Prod.swap, post.map Prod.swap, by simp [Prod.swap], fun r hr => ?_⟩
  obtain ⟨f, hf, rfl⟩ := List.mem_map.mp hr
  have hno := (conflict_eq_false.mp (hpre f hf e List.mem_cons_self)).1
  exact bne_iff_ne.mpr fun heq => hno (heq ▸ List.prefix_rfl)

theorem Compatible.inverts {ct : ByteTable (Option Code)} (h : Compatible (codeEntries ct)) :
    Inverts ((codeEntries ct).map Prod.swap) ct := by
  refine inverts_of_entries (fun r hr => ?_) fun e he => h.lookup_swap he
  obtain ⟨e, he, rfl⟩ := List.mem_map.mp hr
  exact mem_codeEntries.mp he

theorem PrefixFree.compatible {ct : ByteTable (Option Code)} (h : PrefixFree ct) : Compatible (codeEntries ct) := by
  refine (pairwise_codeEntries ct).imp_of_mem fun {e f} he hf hlt => ?_
  have hne : e.1 ≠ f.1 := BitVec.ne_of_lt hlt
  rw [mem_codeEntries] at he hf
  exact conflict_eq_false.mpr ⟨h _ _ _ _ hne he hf, h _ _ _ _ hne.symm hf he⟩

/-- An operation on the internal registers that raises an error ends in error entry (R231). -/
theorem onInternals_raised {code : Byte} {s : State} {f : Internals → Run Internals} {sub : ErrSub} {info : Word}
    (h : f s.int = .error (.raised sub info)) : onInternals code s f = .next (raise sub info s) := by
  rw [onInternals, h]
  rfl

section
variable {s : State}

theorem execRmapBuild_run {r : List (Code × Byte)} (h : (codeEntries s.int.ct).foldlM mapEntry [] = .ok r) :
    execRmapBuild s = .next { s with phase := 0x70#8, int := { s.int with rmap := r } } :=
  onInternals_ok ((ok_bind h _).trans rfl)

theorem execRmapBuild_raised {sub : ErrSub} {info : Word}
    (h : (codeEntries s.int.ct).foldlM mapEntry [] = .error (.raised sub info)) :
    execRmapBuild s = .next (raise sub info s) := by
  refine onInternals_raised ?_
  rw [h]
  rfl

end

/-- Settles O39: the entries of a `PrefixFree` table do not conflict, so RMAP_BUILD turns them around; otherwise the
entries below `j` do not conflict, and the entry of `i` is among them. -/
theorem rmapBuildInvertsTheTable : Obligations.RmapBuildInvertsTheTable := by
  intro s
  refine ⟨fun hfree => ?_, fun i j p q hij hi hj hpq hleast => execRmapBuild_raised ?_⟩
  · have hcomp := hfree.compatible
    exact ⟨_, execRmapBuild_run hcomp.foldlM_mapEntry, hcomp.inverts, rfl⟩
  · have hmem : (i, p) ∈ codeEntries s.int.ct := mem_codeEntries.mpr hi
    obtain ⟨pre, post, hsplit⟩ := List.append_of_mem (mem_codeEntries.mpr hj : (j, q) ∈ codeEntries s.int.ct)
    have hin : ∀ e ∈ pre, byteGet s.int.ct e.1 = some e.2 := fun e he =>
      mem_codeEntries.mp (hsplit ▸ List.mem_append_left _ he)
    have hasc := pairwise_codeEntries s.int.ct
    rw [hsplit] at hmem hasc
    obtain ⟨hpre, hpost, hbelow⟩ := List.pairwise_append.mp hasc
    have hcomp : Compatible pre := hpre.imp_of_mem fun {e f} he hf hlt =>
      conflict_eq_false.mpr (hleast _ _ _ _ hlt (hbelow f hf (j, q) List.mem_cons_self) (hin e he) (hin f hf))
    have hi_pre : (i, p) ∈ pre := by
      rcases List.mem_append.mp hmem with h | h
      · exact h
      · rcases List.mem_cons.mp h with h | h
        · exact absurd (Prod.mk.inj h).1 (BitVec.ne_of_lt hij)
        · exact absurd (List.rel_of_pairwise_cons hpost h) (BitVec.lt_asymm hij)
    rw [hsplit, hcomp.foldlM_mapEntry_conflict hi_pre (conflict_eq_true.mpr hpq)]

end Sys2Proof
end

section
/-! PROOFS. One transition of the decoder and the scan (R182 to R188): what a payload bit does in each case, and that
each emitted byte takes at least one bit. -/

namespace Sys2Proof
open Machine

/-! ## One transition (R183) -/

/-- The registers after a payload bit was read, with the new accumulator (R183). -/
def afterBit (acc : Code) (s : State) : State :=
  { s with phase := 0x72#8, int := { s.int with acc := acc, bitcur := s.int.bitcur + 1 } }

section
variable {s t : State} {acc : Code}

theorem decodeBit_match {b : Byte} (hacc : acc = s.int.acc ++ [nextBit s]) (h : s.int.rmap.lookup acc = some b) :
    decodeBit s = outAppend (afterBit [] s) [b] := by
  subst hacc
  simp only [decodeBit, h]
  rfl

theorem decodeBit_full (hacc : acc = s.int.acc ++ [nextBit s]) (h : s.int.rmap.lookup acc = none)
    (hlen : acc.length = 255) : decodeBit s = .error (.raised .noMatch 255) := by
  subst hacc
  simp only [decodeBit, h]
  exact if_pos hlen

theorem decodeBit_goOn (hacc : acc = s.int.acc ++ [nextBit s]) (h : s.int.rmap.lookup acc = none)
    (hlen : acc.length ≠ 255) : decodeBit s = .ok (afterBit acc s) := by
  subst hacc
  simp only [decodeBit, h]
  exact if_neg hlen

/-- UNPACK_BIT under its requirements (R183) is one transition. -/
theorem execUnpackBit_eq (hbit : s.int.bitcur < s.int.trueBits) (hroom : s.int.acc.length < 255)
    (hcap : s.inLen ≤ s.params.inCap) (hin : s.hdrLen.toNat + s.int.bitcur.toNat / 8 < s.inLen.toNat) :
    execUnpackBit s = settle s (decodeBit s) := by
  have hroom : ¬ Config.maxCodeLen ≤ s.int.acc.length := Nat.not_le.mpr hroom
  rw [execUnpackBit, if_neg (BitVec.not_le.mpr hbit), if_neg hroom, checkInput_ok hcap, if_neg (Nat.not_le.mpr hin)]
  rfl

end

/-- Settles O40: UNPACK_BIT is `decodeBit`, whose cases are whether the accumulated bits are a code, whether OUT has room
for its byte (`outAppend_ok`, `outAppend_full`), and whether 255 bits are accumulated. -/
theorem unpackBitTransitions : Obligations.UnpackBitTransitions := by
  intro s acc hbit hroom hcap hin hacc
  have hrun : exec .unpackBit s = settle s (decodeBit s) := execUnpackBit_eq hbit hroom hcap hin
  rw [hrun]
  refine ⟨fun b hb hout => ?_, fun b hb hout => ?_, fun hb hlen => ?_, fun hb hlen => ?_⟩
  · have hlt := BitVec.lt_def.mp hout
    obtain ⟨t, happ, hbyte, hother, hlen, ht⟩ := outAppend_appends (s := afterBit [] s) (v := [b])
      (BitVec.le_of_lt hout) hlt
    have hnext : t.outLen = s.outLen + 1 := by
      have := s.params.outCap.isLt
      exact BitVec.eq_of_toNat_eq (hlen.trans (Nat.mod_eq_of_lt (by omega)).symm)
    refine ⟨t, by rw [decodeBit_match hacc hb, happ, settle_ok], (List.cons.inj hbyte).1,
      fun a ha => hother a (Nat.lt_or_gt_of_ne ha), ?_⟩
    rw [← hnext]
    exact ht
  · have hfull : s.params.outCap.toNat - s.outLen.toNat < 1 := by
      have := BitVec.le_def.mp hout
      omega
    rw [decodeBit_match hacc hb, outAppend_full (s := afterBit [] s) (v := [b]) hfull, settle_raised]
  · rw [decodeBit_goOn hacc hb (Nat.ne_of_lt hlen)]
    rfl
  · rw [decodeBit_full hacc hb hlen, settle_raised]

/-! ## UNPACK (R182) -/

/-- The registers when the loop of UNPACK begins (R182). -/
def unpackStart (s : State) : State :=
  { s with
    phase := 0x71#8
    int := { s.int with
      trueBits := BitVec.ofNat 64 (8 * (s.inLen.toNat - s.hdrLen.toNat) - s.pad.toNat)
      acc := []
      bitcur := 0 } }

/-- The termination check of UNPACK (R185). -/
def scanEnd (s : State) : Run State :=
  if s.int.acc = [] then .ok { s with phase := 0x71#8 }
  else .error (.raised .leftoverBits (BitVec.ofNat 32 s.int.acc.length))

theorem scanEnd_done {s : State} (h : s.int.acc = []) : scanEnd s = .ok { s with phase := 0x71#8 } :=
  if_pos h

theorem scanEnd_left {s : State} (h : s.int.acc ≠ []) :
    scanEnd s = .error (.raised .leftoverBits (BitVec.ofNat 32 s.int.acc.length)) :=
  if_neg h

theorem unpackFromLoop_eq (s : State) :
    unpackFromLoop s = scan (s.int.trueBits.toNat - s.int.bitcur.toNat) s >>= scanEnd := rfl

/-- UNPACK is its checks in order and then its loop. -/
theorem execUnpack_eq (s : State) :
    execUnpack s =
      if s.params.inCap < s.inLen then .fault .noSuchByte
      else if s.inLen < s.hdrLen then .refused .headerBeyondInput
      else if 8 * (s.inLen.toNat - s.hdrLen.toNat) < s.pad.toNat then .next (raise .padExceedsPayload 0 s)
      else settle s (unpackFromLoop (unpackStart s)) := by
  rw [execUnpack]
  by_cases hcap : s.params.inCap < s.inLen
  · rw [checkInput_beyond hcap, if_pos hcap]
    rfl
  · rw [ok_bind (checkInput_ok (BitVec.not_lt.mp hcap)), if_neg hcap]
    split_ifs with hhdr hpad
    · rfl
    · simp only [if_pos hpad]
      rfl
    · simp only [if_neg hpad]
      rfl

/-- `TRUE_BITS` when the loop of UNPACK begins is exact, as a payload has less than 2^64 bits (R182). -/
theorem toNat_trueBits_unpackStart (s : State) :
    (unpackStart s).int.trueBits.toNat = 8 * (s.inLen.toNat - s.hdrLen.toNat) - s.pad.toNat := by
  have := s.inLen.isLt
  exact Nat.mod_eq_of_lt (by omega)

/-! ## The length of the output (R190) -/

theorem outAppend_outLen_le {s t : State} {v : List Byte} (h : outAppend s v = .ok t) :
    t.outLen.toNat ≤ s.outLen.toNat + v.length := by
  rcases outAppend_cases s v with ⟨-, hrun⟩ | ⟨-, hrun⟩
  · rw [hrun] at h
    cases h
    exact Nat.mod_le _ _
  · rw [hrun] at h
    cases h

/-- One payload bit emits at most one byte. -/
theorem decodeBit_outLen_le {s t : State} (h : decodeBit s = .ok t) : t.outLen.toNat ≤ s.outLen.toNat + 1 := by
  cases hb : s.int.rmap.lookup (s.int.acc ++ [nextBit s]) with
  | some b =>
    rw [decodeBit_match rfl hb] at h
    exact outAppend_outLen_le h
  | none =>
    by_cases hlen : (s.int.acc ++ [nextBit s]).length = 255
    · rw [decodeBit_full rfl hb hlen] at h
      cases h
    · rw [decodeBit_goOn rfl hb hlen] at h
      cases h
      exact Nat.le_add_right _ _

theorem scan_outLen_le {n : Nat} {s t : State} (h : scan n s = .ok t) : t.outLen.toNat ≤ s.outLen.toNat + n := by
  induction n generalizing s with
  | zero =>
    cases h
    exact Nat.le_refl _
  | succ n ih =>
    obtain ⟨u, hu, h⟩ := bind_ok h
    have hfirst := decodeBit_outLen_le hu
    have hrest := ih h
    omega

theorem unpackFromLoop_outLen_le {s t : State} (h : unpackFromLoop s = .ok t) :
    t.outLen.toNat ≤ s.outLen.toNat + (s.int.trueBits.toNat - s.int.bitcur.toNat) := by
  rw [unpackFromLoop_eq] at h
  obtain ⟨u, hu, h⟩ := bind_ok h
  have hle := scan_outLen_le hu
  by_cases hacc : u.int.acc = []
  · rw [scanEnd_done hacc] at h
    cases h
    exact hle
  · rw [scanEnd_left hacc] at h
    cases h

/-- UNPACK appends at most `TRUE_BITS` bytes, or is error entry. -/
theorem execUnpack_outLen_le {s t : State} (h : execUnpack s = .next t) :
    t.outLen.toNat + s.pad.toNat ≤ s.outLen.toNat + 8 * (s.inLen.toNat - s.hdrLen.toNat) ∨
      ∃ sub info, t = raise sub info s := by
  rw [execUnpack_eq] at h
  split_ifs at h with hcap hhdr hpad
  · cases h
    exact .inr ⟨_, _, rfl⟩
  · rcases settle_next h with hrun | ⟨sub, info, -, rfl⟩
    · have hle := unpackFromLoop_outLen_le hrun
      have hstart : (unpackStart s).outLen = s.outLen := rfl
      rw [toNat_trueBits_unpackStart, hstart] at hle
      exact .inl (by omega)
    · exact .inr ⟨sub, info, rfl⟩

/-! ## DECOMPRESS that ends with DONE (R202) -/

/-- A command that ends with DONE goes on after an operation that keeps STATUS or is error entry. -/
theorem thenBusy_done {o : Result} {k : State → Result} {s t : State} (h : thenBusy o k = .next t)
    (hdone : t.status.state = .done) (hbusy : s.status.state = .busy)
    (ho : ∀ v, o = .next v → v.status = s.status ∨ ∃ sub info, v = raise sub info s) :
    ∃ v, o = .next v ∧ v.status = s.status ∧ (¬ ∃ sub info, v = raise sub info s) ∧ k v = .next t := by
  rcases thenBusy_next h with ⟨hrun, -⟩ | ⟨v, hrun, hv, hk⟩
  · rcases ho t hrun with hst | ⟨sub, info, rfl⟩
    · rw [hst, hbusy] at hdone
      cases hdone
    · cases hdone
  · have hne : ¬ ∃ sub info, v = raise sub info s := by
      rintro ⟨sub, info, rfl⟩
      cases hv
    exact ⟨v, hrun, (ho v hrun).resolve_right hne, hne, hk⟩

/-- The three unit operations of a DECOMPRESS that ends with DONE, none of which was error entry. -/
theorem decompress_done {s t : State} (h : exec .decompress s = .next t) (hdone : t.status.state = .done) :
    ∃ u v w, execHdrRead (prologue s) = .next u ∧ (¬ ∃ sub info, u = raise sub info (prologue s)) ∧
      execRmapBuild u = .next v ∧ (¬ ∃ sub info, v = raise sub info u) ∧
      execUnpack v = .next w ∧ (¬ ∃ sub info, w = raise sub info v) ∧ t = finishDecompress w := by
  change withPrologue s decompressBody = .next t at h
  by_cases hcap : s.params.inCap < s.inLen
  · rw [withPrologue_inRange hcap] at h
    cases h
    cases hdone
  rw [withPrologue_body (BitVec.not_lt.mp hcap)] at h
  obtain ⟨u, hu, hust, hune, h⟩ := thenBusy_done (s := prologue s) h hdone rfl
    fun v hv => (execHdrRead_next hv).imp_left fun e => by rw [e]
  have hbusy : u.status.state = .busy := by rw [hust, prologue_status]
  obtain ⟨v, hv, hvst, hvne, h⟩ := thenBusy_done h hdone hbusy
    fun w hw => (execRmapBuild_next hw).imp_left fun e => by rw [e]
  obtain ⟨w, hw, -, hwne, h⟩ := thenBusy_done h hdone (hvst ▸ hbusy)
    fun w hw => (execUnpack_next hw).imp_left fun e => by rw [e]
  cases h
  exact ⟨u, v, w, hu, hune, hv, hvne, hw, hwne, rfl⟩

/-- Settles O56: `OUT_LEN` is 0 when UNPACK begins, and UNPACK appends at most `TRUE_BITS` bytes. -/
theorem decodedLengthIsBounded : Obligations.DecodedLengthIsBounded := by
  intro s t h hdone
  obtain ⟨u, v, w, hu, hune, hv, hvne, hw, hwne, rfl⟩ := decompress_done h hdone
  have hu := (execHdrRead_next hu).resolve_right hune
  have hv := (execRmapBuild_next hv).resolve_right hvne
  have hframe := (execUnpack_next hw).resolve_right hwne
  have hle := (execUnpack_outLen_le hw).resolve_right hwne
  have hout : v.outLen.toNat = 0 := by
    rw [hv, hu]
    rfl
  have hin : v.inLen = s.inLen := by rw [hv, hu, prologue_inLen]
  have hpad : w.pad = v.pad := by rw [hframe]
  have hhdr : w.hdrLen = v.hdrLen := by rw [hframe]
  rw [hout, hin, ← hpad, ← hhdr, Nat.zero_add] at hle
  exact hle

end Sys2Proof
end

section
/-! PROOFS. The padding bits (R186): UNPACK on two contents of IN that agree on the payload's true bits. -/

namespace Sys2Proof
open Machine

/-- The same machine with other bytes in IN. -/
def withIn (m : Memory) (d : Nat) (s : State) : State := { s with inMem := m, inDraw := d }

/-- The answer with another next state. -/
def mapNext (f : State → State) : Result → Result
  | .next t => .next (f t)
  | .fault r => .fault r
  | .refused r => .refused r

/-- Bit `k` of the payload (R183). -/
def bitAt (s : State) (k : Nat) : Bool := payloadBit (s.inByte (s.hdrLen.toNat + k / 8)) (k % 8)

section
variable {s : State} {m : Memory} {d : Nat}

theorem settle_withIn (s : State) (x : Run State) :
    settle (withIn m d s) (x.map (withIn m d)) = mapNext (withIn m d) (settle s x) := by
  match x with
  | .ok _ => rfl
  | .error (.raised _ _) => rfl
  | .error (.fault _) => rfl
  | .error (.refuse _) => rfl

/-- A change of the state passes through two computations if it passes through the second. -/
theorem bind_map_comm {x : Run State} {f : State → State} {g : State → Run State}
    (h : ∀ u, x = .ok u → g (f u) = (g u).map f) : (x.map f >>= g) = (x >>= g).map f := by
  cases x with
  | ok u => exact h u rfl
  | error e => rfl

/-- OUT does not depend on IN. -/
theorem outAppend_withIn (s : State) (v : List Byte) :
    outAppend (withIn m d s) v = (outAppend s v).map (withIn m d) := by
  rcases outAppend_cases s v with ⟨hroom, hrun⟩ | ⟨hfull, hrun⟩
  · rw [hrun, outAppend_ok (s := withIn m d s) hroom]
    rfl
  · rw [hrun, outAppend_full (s := withIn m d s) hfull]
    rfl

/-- One transition of the decoder depends on IN through the bit it reads. -/
theorem decodeBit_withIn (hbit : nextBit (withIn m d s) = nextBit s) :
    decodeBit (withIn m d s) = (decodeBit s).map (withIn m d) := by
  have hacc : s.int.acc ++ [nextBit s] = (withIn m d s).int.acc ++ [nextBit (withIn m d s)] := by
    rw [hbit]
    rfl
  cases hb : s.int.rmap.lookup (s.int.acc ++ [nextBit s]) with
  | some b =>
    rw [decodeBit_match rfl hb, decodeBit_match hacc hb]
    exact outAppend_withIn (afterBit [] s) [b]
  | none =>
    by_cases hlen : (s.int.acc ++ [nextBit s]).length = 255
    · rw [decodeBit_full rfl hb hlen, decodeBit_full hacc hb hlen]
      rfl
    · rw [decodeBit_goOn rfl hb hlen, decodeBit_goOn hacc hb hlen]
      rfl

/-- The scan of `n` bits depends on IN through these bits. -/
theorem scan_withIn {n : Nat} (hfit : s.int.bitcur.toNat + n < 2 ^ 64)
    (hbits : ∀ k < n, bitAt (withIn m d s) (s.int.bitcur.toNat + k) = bitAt s (s.int.bitcur.toNat + k)) :
    scan n (withIn m d s) = (scan n s).map (withIn m d) := by
  induction n generalizing s with
  | zero => rfl
  | succ n ih =>
    have hfirst := decodeBit_withIn (hbits 0 (Nat.succ_pos n))
    rw [scan, scan, hfirst]
    refine bind_map_comm fun u hu => ?_
    have hframe := decodeBit_ok hu
    have hcur : u.int.bitcur.toNat = s.int.bitcur.toNat + 1 := by
      rw [hframe]
      exact Nat.mod_eq_of_lt (show s.int.bitcur.toNat + 1 < 2 ^ 64 by omega)
    have hold : ∀ k, bitAt u k = bitAt s k := fun k => by
      rw [hframe]
      rfl
    have hnew : ∀ k, bitAt (withIn m d u) k = bitAt (withIn m d s) k := fun k => by
      rw [hframe]
      rfl
    refine ih (by omega) fun k hk => ?_
    rw [hold, hnew, hcur, Nat.add_right_comm, Nat.add_assoc]
    exact hbits (k + 1) (Nat.succ_lt_succ hk)

theorem scanEnd_withIn (s : State) : scanEnd (withIn m d s) = (scanEnd s).map (withIn m d) := by
  by_cases hacc : s.int.acc = []
  · rw [scanEnd_done hacc, scanEnd_done (s := withIn m d s) hacc]
    rfl
  · rw [scanEnd_left hacc, scanEnd_left (s := withIn m d s) hacc]
    rfl

theorem unpackFromLoop_withIn (hbits : ∀ k, s.int.bitcur.toNat ≤ k → k < s.int.trueBits.toNat →
    bitAt (withIn m d s) k = bitAt s k) :
    unpackFromLoop (withIn m d s) = (unpackFromLoop s).map (withIn m d) := by
  have hcur := s.int.bitcur.isLt
  have htrue := s.int.trueBits.isLt
  have hscan : scan (s.int.trueBits.toNat - s.int.bitcur.toNat) (withIn m d s) = _ :=
    scan_withIn (by omega) fun k hk => hbits _ (Nat.le_add_right _ k) (by omega)
  rw [unpackFromLoop_eq, unpackFromLoop_eq, ← bind_map_comm fun u _ => scanEnd_withIn u, ← hscan]
  rfl

/-- UNPACK depends on IN through the payload's true bits (R186). -/
theorem execUnpack_withIn (hbits : ∀ k < 8 * (s.inLen.toNat - s.hdrLen.toNat) - s.pad.toNat,
    bitAt (withIn m d s) k = bitAt s k) :
    execUnpack (withIn m d s) = mapNext (withIn m d) (execUnpack s) := by
  have hloop : unpackFromLoop (withIn m d (unpackStart s)) = (unpackFromLoop (unpackStart s)).map (withIn m d) :=
    unpackFromLoop_withIn fun k _ hk => hbits k (toNat_trueBits_unpackStart s ▸ hk)
  have hsettle : settle (withIn m d s) (unpackFromLoop (unpackStart (withIn m d s))) =
      mapNext (withIn m d) (settle s (unpackFromLoop (unpackStart s))) := by
    rw [← settle_withIn, ← hloop]
    rfl
  rw [execUnpack_eq, execUnpack_eq, hsettle]
  change (if s.params.inCap < s.inLen then _ else if s.inLen < s.hdrLen then _
    else if 8 * (s.inLen.toNat - s.hdrLen.toNat) < s.pad.toNat then _ else _) = _
  split_ifs <;> rfl

end

/-- Settles O44: the two contents of IN agree on the bits that UNPACK reads (`execUnpack_withIn`). -/
theorem paddingBitsAreIgnored : Obligations.PaddingBitsAreIgnored := by
  intro s m d h
  have hbits : ∀ k < 8 * (s.inLen.toNat - s.hdrLen.toNat) - s.pad.toNat, bitAt (withIn m d s) k = bitAt s k :=
    fun k hk => List.map_inj_left.mp h k (List.mem_range.mpr hk)
  have hrun : exec .unpack (withIn m d s) = mapNext (withIn m d) (exec .unpack s) := execUnpack_withIn hbits
  have hsame {o : Result} (ho : exec .unpack s = o) : exec .unpack (withIn m d s) = mapNext (withIn m d) o :=
    hrun.trans (congrArg _ ho)
  exact ⟨fun t ht => hsame ht, fun r hr => hsame hr, fun r hr => hsame hr⟩

end Sys2Proof
end

section
/-! PROOFS. BUILD is a function of the counters (R126, R129): what the arena, the heap and the operand registers held
before has no effect on the tree, because the two nodes with the least keys are determined by the set of the heap. -/

namespace Sys2Proof
open Machine

/-! ## The least node -/

/-- An allocated node is the same in all registers with the same arena. -/
theorem nodeAt_congr {m k : Internals} (h : m.node = k.node) {n : NodeIdx} (hn : n.toNat < m.node.length) :
    nodeAt m n = nodeAt k n := by
  obtain ⟨x, hx⟩ : ∃ x, m.node[n.toNat]? = some x := ⟨_, List.getElem?_eq_getElem hn⟩
  rw [nodeAt_of_getElem? hx, nodeAt_of_getElem? (h ▸ hx)]

theorem Precedes.asymm {m : Internals} {a b : NodeIdx} (h : Precedes m a b) : ¬ Precedes m b a := by
  obtain ⟨x, y, hx, hy, hxy⟩ := h
  rintro ⟨y', x', hy', hx', hyx⟩
  cases hx.symm.trans hx'
  cases hy.symm.trans hy'
  simp only [BitVec.lt_def, ← BitVec.toNat_inj] at hxy hyx
  omega

/-- A set of nodes has one least node. -/
theorem least_unique {m k : Internals} (hn : m.node = k.node) {a b : NodeIdx} {l r : List NodeIdx}
    (hperm : (a :: l).Perm (b :: r)) (ha : ∀ n ∈ l, Precedes m a n) (hb : ∀ n ∈ r, Precedes k b n) :
    a = b ∧ l.Perm r := by
  have hab : a = b := by
    by_contra hne
    have hbl := (List.mem_cons.mp (hperm.mem_iff.mpr List.mem_cons_self)).resolve_left (Ne.symm hne)
    have har := (List.mem_cons.mp (hperm.mem_iff.mp List.mem_cons_self)).resolve_left hne
    exact (ha b hbl).asymm ((hb a har).append (xs := []) (by rw [hn, List.append_nil]))
  subst hab
  exact ⟨rfl, hperm.cons_inv⟩

/-! ## Two runs of BUILD -/

/-- Two runs of BUILD with the same arena and the same set of nodes in the heap, and room for the merges that are
left. -/
structure SameForest (m k : Internals) : Prop where
  left : HeapInv m
  right : HeapInv k
  node : m.node = k.node
  heap : m.heap.Perm k.heap
  room : m.node.length + m.heap.length ≤ 512

/-- Both runs take the same two nodes and make the same new one. -/
theorem SameForest.buildRound_run {m k : Internals} (h : SameForest m k) (htwo : 2 ≤ m.heap.length) :
    ∃ m' k', buildRound m = .ok m' ∧ buildRound k = .ok k' ∧ SameForest m' k' := by
  obtain ⟨hm, hk, hnode, hheap, hroom⟩ := h
  obtain ⟨a, b, rest, hp, hrun, hperm, ha, hb, hperm', hinv⟩ := buildRound_heapInv hm htwo (by omega)
  obtain ⟨c, d, others, hq, hrun', hqerm, hc, hd, hqerm', hinv'⟩ :=
    buildRound_heapInv hk (hheap.length_eq ▸ htwo) (hnode ▸ by omega)
  obtain ⟨rfl, hrest⟩ := least_unique hnode (hperm.symm.trans (hheap.trans hqerm)) ha hc
  obtain ⟨rfl, hothers⟩ := least_unique hnode hrest hb hd
  have hin : ∀ n ∈ a :: b :: rest, nodeAt m n = nodeAt k n := fun n hn =>
    nodeAt_congr hnode (hm.inArena n (hperm.mem_iff.mpr hn))
  rw [← hnode, ← hin a (by simp), ← hin b (by simp)] at hrun' hinv'
  rw [← hnode] at hqerm'
  refine ⟨_, _, hrun, hrun', hinv, hinv', rfl, hperm'.trans ((hothers.cons _).trans hqerm'.symm), ?_⟩
  have h1 := hperm.length_eq
  have h2 := hperm'.length_eq
  simp only [List.length_cons, List.length_append, List.length_nil] at h1 h2 ⊢
  omega

theorem SameForest.buildLoop_run {m k : Internals} (h : SameForest m k) (f : Nat) :
    ∃ m' k', buildLoop f m = .ok m' ∧ buildLoop f k = .ok k' ∧ SameForest m' k' := by
  induction f generalizing m k with
  | zero => exact ⟨m, k, rfl, rfl, h⟩
  | succ f ih =>
    rw [buildLoop, buildLoop, ← h.heap.length_eq]
    split_ifs with htwo
    · obtain ⟨m₁, k₁, hm₁, hk₁, h₁⟩ := h.buildRound_run htwo
      obtain ⟨m₂, k₂, hm₂, hk₂, h₂⟩ := ih h₁
      exact ⟨m₂, k₂, (ok_bind hm₁ _).trans hm₂, (ok_bind hk₁ _).trans hk₂, h₂⟩
    · exact ⟨m, k, rfl, rfl, h⟩

/-- `ROOT` takes a node of the heap and nothing else changes (R126). -/
theorem takeRoot_ok {m k : Internals} (h : takeRoot m = .ok k) : k = { m with root := k.root } := by
  rw [takeRoot] at h
  split at h <;> cases h
  rfl

/-- BUILD after PQ_INIT ends in both runs with the same arena and the same set of nodes in the heap. -/
theorem SameForest.buildAfterInit_eq {m k m' k' : Internals} (h : SameForest m k) (hm : buildAfterInit m = .ok m')
    (hk : buildAfterInit k = .ok k') : m'.node = k'.node ∧ m'.heap.Perm k'.heap := by
  rw [buildAfterInit] at hm hk
  rw [← h.heap.length_eq] at hk
  split_ifs at hm hk with hone
  · rw [takeRoot_ok hm, takeRoot_ok hk]
    exact ⟨h.node, h.heap⟩
  · obtain ⟨m₁, k₁, hm₁, hk₁, h₁⟩ := SameForest.buildLoop_run
      (m := { m with degenSig := false }) (k := { k with degenSig := false })
      ⟨h.left.congr rfl rfl, h.right.congr rfl rfl, h.node, h.heap, h.room⟩ m.heap.length
    rw [buildFromLoop, ok_bind hm₁] at hm
    rw [buildFromLoop, ← h.heap.length_eq, ok_bind hk₁] at hk
    rw [takeRoot_ok hm, takeRoot_ok hk]
    exact ⟨h₁.node, h₁.heap⟩

/-! ## PQ_INIT -/

/-- An arena with as many leaves as nodes is the list of its leaves. -/
theorem eq_map_leaf_of_length {node : List Node} (h : node.length ≤ (node.filterMap Node.entry).length) :
    node = (node.filterMap Node.entry).map (fun e => .leaf e.2 e.1) := by
  induction node with
  | nil => rfl
  | cons x node ih =>
    cases x with
    | leaf f b =>
      rw [List.filterMap_cons_some (show (Node.leaf f b).entry = some (b, f) from rfl)] at h ⊢
      rw [List.map_cons, ← ih (Nat.le_of_succ_le_succ h)]
    | inner f l r =>
      rw [List.filterMap_cons_none (show (Node.inner f l r).entry = none from rfl), List.length_cons] at h
      exact absurd (h.trans (List.length_filterMap_le _ _)) (Nat.not_succ_le_self _)

/-- After PQ_INIT the arena is the list of the leaves, and the heap holds their indices (R122). -/
theorem Building.leaves_only {es : List (Byte × Word)} {m : Internals} {F : Multiset CountTree} (h : Building es m F)
    (hlen : m.heap.length = es.length) :
    m.node = es.map (fun e => .leaf e.2 e.1) ∧
      m.heap.Perm ((List.range es.length).map (BitVec.ofNat 9)) := by
  obtain ⟨-, hforest, -⟩ := h
  have hcard := hforest.length_add_card
  rw [Multiset.coe_card, hlen] at hcard
  have hnode := eq_map_leaf_of_length (node := m.node) (by rw [hforest.leaves]; omega)
  rw [hforest.leaves] at hnode
  have hidx := hforest.indices
  have hchildren : (es.map (fun e => Node.leaf e.2 e.1)).flatMap Node.children = [] :=
    List.flatMap_eq_nil_iff.mpr fun x hx => by
      obtain ⟨e, -, rfl⟩ := List.mem_map.mp hx
      rfl
  rw [hnode, hchildren, List.length_map, Multiset.coe_nil, zero_add] at hidx
  exact ⟨hnode, Multiset.coe_eq_coe.mp hidx⟩

/-- BUILD's arena and root depend on the counters alone. -/
theorem build_congr {m k m' k' : Internals} (hfreq : m.freq = k.freq) (hm : build m = .ok m') (hk : build k = .ok k') :
    m'.node = k'.node ∧ m'.heap.Perm k'.heap := by
  obtain ⟨m₁, hm₁, hmb, hml, -⟩ := pqInit_run m
  obtain ⟨k₁, hk₁, hkb, hkl, -⟩ := pqInit_run k
  rw [build, ok_bind hm₁] at hm
  rw [build, ok_bind hk₁, ← hfreq] at hk
  obtain ⟨hmn, hmh⟩ := hmb.leaves_only hml
  obtain ⟨hkn, hkh⟩ := hkb.leaves_only hkl
  rw [← hfreq] at hkn hkh
  have h256 := length_occurring_le m.freq
  have hsame : SameForest m₁ k₁ := by
    refine ⟨hmb.heap, hkb.heap, hmn.trans hkn.symm, hmh.trans hkh.symm, ?_⟩
    rw [hml, hmn, List.length_map]
    omega
  split_ifs at hm hk
  exact hsame.buildAfterInit_eq hm hk

end Sys2Proof
end

section
/-! PROOFS. The table that a command's BUILD and GENCODES give an input is `huffmanTable` of the input (R200, R208), and
what its codes take at most: in the header, and in the payload (R205). -/

namespace Sys2Proof
open Machine

/-! ## The codes of a tree -/

namespace CountTree

/-- The leaves with their codes: the paths, or the code of one bit for a single leaf (R141, R142). -/
def codes : CountTree → List ((Byte × Word) × Code)
  | leaf e => [(e, [false])]
  | node l r => (node l r).paths []

theorem map_fst_codes (t : CountTree) : t.codes.map Prod.fst = t.leaves := by
  cases t with
  | leaf e => rfl
  | node l r => exact map_fst_paths _ []

/-- The lengths of all paths together are largest for a tree with one inner node on each level. -/
theorem sum_length_paths_le (t : CountTree) (p : Code) :
    2 * ((t.paths p).map (fun x => x.2.length)).sum + 2 ≤
      t.leaves.length * (t.leaves.length + 1 + 2 * p.length) := by
  induction t generalizing p with
  | leaf e =>
    simp only [paths, leaves, List.map_cons, List.map_nil, List.sum_cons, List.sum_nil, List.length_singleton]
    omega
  | node l r ihl ihr =>
    obtain ⟨i, hi⟩ : ∃ i, l.leaves.length = i + 1 := ⟨l.leaves.length - 1, by have := l.size_add_one; omega⟩
    obtain ⟨j, hj⟩ : ∃ j, r.leaves.length = j + 1 := ⟨r.leaves.length - 1, by have := r.size_add_one; omega⟩
    have hl := ihl (p ++ [false])
    have hr := ihr (p ++ [true])
    rw [List.length_append, List.length_singleton, hi] at hl
    rw [List.length_append, List.length_singleton, hj] at hr
    rw [paths, List.map_append, List.sum_append, leaves, List.length_append, hi, hj]
    nlinarith [Nat.zero_le (i * j)]

/-- The codes of at most 256 leaves have at most 32895 bits together (R205). -/
theorem sum_length_codes_le {t : CountTree} (h : t.leaves.length ≤ 256) :
    (t.codes.map (fun x => x.2.length)).sum ≤ 32895 := by
  cases t with
  | leaf e => simp [codes]
  | node l r =>
    have hle := (node l r).sum_length_paths_le []
    have hmax := Nat.mul_le_mul h (Nat.add_le_add_right h 1)
    simp only [List.length_nil, Nat.mul_zero, Nat.add_zero] at hle
    rw [codes]
    omega

end CountTree

/-- GENCODES on BUILD's tree makes the table of the tree's codes (R142, R143). -/
theorem codeTable_codes {m : Internals} {t : CountTree} (h : IsTree m.node m.root t)
    (hd : m.degenSig = decide (t.leaves.length = 1)) (h256 : t.leaves.length ≤ 256) :
    codeTable m = .ok (tableOf (codesOf t.codes), BitVec.ofNat 9 t.leaves.length) := by
  cases t with
  | leaf e => exact codeTable_leaf h hd
  | node l r =>
    have htwo := CountTree.two_le_length_leaves l r
    exact codeTable_tree h (hd.trans (decide_eq_false (by omega))) h256

/-! ## The table of an input -/

/-- The total of the counts of the byte values that occur is the length of the input. -/
theorem sum_occurring_frequencies {bs : List Byte} (hlt : bs.length < 2 ^ 32) :
    ((occurring (frequencies bs)).map (fun e => e.2.toNat)).sum = bs.length := by
  rw [← sum_frequencies hlt]
  simpa using sum_occurring (frequencies bs) (fun _ => 1)

/-- BUILD and GENCODES on the counters of a non-empty input give `huffmanTable` of it, whatever the other registers
held (R208): the codes of a tree whose leaves are the byte values that occur with their counts. -/
theorem build_huffmanTable {m : Internals} {bs : List Byte} (hne : bs ≠ []) (hlt : bs.length < 2 ^ 32)
    (hfreq : m.freq = frequencies bs) :
    ∃ (k : Internals) (t : CountTree), build m = .ok k ∧
      codeTable k = .ok (tableOf (codesOf t.codes), BitVec.ofNat 9 t.leaves.length) ∧
      huffmanTable bs = .ok (tableOf (codesOf t.codes), BitVec.ofNat 9 t.leaves.length, k.degenSig) ∧
      t.leaves.Perm (occurring (frequencies bs)) := by
  have hsum := sum_occurring_frequencies hlt
  have hocc := occurring_frequencies_ne_nil hlt hne
  obtain ⟨k, t, hrun, ⟨hheap, hforest, -⟩, hdg, -⟩ := build_run (m := m) (hfreq ▸ rfl) hocc (hsum ▸ hlt)
  obtain ⟨k₀, t₀, hrun₀, ⟨hheap₀, -, -⟩, hdg₀, -⟩ :=
    build_run (m := { Internals.reset with freq := frequencies bs }) rfl hocc (hsum ▸ hlt)
  obtain ⟨hnode, hperm⟩ := build_congr (k := { Internals.reset with freq := frequencies bs }) hfreq hrun hrun₀
  rw [hheap, hheap₀, List.singleton_perm_singleton] at hperm
  have hleaves := hforest.leaves_perm
  have h256 : t.leaves.length ≤ 256 := hleaves.length_eq ▸ length_occurring_le _
  rw [← hleaves.length_eq] at hdg hdg₀
  have htree := hforest.isTree_root
  have hct₀ := codeTable_codes (m := k₀) (hnode ▸ hperm ▸ htree) hdg₀ h256
  refine ⟨k, t, hrun, codeTable_codes htree hdg h256, ?_, hleaves⟩
  rw [huffmanTable, ok_bind hrun₀, ok_bind hct₀, hdg, hdg₀]
  rfl

section
variable {bs : List Byte} {ct : ByteTable (Option Code)} {cnt : BitVec 9} {dg : Bool}

/-- The codes of the table of an input have at most 32895 bits together (R205). -/
theorem sum_length_codeEntries_le (hne : bs ≠ []) (hlt : bs.length < 2 ^ 32)
    (h : huffmanTable bs = .ok (ct, cnt, dg)) : ((codeEntries ct).map (fun e => e.2.length)).sum ≤ 32895 := by
  obtain ⟨k, t, -, -, hrun, hleaves⟩ := build_huffmanTable (m := { Internals.reset with freq := frequencies bs })
    hne hlt rfl
  obtain ⟨ct', cnt', dg', hrun', hopt⟩ := huffmanTable_optimal hne hlt
  cases h.symm.trans hrun
  cases hrun.symm.trans hrun'
  have hperm := perm_codeLength (t.map_fst_codes.symm ▸ hleaves) (nodup_occurring (frequencies bs))
  have hsum := (hperm.map Prod.snd).sum_eq
  rw [List.map_map, List.map_map] at hsum
  rw [hopt.codeEntries_eq, List.map_map]
  exact hsum.trans_le (CountTree.sum_length_codes_le (hleaves.length_eq ▸ length_occurring_le _))

/-- The table of an input has as many entries as `ENTRY_CNT` says (R148). -/
theorem length_codeEntries (hne : bs ≠ []) (hlt : bs.length < 2 ^ 32) (h : huffmanTable bs = .ok (ct, cnt, dg)) :
    (codeEntries ct).length = cnt.toNat := by
  obtain ⟨ct', cnt', dg', hrun', hopt⟩ := huffmanTable_optimal hne hlt
  cases h.symm.trans hrun'
  obtain ⟨ct', cnt', hrun, hcnt, -⟩ := huffmanTableIsACode bs hne hlt
  cases h.symm.trans hrun
  rw [hopt.codeEntries_eq, List.length_map, hcnt, distinctCount_eq hlt]

/-! ## The payload -/

/-- A sum over a sequence of bytes is the sum over all byte values, each as often as it occurs. -/
theorem sum_map_eq_sum_count (bs : List Byte) (g : Byte → Nat) :
    (bs.map g).sum = (allBytes.map (fun b => bs.count b * g b)).sum := by
  have hsub : bs.toFinset ⊆ allBytes.toFinset := fun b _ => List.mem_toFinset.mpr (mem_allBytes b)
  rw [Finset.sum_list_map_count, ← List.sum_toFinset _ nodup_allBytes]
  refine Finset.sum_subset hsub fun b _ hb => ?_
  rw [List.count_eq_zero_of_not_mem (mt List.mem_toFinset.mpr hb), zero_smul]

/-- The code bits of an input are its counts times the lengths of the codes (R131). -/
theorem length_codeBits (hlt : bs.length < 2 ^ 32) (ct : ByteTable (Option Code)) :
    (codeBits ct bs).length = ((occurring (frequencies bs)).map (fun e => e.2.toNat * codeLength ct e.1)).sum := by
  rw [codeBits, List.length_flatMap, sum_occurring (frequencies bs) (codeLength ct)]
  simp only [toNat_byteGet_frequencies hlt]
  exact sum_map_eq_sum_count bs (codeLength ct)

/-- The code of 8 bits for every byte value satisfies Kraft's inequality. -/
theorem kraftSum_eight_le (es : List (Byte × Word)) (h : es.length ≤ 256) :
    kraftSum ↑(es.map (fun _ => 8)) ≤ 1 := by
  have hcast : (es.length : ℝ) ≤ 256 := by exact_mod_cast h
  rw [kraftSum, List.map_const', Multiset.map_coe, List.map_replicate, Multiset.sum_coe, List.sum_replicate,
    nsmul_eq_mul]
  norm_num
  linarith

/-- The payload of an input is at most as long as the input, since the code of 8 bits is not shorter (R131, R205). -/
theorem length_codeBits_le_eight (hne : bs ≠ []) (hlt : bs.length < 2 ^ 32)
    (h : huffmanTable bs = .ok (ct, cnt, dg)) : (codeBits ct bs).length ≤ 8 * bs.length := by
  obtain ⟨ct', cnt', dg', hrun, hopt⟩ := huffmanTable_optimal hne hlt
  cases h.symm.trans hrun
  have hle := hopt.least (fun _ => 8) (kraftSum_eight_le _ (length_occurring_le _)) fun _ _ => by decide
  rw [List.sum_map_mul_right, sum_occurring_frequencies hlt] at hle
  rw [length_codeBits hlt]
  omega

/-! ## The header -/

theorem length_flatMap_entryBytes (es : List (Byte × Code)) :
    (es.flatMap entryBytes).length = 5 * es.length + (es.map (fun e => e.2.length)).sum := by
  simp only [List.length_flatMap, length_entryBytes, List.sum_map_add, List.map_const', List.sum_replicate,
    smul_eq_mul, Nat.mul_comm]

/-- The header of an input takes 5 bytes for each entry and one for each bit of its codes (R161, R205). -/
theorem length_headerBytes_huffman (hne : bs ≠ []) (hlt : bs.length < 2 ^ 32)
    (h : huffmanTable bs = .ok (ct, cnt, dg)) (pad : Nat) :
    (headerBytes pad cnt.toNat (codeEntries ct)).length =
        8 + 5 * cnt.toNat + ((codeEntries ct).map (fun e => e.2.length)).sum ∧
      (headerBytes pad cnt.toNat (codeEntries ct)).length ≤ 34183 := by
  have hcnt := length_codeEntries hne hlt h
  have hsum := sum_length_codeEntries_le hne hlt h
  obtain ⟨ct', cnt', dg', hrun, hopt⟩ := huffmanTable_optimal hne hlt
  cases h.symm.trans hrun
  have h256 : (codeEntries ct).length ≤ 256 := by
    rw [hopt.codeEntries_eq, List.length_map]
    exact length_occurring_le _
  rw [length_headerBytes, length_flatMap_entryBytes, hcnt]
  omega

end

end Sys2Proof
end

section
/-! PROOFS. COMPRESS as one transition (R200, R201, R206, R207): the encoding it uses is a function of the input, its
result is the header and the payload of that encoding, and it fails exactly when these do not fit OUT (R227). -/

namespace Sys2Proof
open Machine

/-! ## The encoding of an input -/

/-- The code table that COMPRESS makes, with the `ENTRY_CNT` and the `DEGEN` that go with it. -/
structure Encoding where
  ct : ByteTable (Option Code)
  cnt : BitVec 9
  degen : Bool

namespace Encoding

/-- The header that COMPRESS writes for an input. -/
def header (c : Encoding) (bs : List Byte) : List Byte :=
  headerBytes (padCount (codeBits c.ct bs).length) c.cnt.toNat (codeEntries c.ct)

/-- The number of payload bytes of an input. -/
def payloadLength (c : Encoding) (bs : List Byte) : Nat := ((codeBits c.ct bs).length + 7) / 8

/-- The empty table, which COMPRESS uses for the empty input (R201). -/
def empty : Encoding := { ct := emptyTable, cnt := 0, degen := false }

theorem header_empty : empty.header [] = List.replicate 8 0 := by decide +kernel

theorem payloadLength_empty : empty.payloadLength [] = 0 := by decide

end Encoding

/-- The encoding of an input, a function of the input alone (R200, R201). -/
def encodingOf (bs : List Byte) : Run Encoding :=
  if bs = [] then pure .empty
  else do
    let (ct, cnt, dg) ← huffmanTable bs
    pure { ct := ct, cnt := cnt, degen := dg }

theorem encodingOf_nil : encodingOf [] = .ok .empty := rfl

theorem encodingOf_ok {bs : List Byte} {c : Encoding} (hne : bs ≠ []) (h : encodingOf bs = .ok c) :
    huffmanTable bs = .ok (c.ct, c.cnt, c.degen) := by
  rw [encodingOf, if_neg hne] at h
  obtain ⟨⟨ct, cnt, dg⟩, hrun, h⟩ := bind_ok h
  cases h
  exact hrun

/-- Every input that IN can hold has an encoding. -/
theorem encodingOf_run {bs : List Byte} (hlt : bs.length < 2 ^ 32) : ∃ c, encodingOf bs = .ok c := by
  by_cases hne : bs = []
  · exact ⟨_, by rw [hne, encodingOf_nil]⟩
  · obtain ⟨ct, cnt, hrun, -⟩ := huffmanTableIsACode bs hne hlt
    exact ⟨_, by rw [encodingOf, if_neg hne, ok_bind hrun]; rfl⟩

/-- `compressedLength` is the length of the header and the payload, the empty input's 8 bytes included. -/
theorem compressedLength_eq {bs : List Byte} {c : Encoding} (h : encodingOf bs = .ok c) :
    compressedLength bs = .ok ((c.header bs).length + c.payloadLength bs) := by
  by_cases hne : bs = []
  · subst hne
    cases encodingOf_nil.symm.trans h
    rw [compressedLength, if_pos rfl, Encoding.header_empty, Encoding.payloadLength_empty]
    rfl
  · rw [compressedLength, if_neg hne, ok_bind (encodingOf_ok hne h)]
    rfl

/-! ## The result -/

/-- The state after a COMPRESS that succeeded: what the host sees of it (R200, R201, R207), and the registers that R205
speaks of. -/
structure Compressed (c : Encoding) (bs : List Byte) (t : State) : Prop where
  status : t.status = { state := .done, empty := decide (bs = []), degen := c.degen }
  err : t.err = .none
  errSub : t.errSub = .none
  errInfo : t.errInfo = 0
  phase : t.phase = 0
  pad : t.pad.toNat = padCount (codeBits c.ct bs).length
  entryCnt : t.entryCnt = c.cnt
  hdrLen : t.hdrLen.toNat = (c.header bs).length
  outLen : t.outLen.toNat = (c.header bs).length + c.payloadLength bs
  header : outRead t 0 (c.header bs).length = c.header bs
  payload : IsPayload (outRead t (c.header bs).length (c.payloadLength bs)) (codeBits c.ct bs)
  ct : t.int.ct = c.ct
  bitcnt : bs ≠ [] → t.int.bitcnt = BitVec.ofNat 64 (codeBits c.ct bs).length

theorem outRead_add (s : State) (a m n : Nat) : outRead s a (m + n) = outRead s a m ++ outRead s (a + m) n := by
  induction m generalizing a with
  | zero => rw [Nat.zero_add]; rfl
  | succ m ih =>
    rw [Nat.add_right_comm, outRead, ih, outRead, Nat.add_assoc, Nat.add_comm 1 m]
    rfl

/-- The epilogue keeps the bytes of OUT below `OUT_LEN` (R207): there OUT is what the command has written. -/
theorem outRead_epilogue {s : State} {m : Memory} {v : List Byte} (hmem : s.outMem = m.writeBytes 0 v)
    (hlen : s.outLen.toNat = v.length) : outRead (epilogue s) 0 v.length = v := by
  refine List.ext_getElem (length_outRead ..) fun i h1 h2 => ?_
  have hread : (epilogue s).outMem.read i = some v[i] := by
    rw [epilogue_outMem, Memory.read_below, hlen, if_pos h2, hmem, Memory.read_writeBytes, if_pos (by omega),
      Nat.sub_zero, List.getElem?_eq_getElem h2]
  rw [getElem_outRead, Nat.zero_add, State.outByte_of_read hread]

/-- The state before the epilogue of a COMPRESS: OUT holds the header and the payload, the registers describe them. -/
structure Written (c : Encoding) (bs : List Byte) (pay : List Byte) (w : State) : Prop where
  status : w.status = { state := .busy, empty := decide (bs = []), degen := c.degen }
  err : w.err = .none
  errSub : w.errSub = .none
  errInfo : w.errInfo = 0
  pad : w.pad.toNat = padCount (codeBits c.ct bs).length
  entryCnt : w.entryCnt = c.cnt
  hdrLen : w.hdrLen.toNat = (c.header bs).length
  outLen : w.outLen.toNat = (c.header bs ++ pay).length
  outMem : ∃ m : Memory, w.outMem = m.writeBytes 0 (c.header bs ++ pay)
  payload : IsPayload pay (codeBits c.ct bs)
  ct : w.int.ct = c.ct
  bitcnt : bs ≠ [] → w.int.bitcnt = BitVec.ofNat 64 (codeBits c.ct bs).length

theorem Written.compressed {c : Encoding} {bs pay : List Byte} {w : State} (h : Written c bs pay w) :
    Compressed c bs (epilogue w) := by
  obtain ⟨m, hmem⟩ := h.outMem
  have hread := outRead_epilogue hmem h.outLen
  have hpaylen : pay.length = c.payloadLength bs := h.payload.1
  rw [List.length_append, outRead_add, Nat.zero_add] at hread
  obtain ⟨hheader, hpayload⟩ := List.append_inj hread (length_outRead ..)
  refine ⟨by rw [epilogue_status, h.status], h.err, h.errSub, h.errInfo, rfl, h.pad, h.entryCnt, h.hdrLen, ?_, hheader,
    ?_, h.ct, h.bitcnt⟩
  · rw [epilogue_outLen, h.outLen, List.length_append, hpaylen]
  · rw [← hpaylen, hpayload]
    exact h.payload

/-! ## HDR_WRITE and PAYLOAD_WRITE (R161, R162) -/

/-- HDR_WRITE's appends joined are the header. -/
theorem flatten_headerFields (pad : BitVec 3) (cnt : BitVec 9) (ct : ByteTable (Option Code)) :
    (headerFields pad cnt ct).flatten = headerBytes pad.toNat cnt.toNat (codeEntries ct) := by
  have hentry : ∀ e : Byte × Code, (entryFields e.1 e.2).flatten = entryBytes e := fun e => by
    rw [entryFields, List.flatten_cons, List.flatten_cons, ← List.flatMap_def, ← List.map_eq_flatMap]
    rfl
  have hentries : ∀ es : List (Byte × Code),
      (es.flatMap fun e => entryFields e.1 e.2).flatten = es.flatMap entryBytes := fun es => by
    induction es with
    | nil => rfl
    | cons e es ih => rw [List.flatMap_cons, List.flatten_append, hentry, ih, List.flatMap_cons]
  rw [headerFields, List.flatten_cons, List.flatten_cons, hentries, headerBytes, List.append_assoc]

theorem zero_le_word (a : Word) : 0 ≤ a := BitVec.le_def.mpr (Nat.zero_le _)

section
variable {s : State} {h : List Byte}

/-- The state after HDR_WRITE of a header into an empty OUT. -/
def hdrWritten (h : List Byte) (s : State) : State :=
  { s with
    phase := 0x50#8
    outMem := s.outMem.writeBytes 0 h
    outLen := BitVec.ofNat 32 h.length
    hdrLen := BitVec.ofNat 32 h.length }

/-- HDR_WRITE of a header that fits an empty OUT. -/
theorem execHdrWrite_run (hout : s.outLen = 0)
    (hh : h = headerBytes s.pad.toNat s.entryCnt.toNat (codeEntries s.int.ct))
    (hfit : h.length ≤ s.params.outCap.toNat) :
    execHdrWrite s = .next (hdrWritten h s) := by
  have hroom : h.length ≤ s.params.outCap.toNat - (0 : Word).toNat := hfit
  rw [execHdrWrite_eq (hout ▸ zero_le_word _), flatten_headerFields, ← hh,
    outAppend_ok (s := { s with phase := 0x50#8 }) (hout ▸ hroom)]
  simp only [hout, Except.map, settle_ok, hdrWritten, BitVec.toNat_ofNat, Nat.zero_mod, Nat.zero_add,
    BitVec.ofNat_eq_ofNat]

/-- HDR_WRITE of a header that does not. -/
theorem execHdrWrite_full (hout : s.outLen = 0)
    (hh : h = headerBytes s.pad.toNat s.entryCnt.toNat (codeEntries s.int.ct))
    (hfull : s.params.outCap.toNat < h.length) : execHdrWrite s = .next (raise .outFull 0 s) := by
  have hroom : s.params.outCap.toNat - (0 : Word).toNat < h.length := hfull
  rw [execHdrWrite_eq (hout ▸ zero_le_word _), flatten_headerFields, ← hh,
    outAppend_full (s := { s with phase := 0x50#8 }) (hout ▸ hroom)]
  rfl

/-- The state after HDR_WRITE and PAYLOAD_WRITE. -/
def streamWritten (h : List Byte) (s : State) : State :=
  { s with
    phase := 0x51#8
    outMem := s.outMem.writeBytes 0 (h ++ s.int.pay)
    outLen := BitVec.ofNat 32 (h ++ s.int.pay).length
    hdrLen := BitVec.ofNat 32 h.length }

/-- What is left of COMPRESS after PACK (R200). -/
def writeStream (s : State) : Result :=
  thenBusy (execHdrWrite s) fun s => thenBusy (execPayloadWrite s) fun s => .next (finishCompress s)

theorem writeStream_run (hbusy : s.status.state = .busy) (hout : s.outLen = 0)
    (hh : h = headerBytes s.pad.toNat s.entryCnt.toNat (codeEntries s.int.ct))
    (hfit : (h ++ s.int.pay).length ≤ s.params.outCap.toNat) :
    writeStream s = .next (finishCompress (streamWritten h s)) := by
  have hcap := s.params.outCap.isLt
  rw [List.length_append] at hfit
  have hlen : (BitVec.ofNat 32 h.length).toNat = h.length := Nat.mod_eq_of_lt (by omega)
  have hpay : execPayloadWrite (hdrWritten h s) = .next (streamWritten h s) := by
    rw [execPayloadWrite, outAppend_ok (by simp only [hdrWritten, hlen]; omega)]
    simp only [settle_ok, hdrWritten, hlen, streamWritten, Memory.writeBytes_append, List.length_append, Nat.zero_add]
  rw [writeStream, thenBusy_run (execHdrWrite_run hout hh (by omega)) hbusy, thenBusy_run hpay hbusy]

theorem writeStream_full (hbusy : s.status.state = .busy) (hout : s.outLen = 0)
    (hh : h = headerBytes s.pad.toNat s.entryCnt.toNat (codeEntries s.int.ct))
    (hfull : s.params.outCap.toNat < (h ++ s.int.pay).length) :
    ∃ u, writeStream s = .next (raise .outFull 0 u) := by
  have hcap := s.params.outCap.isLt
  rw [List.length_append] at hfull
  rcases Nat.lt_or_ge s.params.outCap.toNat h.length with hlt | hge
  · exact ⟨s, by rw [writeStream, execHdrWrite_full hout hh hlt, thenBusy_raise]⟩
  · have hlen : (BitVec.ofNat 32 h.length).toNat = h.length := Nat.mod_eq_of_lt (by omega)
    refine ⟨hdrWritten h s, ?_⟩
    rw [writeStream, thenBusy_run (execHdrWrite_run hout hh hge) hbusy, execPayloadWrite,
      outAppend_full (by simp only [hdrWritten, hlen]; omega), settle_raised, thenBusy_raise]

end

/-! ## COMPRESS after its prologue -/

/-- The state in which COMPRESS of a non-empty input comes to HDR_WRITE. -/
def packedState (c : Encoding) (pad : BitVec 3) (m : Internals) (s : State) : State :=
  { s with phase := 0x40#8, pad := pad, entryCnt := c.cnt, int := m }

/-- COMPRESS of a non-empty input comes to HDR_WRITE with the table of the input's encoding and its payload. -/
theorem compressBody_eq {s : State} {c : Encoding} (hne : s.inLen ≠ 0) (hcap : s.inLen ≤ s.params.inCap)
    (hbusy : s.status.state = .busy) (hc : encodingOf (inputBytes s) = .ok c) :
    ∃ pad m, compressBody s = writeStream (packedState c pad m s) ∧
      pad.toNat = padCount (codeBits c.ct (inputBytes s)).length ∧
      IsPayload m.pay (codeBits c.ct (inputBytes s)) ∧
      m.bitcnt = BitVec.ofNat 64 (codeBits c.ct (inputBytes s)).length ∧ m.ct = c.ct ∧ m.degenSig = c.degen := by
  have hin : inputBytes s ≠ [] := List.ne_nil_of_length_pos (by
    rw [inputBytes, length_memRead]
    exact Nat.pos_of_ne_zero fun h => hne (BitVec.eq_of_toNat_eq h))
  have hlt := length_inputBytes_lt s
  have hhuff := encodingOf_ok hin hc
  obtain ⟨_, _, hrun, -, -, -, hiff⟩ := huffmanTableIsACode (inputBytes s) hin hlt
  obtain ⟨hct, -⟩ := Prod.mk.inj (Except.ok.inj (hhuff.symm.trans hrun))
  obtain ⟨m, hm⟩ : ∃ m, m = { s.int with freq := frequencies (inputBytes s), icur := s.inLen } := ⟨_, rfl⟩
  obtain ⟨k, t, hk, hgencodes, hrun', -⟩ := build_huffmanTable (m := m) hin hlt (hm ▸ rfl)
  have htab := Except.ok.inj (hhuff.symm.trans hrun')
  simp only [Prod.mk.injEq] at htab
  obtain ⟨hct', hcnt, hdg⟩ := htab
  rw [← hct', ← hcnt] at hgencodes
  obtain ⟨g, hg⟩ : ∃ g : State, g = { s with
    phase := 0x30#8, entryCnt := c.cnt, int := { k with ct := c.ct, stk := [] } } := ⟨_, rfl⟩
  have hing : inputBytes g = inputBytes s := hg ▸ memRead_congr fun _ _ => rfl
  have hgct : g.int.ct = c.ct := by rw [hg]
  obtain ⟨u, hpack, hpay, hpad, hbit, hu⟩ := execPack_run (s := g) (hg ▸ hcap)
    (fun b hb => by rw [hgct, hct]; exact (hiff b).mpr (hing ▸ hb)) (by rw [hgct, hing])
  have hu' : u = packedState c u.pad u.int s := by rw [hu, hg]; rfl
  have hfreq : execFreq s = .next { s with phase := 0x10#8, int := m } := hm ▸ execFreq_run hcap
  have hbuild : execBuild { s with phase := 0x10#8, int := m } = .next { s with phase := 0x20#8, int := k } :=
    onInternals_ok hk
  have hgen : execGencodes { s with phase := 0x20#8, int := k } = .next g := hg ▸ execGencodes_run hgencodes
  refine ⟨u.pad, u.int, ?_, hpad, hpay, hbit, by rw [hu, hg], by rw [hu, hg, hdg]⟩
  rw [compressBody, if_neg hne, thenBusy_run hfreq hbusy, thenBusy_run hbuild hbusy,
    thenBusy_run hgen (hg ▸ hbusy), thenBusy_run hpack (hu' ▸ hbusy), ← hu']
  rfl

/-! ## COMPRESS -/

theorem raise_failed (sub : ErrSub) (info : Word) (s : State) : Failed (raise sub info s) sub info :=
  ⟨rfl, rfl, rfl, rfl, rfl, rfl⟩

section
variable {s : State} {c : Encoding}

theorem inputBytes_prologue (s : State) : inputBytes (prologue s) = inputBytes s := memRead_congr fun _ _ => rfl

theorem inputBytes_eq_nil : inputBytes s = [] ↔ s.inLen = 0 := by
  rw [← List.length_eq_zero_iff, inputBytes, length_memRead, ← BitVec.toNat_inj]
  rfl

/-- The header of the empty input, from the registers that R201 writes. -/
theorem header_emptyInput (s : State) : Encoding.empty.header [] =
    headerBytes (emptyInput s).pad.toNat (emptyInput s).entryCnt.toNat (codeEntries (emptyInput s).int.ct) := rfl

/-- COMPRESS of the empty input is HDR_WRITE of the empty table (R201). -/
theorem execCompress_empty (hlen : s.inLen = 0) :
    execCompress s = thenBusy (execHdrWrite (emptyInput (prologue s))) fun s => .next (finishEmpty s) := by
  rw [execCompress, withPrologue_body (hlen ▸ zero_le_word _), compressBody,
    if_pos (show (prologue s).inLen = 0 from hlen)]

/-- Before its epilogue COMPRESS of an input that fits has written the header and the payload. -/
theorem execCompress_written (hcap : s.inLen ≤ s.params.inCap) (hc : encodingOf (inputBytes s) = .ok c)
    (hfit : (c.header (inputBytes s)).length + c.payloadLength (inputBytes s) ≤ s.params.outCap.toNat) :
    ∃ pay w, execCompress s = .next (epilogue w) ∧ Written c (inputBytes s) pay w ∧ w.params = s.params ∧
      w.hostQueue = s.hostQueue := by
  have hlt := s.params.outCap.isLt
  by_cases hlen : s.inLen = 0
  · have hnil := inputBytes_eq_nil.mpr hlen
    rw [hnil] at hc hfit ⊢
    cases encodingOf_nil.symm.trans hc
    have hhdr := execHdrWrite_run (s := emptyInput (prologue s)) rfl (header_emptyInput (prologue s))
      (Nat.le_of_add_right_le hfit)
    have hsize : (BitVec.ofNat 32 (Encoding.empty.header []).length).toNat = (Encoding.empty.header []).length := by
      rw [Encoding.header_empty]
      rfl
    refine ⟨[], (hdrWritten (Encoding.empty.header []) (emptyInput (prologue s))).setEmpty true, ?_,
      ⟨rfl, rfl, rfl, rfl, rfl, rfl, hsize, ?_, ⟨s.outMem, ?_⟩, ?_, rfl, absurd rfl⟩, rfl, rfl⟩
    · rw [execCompress_empty hlen, thenBusy_run hhdr rfl, finishEmpty]
    · rw [List.append_nil]
      exact hsize
    · rw [List.append_nil]
      rfl
    · exact ⟨rfl, fun _ hk => absurd hk (Nat.not_lt_zero _)⟩
  · have hnil := mt inputBytes_eq_nil.mp hlen
    obtain ⟨pad, m, hrun, hpad, hpay, hbit, hct, hdg⟩ := compressBody_eq (s := prologue s) hlen hcap rfl
      ((inputBytes_prologue s).symm ▸ hc)
    rw [inputBytes_prologue] at hpad hpay hbit
    have hsize : (c.header (inputBytes s) ++ m.pay).length ≤ s.params.outCap.toNat := by
      rw [List.length_append, hpay.1]
      exact hfit
    have hwrite := writeStream_run (s := packedState c pad m (prologue s)) (h := c.header (inputBytes s)) rfl rfl
      (by simp only [packedState, hpad, hct]; rfl) hsize
    rw [List.length_append] at hsize
    refine ⟨m.pay, (streamWritten (c.header (inputBytes s)) (packedState c pad m (prologue s))).setDegen m.degenSig, ?_,
      ⟨?_, rfl, rfl, rfl, hpad, rfl, Nat.mod_eq_of_lt (by omega), Nat.mod_eq_of_lt ?_, ⟨s.outMem, rfl⟩, hpay, hct,
        fun _ => hbit⟩, rfl, rfl⟩
    · rw [execCompress, withPrologue_body hcap, hrun, hwrite]
      rfl
    · rw [hdg, decide_eq_false hnil]
      rfl
    · rw [List.length_append]
      exact hsize.trans_lt hlt

/-- COMPRESS of an input whose header and payload fit OUT succeeds. -/
theorem execCompress_run (hcap : s.inLen ≤ s.params.inCap) (hc : encodingOf (inputBytes s) = .ok c)
    (hfit : (c.header (inputBytes s)).length + c.payloadLength (inputBytes s) ≤ s.params.outCap.toNat) :
    ∃ t, execCompress s = .next t ∧ Compressed c (inputBytes s) t ∧ t.params = s.params ∧
      t.hostQueue = s.hostQueue := by
  obtain ⟨pay, w, hrun, hw, hparams, hqueue⟩ := execCompress_written hcap hc hfit
  exact ⟨_, hrun, hw.compressed, hparams, hqueue⟩

/-- COMPRESS of an input whose header and payload do not fit OUT ends in `IOError(OUT_FULL)`. -/
theorem execCompress_full (hcap : s.inLen ≤ s.params.inCap) (hc : encodingOf (inputBytes s) = .ok c)
    (hfull : s.params.outCap.toNat < (c.header (inputBytes s)).length + c.payloadLength (inputBytes s)) :
    ∃ t, execCompress s = .next t ∧ Failed t .outFull 0 := by
  by_cases hlen : s.inLen = 0
  · rw [inputBytes_eq_nil.mpr hlen] at hc hfull
    cases encodingOf_nil.symm.trans hc
    refine ⟨_, ?_, raise_failed _ _ (emptyInput (prologue s))⟩
    rw [execCompress_empty hlen, execHdrWrite_full rfl (header_emptyInput (prologue s)) hfull, thenBusy_raise]
  · obtain ⟨pad, m, hrun, hpad, hpay, -, hct, -⟩ := compressBody_eq (s := prologue s) hlen hcap rfl
      ((inputBytes_prologue s).symm ▸ hc)
    rw [inputBytes_prologue] at hpad hpay
    obtain ⟨u, hu⟩ := writeStream_full (s := packedState c pad m (prologue s)) (h := c.header (inputBytes s)) rfl rfl
      (by simp only [packedState, hpad, hct]; rfl) (by rw [List.length_append, packedState, hpay.1]; exact hfull)
    exact ⟨_, by rw [execCompress, withPrologue_body hcap, hrun, hu], raise_failed _ _ u⟩

end

/-- Settles O48: with `OUT_CAP >= 8` the header of 8 zero bytes fits. -/
theorem compressEmptyInput : Obligations.CompressEmptyInput := by
  intro s hlen
  have hcap : s.inLen ≤ s.params.inCap := hlen ▸ zero_le_word _
  have hnil := inputBytes_eq_nil.mpr hlen
  have hc : encodingOf (inputBytes s) = .ok .empty := by rw [hnil, encodingOf_nil]
  have hsize : (Encoding.empty.header (inputBytes s)).length + Encoding.empty.payloadLength (inputBytes s) = 8 := by
    rw [hnil, Encoding.header_empty, Encoding.payloadLength_empty]
    rfl
  refine ⟨fun h8 => ?_, fun h8 => execCompress_full hcap hc (hsize ▸ h8)⟩
  obtain ⟨t, hrun, ht, -⟩ := execCompress_run hcap hc (hsize ▸ h8)
  have hheader := ht.header
  have hhdr := ht.hdrLen
  have hout := ht.outLen
  have hstatus := ht.status
  have hpad := ht.pad
  rw [hsize] at hout
  rw [hnil, Encoding.header_empty, List.length_replicate] at hheader hhdr
  rw [hnil] at hstatus hpad
  exact ⟨t, hrun, hstatus, congrArg Status.word hstatus, ht.err, ht.errSub, ht.errInfo, BitVec.eq_of_toNat_eq hout,
    BitVec.eq_of_toNat_eq hhdr, BitVec.eq_of_toNat_eq hpad, ht.entryCnt, ht.phase, hheader⟩

end Sys2Proof
end

section
/-! PROOFS. The size of COMPRESS's result (R205), from its result registers and the lengths of the encoding. -/

namespace Sys2Proof
open Machine

/-- A COMPRESS that ends with DONE has written the header and the payload of its input's encoding. -/
theorem compressed_of_done {s t : State} (h : exec .compress s = .next t) (hdone : t.status.state = .done) :
    ∃ c, encodingOf (inputBytes s) = .ok c ∧ Compressed c (inputBytes s) t := by
  obtain ⟨c, hc⟩ := encodingOf_run (length_inputBytes_lt s)
  change execCompress s = .next t at h
  by_cases hcap : s.params.inCap < s.inLen
  · rw [execCompress, withPrologue_inRange hcap] at h
    cases h
    cases hdone
  have hcap := BitVec.not_lt.mp hcap
  rcases Nat.lt_or_ge s.params.outCap.toNat
    ((c.header (inputBytes s)).length + c.payloadLength (inputBytes s)) with hfull | hfit
  · obtain ⟨u, hrun, hfailed⟩ := execCompress_full hcap hc hfull
    cases hrun.symm.trans h
    rw [hfailed.status] at hdone
    cases hdone
  · obtain ⟨u, hrun, hu, -⟩ := execCompress_run hcap hc hfit
    cases hrun.symm.trans h
    exact ⟨c, hc, hu⟩

/-- The header and the payload of an input take at most 34183 bytes more than the input. -/
theorem length_encoding_le {bs : List Byte} {c : Encoding} (hlt : bs.length < 2 ^ 32) (hc : encodingOf bs = .ok c) :
    (c.header bs).length + c.payloadLength bs ≤ bs.length + 34183 := by
  by_cases hne : bs = []
  · subst hne
    cases encodingOf_nil.symm.trans hc
    rw [Encoding.header_empty, Encoding.payloadLength_empty]
    decide
  · have hhuff := encodingOf_ok hne hc
    have hheader := (length_headerBytes_huffman hne hlt hhuff (padCount (codeBits c.ct bs).length)).2
    have hbits := length_codeBits_le_eight hne hlt hhuff
    rw [Encoding.header, Encoding.payloadLength]
    omega

/-- Settles O55: `HDR_LEN` and `BITCNT` are the lengths of the header and of the code bits, which
`length_headerBytes_huffman` and `length_codeBits_le_eight` bound. -/
theorem compressedSizeIsBounded : Obligations.CompressedSizeIsBounded := by
  refine ⟨fun s t hlen h hdone => ?_, fun s hcap hout => ?_⟩
  · obtain ⟨c, hc, ht⟩ := compressed_of_done h hdone
    have hne := mt inputBytes_eq_nil.mp hlen
    have hlt := length_inputBytes_lt s
    have hhuff := encodingOf_ok hne hc
    obtain ⟨hsize, hmax⟩ := length_headerBytes_huffman hne hlt hhuff (padCount (codeBits c.ct (inputBytes s)).length)
    have hbits := length_codeBits_le_eight hne hlt hhuff
    have hin : (inputBytes s).length = s.inLen.toNat := length_memRead ..
    have hcnt : t.int.bitcnt.toNat = (codeBits c.ct (inputBytes s)).length := by
      rw [ht.bitcnt hne, BitVec.toNat_ofNat, Nat.mod_eq_of_lt (by omega)]
    have hout := ht.outLen
    have hhdr := ht.hdrLen
    rw [Encoding.payloadLength, ← hcnt, ← hhdr] at hout
    rw [Encoding.header] at hhdr
    rw [ht.entryCnt, ht.ct, hcnt]
    omega
  · obtain ⟨c, hc⟩ := encodingOf_run (length_inputBytes_lt s)
    have hle := length_encoding_le (length_inputBytes_lt s) hc
    rw [show (inputBytes s).length = s.inLen.toNat from length_memRead ..] at hle
    obtain ⟨t, hrun, ht, -⟩ := execCompress_run hcap hc (hle.trans hout)
    exact ⟨t, hrun, by rw [ht.status]⟩

end Sys2Proof
end

section
/-! PROOFS. The host's steps while no command runs (R94, R203, R252): the next action is taken off the host's list. -/

namespace Sys2Proof
open Machine

/-- While no command runs, the step is the host's next action (R252). -/
theorem step_host {s : State} {x : HostAction} {rest : List HostAction} (hidle : s.status.state ≠ .busy)
    (hq : s.hostQueue = x :: rest) : step s = hostStep x { s with hostQueue := rest } := by
  rw [step, hq]
  split
  · rename_i rest' he
    obtain ⟨rfl, rfl⟩ := List.cons.inj he
    rfl
  · rw [if_neg hidle]

/-- The values of format CMD that are no command (R81). -/
theorem decode_cmd_illegal {w : Byte} (h1 : w ≠ 0x01#8) (h2 : w ≠ 0x02#8) :
    decode .cmd w = .error (.badOpcode w) := by
  simp [decode, cmdRows, List.lookup, beq_eq_false_iff_ne.mpr h1, beq_eq_false_iff_ne.mpr h2]

/-- Settles O5: the value decodes to no command, so the write is `illegalCommand`. -/
theorem illegalCommandIsReported : Obligations.IllegalCommandIsReported := by
  intro s v rest hidle hq h1 h2
  refine ⟨illegalCommand (commandByte v) { s with hostQueue := rest }, ?_, raise_failed _ _ _, rfl, rfl, rfl⟩
  rw [step_host hidle hq, hostStep, writeCommand, commandByte, decode_cmd_illegal h1 h2]

end Sys2Proof
end

section
/-! PROOFS. UNPACK of the codes of a message (R182 to R189): a code is a path of transitions without a match and one
with a match, so the scan emits the message byte by byte. -/

namespace Sys2Proof
open Machine

/-! ## Payload bits -/

/-- The payload holds the bits from bit `i` on (R183). -/
def BitsAt (s : State) (i : Nat) (bits : Code) : Prop := ∀ k x, bits[k]? = some x → bitAt s (i + k) = x

section
variable {s t : State} {i : Nat} {xs ys : Code}

theorem BitsAt.append (h : BitsAt s i (xs ++ ys)) : BitsAt s i xs ∧ BitsAt s (i + xs.length) ys := by
  refine ⟨fun k x hx => h k x (getElem?_append_of_some hx), fun k x hx => ?_⟩
  rw [Nat.add_assoc]
  exact h _ x (by rw [List.getElem?_append_right (Nat.le_add_right _ _), Nat.add_sub_cancel_left, hx])

theorem BitsAt.cons {x : Bool} (h : BitsAt s i (x :: xs)) : bitAt s i = x ∧ BitsAt s (i + 1) xs :=
  ⟨h 0 x rfl, (BitsAt.append (xs := [x]) h).2⟩

theorem BitsAt.congr (h : BitsAt s i xs) (ht : ∀ k, bitAt t k = bitAt s k) : BitsAt t i xs :=
  fun k x hx => (ht _).trans (h k x hx)

/-- The bits that the specification reads off IN are those of the payload. -/
theorem bitsAt_of_inputBits (h : inputBits s s.hdrLen.toNat xs.length = xs) : BitsAt s 0 xs := by
  intro k x hx
  obtain ⟨hk, rfl⟩ := List.getElem?_eq_some_iff.mp hx
  have hbit := List.getElem_of_eq h (i := k) (by rwa [length_inputBits])
  rw [← hbit, Nat.zero_add]
  simp only [inputBits, List.getElem_map, List.getElem_range, bitAt]

end

/-! ## The scan -/

theorem scan_add (m n : Nat) (s : State) : scan (m + n) s = scan m s >>= scan n := by
  induction m generalizing s with
  | zero => rw [Nat.zero_add]; rfl
  | succ m ih =>
    rw [Nat.add_right_comm, scan, scan]
    cases decodeBit s with
    | error e => rfl
    | ok u => exact ih u

/-- What the scan of `n` bits has done: the bits that wait in ACC, and the bytes that it has appended to OUT. -/
structure Scanned (n : Nat) (acc : Code) (out : List Byte) (s t : State) : Prop where
  run : scan n s = .ok t
  acc : t.int.acc = acc
  bitcur : t.int.bitcur.toNat = s.int.bitcur.toNat + n
  outMem : t.outMem = s.outMem.writeBytes s.outLen.toNat out
  outLen : t.outLen.toNat = s.outLen.toNat + out.length

namespace Scanned
variable {m n : Nat} {acc acc' : Code} {out out' : List Byte} {s t u : State}

theorem zero (s : State) : Scanned 0 s.int.acc [] s s := ⟨rfl, rfl, rfl, rfl, rfl⟩

theorem trans (h : Scanned m acc out s t) (h' : Scanned n acc' out' t u) :
    Scanned (m + n) acc' (out ++ out') s u where
  run := by rw [scan_add, ok_bind h.run, h'.run]
  acc := h'.acc
  bitcur := by rw [h'.bitcur, h.bitcur, Nat.add_assoc]
  outMem := by rw [h'.outMem, h.outMem, h.outLen, Memory.writeBytes_append]
  outLen := by rw [h'.outLen, h.outLen, List.length_append, Nat.add_assoc]

theorem bitAt_eq (h : Scanned n acc out s t) (k : Nat) : bitAt t k = bitAt s k := by
  rw [scan_ok h.run]
  rfl

theorem rmap_eq (h : Scanned n acc out s t) : t.int.rmap = s.int.rmap := by rw [scan_ok h.run]

theorem params_eq (h : Scanned n acc out s t) : t.params = s.params := by rw [scan_ok h.run]

/-- What is left of the payload after the scan of its first bits. -/
theorem bitsAt_rest {xs ys : Code} (h : Scanned xs.length acc out s t)
    (hbits : BitsAt s s.int.bitcur.toNat (xs ++ ys)) : BitsAt t t.int.bitcur.toNat ys := by
  rw [h.bitcur]
  exact hbits.append.2.congr h.bitAt_eq

/-- A bit after which the accumulator is no code. -/
theorem goOn {x : Bool} (hbit : bitAt s s.int.bitcur.toNat = x) (hcur : s.int.bitcur.toNat + 1 < 2 ^ 64)
    (hmiss : s.int.rmap.lookup (s.int.acc ++ [x]) = none) (hlen : (s.int.acc ++ [x]).length < 255) :
    Scanned 1 (s.int.acc ++ [x]) [] s (afterBit (s.int.acc ++ [x]) s) where
  run := ok_bind (decodeBit_goOn (by rw [← hbit]; rfl) hmiss (Nat.ne_of_lt hlen)) _
  acc := rfl
  bitcur := Nat.mod_eq_of_lt hcur
  outMem := rfl
  outLen := rfl

/-- A bit after which the accumulator is the code of a byte, with room in OUT. -/
theorem emit {x : Bool} {b : Byte} (hbit : bitAt s s.int.bitcur.toNat = x)
    (hcur : s.int.bitcur.toNat + 1 < 2 ^ 64) (hb : s.int.rmap.lookup (s.int.acc ++ [x]) = some b)
    (hroom : s.outLen.toNat < s.params.outCap.toNat) : ∃ t, Scanned 1 [] [b] s t := by
  have hcap := s.params.outCap.isLt
  have hrun := (decodeBit_match (s := s) (by rw [← hbit]; rfl) hb).trans
    (outAppend_ok (s := afterBit [] s) (v := [b]) (Nat.le_sub_of_add_le' hroom))
  exact ⟨_, ok_bind hrun _, rfl, Nat.mod_eq_of_lt hcur, rfl,
    Nat.mod_eq_of_lt (show s.outLen.toNat + 1 < 2 ^ 32 by omega)⟩

/-- Bits whose prefixes are no codes only fill the accumulator. -/
theorem of_misses {q : Code} (hbits : BitsAt s s.int.bitcur.toNat q) (hcur : s.int.bitcur.toNat + q.length < 2 ^ 64)
    (hlen : (s.int.acc ++ q).length < 255)
    (hmiss : ∀ r, r ≠ [] → r <+: q → s.int.rmap.lookup (s.int.acc ++ r) = none) :
    ∃ t, Scanned q.length (s.int.acc ++ q) [] s t := by
  induction q generalizing s with
  | nil => exact ⟨s, by simpa using zero s⟩
  | cons x q ih =>
    rw [List.length_append, List.length_cons] at hlen
    rw [List.length_cons] at hcur
    have hfirst := goOn hbits.cons.1 (by omega) (hmiss [x] (List.cons_ne_nil _ _) (by simp)) (by
      rw [List.length_append, List.length_singleton]
      omega)
    obtain ⟨t, ht⟩ := ih (s := afterBit (s.int.acc ++ [x]) s) (hfirst.bitsAt_rest (xs := [x]) hbits)
      (by rw [hfirst.bitcur]; omega) (by simp only [afterBit, List.length_append, List.length_singleton]; omega)
      fun r hr hq => by
        have := hmiss (x :: r) (List.cons_ne_nil _ _) (List.cons_prefix_cons.mpr ⟨rfl, hq⟩)
        rw [hfirst.rmap_eq, hfirst.acc, List.append_assoc]
        exact this
    have hall := hfirst.trans ht
    rw [hfirst.acc, List.append_assoc, Nat.add_comm 1] at hall
    exact ⟨t, hall⟩

end Scanned

section
variable {ct : ByteTable (Option Code)} {s : State}

/-- Bits that begin a code and are shorter are no code (R147). -/
theorem lookup_none_of_prefix {rmap : List (Code × Byte)} {b : Byte} {c r : Code} (hfree : PrefixFree ct)
    (hinv : Inverts rmap ct) (hc : byteGet ct b = some c) (hr : r <+: c) (hlen : r.length < c.length) :
    rmap.lookup r = none := by
  refine Option.eq_none_iff_forall_ne_some.mpr fun b' hb' => ?_
  have hr' := (hinv r b').mp hb'
  by_cases hbb : b' = b
  · subst hbb
    cases hr'.symm.trans hc
    exact Nat.lt_irrefl _ hlen
  · exact hfree b' b r c hbb hr' hc hr

/-- The scan of the code of a byte emits the byte (R183, R184). -/
theorem Scanned.of_code {b : Byte} {c : Code} (hfree : PrefixFree ct) (hlegal : LegalLengths ct)
    (hinv : Inverts s.int.rmap ct) (hc : byteGet ct b = some c) (hacc : s.int.acc = [])
    (hbits : BitsAt s s.int.bitcur.toNat c) (hcur : s.int.bitcur.toNat + c.length < 2 ^ 64)
    (hroom : s.outLen.toNat < s.params.outCap.toNat) : ∃ t, Scanned c.length [] [b] s t := by
  obtain ⟨h1, h255⟩ := hlegal b c hc
  obtain ⟨q, x, rfl⟩ := (List.eq_nil_or_concat' c).resolve_left (List.ne_nil_of_length_pos h1)
  rw [List.length_append, List.length_singleton] at h255 hcur ⊢
  obtain ⟨t, ht⟩ := Scanned.of_misses (s := s) hbits.append.1 (by omega)
    (by rw [hacc, List.nil_append]; omega) fun r _ hr => by
      rw [hacc, List.nil_append]
      refine lookup_none_of_prefix hfree hinv hc (hr.trans (List.prefix_append _ _)) ?_
      rw [List.length_append, List.length_singleton]
      exact Nat.lt_succ_of_le hr.length_le
  have hlast := (ht.bitsAt_rest hbits).cons.1
  rw [hacc, List.nil_append] at ht
  obtain ⟨u, hu⟩ := Scanned.emit (s := t) hlast (by rw [ht.bitcur]; omega)
    (by rw [ht.acc, ht.rmap_eq, hinv]; exact hc)
    (by rw [ht.outLen, ht.params_eq]; exact hroom)
  exact ⟨u, ht.trans hu⟩

/-- The scan of the codes of a message emits the message (R187, R189). -/
theorem Scanned.of_message {msg : List Byte} (hfree : PrefixFree ct) (hlegal : LegalLengths ct)
    (hinv : Inverts s.int.rmap ct) (hcov : Covers ct msg) (hacc : s.int.acc = [])
    (hbits : BitsAt s s.int.bitcur.toNat (codeBits ct msg))
    (hcur : s.int.bitcur.toNat + (codeBits ct msg).length < 2 ^ 64)
    (hroom : s.outLen.toNat + msg.length ≤ s.params.outCap.toNat) :
    ∃ t, Scanned (codeBits ct msg).length [] msg s t := by
  induction msg generalizing s with
  | nil => exact ⟨s, hacc ▸ Scanned.zero s⟩
  | cons b msg ih =>
    obtain ⟨c, hc⟩ := Option.isSome_iff_exists.mp (hcov b List.mem_cons_self)
    rw [codeBits_cons hc] at hbits hcur ⊢
    rw [List.length_append] at hcur ⊢
    rw [List.length_cons] at hroom
    obtain ⟨t, ht⟩ := Scanned.of_code hfree hlegal hinv hc hacc hbits.append.1 (by omega) (by omega)
    obtain ⟨u, hu⟩ := ih (s := t) (ht.rmap_eq ▸ hinv) (fun x hx => hcov x (List.mem_cons_of_mem b hx)) ht.acc
      (ht.bitsAt_rest hbits) (by rw [ht.bitcur]; omega) (by rw [ht.outLen, ht.params_eq, List.length_singleton]; omega)
    exact ⟨u, ht.trans hu⟩

/-! ## UNPACK -/

/-- UNPACK of a payload whose true bits are the codes of a message appends the message (R182, R187). -/
theorem execUnpack_run {msg : List Byte} (hcap : s.inLen ≤ s.params.inCap) (hhdr : s.hdrLen ≤ s.inLen)
    (hfree : PrefixFree ct) (hlegal : LegalLengths ct) (hinv : Inverts s.int.rmap ct) (hcov : Covers ct msg)
    (hsize : (codeBits ct msg).length + s.pad.toNat = 8 * (s.inLen.toNat - s.hdrLen.toNat))
    (hbits : inputBits s s.hdrLen.toNat (codeBits ct msg).length = codeBits ct msg)
    (hroom : s.outLen.toNat + msg.length ≤ s.params.outCap.toNat) :
    ∃ t, execUnpack s = .next t ∧ t.outMem = s.outMem.writeBytes s.outLen.toNat msg ∧
      t.outLen.toNat = s.outLen.toNat + msg.length ∧
      t = { s with
        phase := 0x71#8, outMem := t.outMem, outLen := t.outLen
        int := { s.int with trueBits := t.int.trueBits, acc := t.int.acc, bitcur := t.int.bitcur } } := by
  have hlt := s.inLen.isLt
  have htrue : (unpackStart s).int.trueBits.toNat - (unpackStart s).int.bitcur.toNat = (codeBits ct msg).length := by
    rw [toNat_trueBits_unpackStart]
    exact (Nat.sub_zero _).trans (by omega)
  obtain ⟨t, ht⟩ := Scanned.of_message (s := unpackStart s) hfree hlegal hinv hcov rfl
    ((bitsAt_of_inputBits hbits).congr fun _ => rfl) (show 0 + _ < _ by omega) hroom
  have hrun : execUnpack s = .next { t with phase := 0x71#8 } := by
    rw [execUnpack_eq, if_neg (BitVec.not_lt.mpr hcap), if_neg (BitVec.not_lt.mpr hhdr), if_neg (by omega),
      unpackFromLoop_eq, htrue, ok_bind ht.run, scanEnd_done ht.acc]
    rfl
  refine ⟨_, hrun, ht.outMem, ht.outLen, ?_⟩
  rw [scan_ok ht.run]
  rfl

end

end Sys2Proof
end

section
/-! PROOFS. The round trip (R204): DECOMPRESS of a legal stream, the host's LOAD and MOVE, and the stream that COMPRESS
leaves in OUT as the input of DECOMPRESS. -/

namespace Sys2Proof
open Machine

/-! ## DECOMPRESS of a legal stream (R189, R202) -/

theorem legalLengths_tableOf {es : List (Byte × Code)} (h : GoodEntries es) : LegalLengths (tableOf es) :=
  fun _ _ hp => h.2 _ ((byteGet_tableOf h.1).mp hp)

/-- What the host sees of a DECOMPRESS that has decoded a message (R202). -/
structure Decompressed (msg : List Byte) (t : State) : Prop where
  status : t.status = { state := .done, empty := decide (msg = []), degen := false }
  err : t.err = .none
  errSub : t.errSub = .none
  errInfo : t.errInfo = 0
  phase : t.phase = 0
  outLen : t.outLen.toNat = msg.length
  output : outRead t 0 msg.length = msg

/-- The state in which DECOMPRESS comes to UNPACK. -/
def tableRead (pad : BitVec 3) (cnt : BitVec 9) (hdrLen : Word) (m : Internals) (s : State) : State :=
  { s with phase := 0x70#8, pad := pad, entryCnt := cnt, hdrLen := hdrLen, int := m }

/-- DECOMPRESS of a legal header with a `PrefixFree` table comes to UNPACK with the registers that the header gives, and
the inverse of its table (R168, R181). -/
theorem execDecompress_table {s : State} {pad : Nat} {es : List (Byte × Code)} {h : List Byte}
    (hcap : s.inLen ≤ s.params.inCap) (hpad : pad ≤ 7) (hgood : GoodEntries es) (hfree : PrefixFree (tableOf es))
    (hh : h = headerBytes pad es.length es) (hlen : h.length ≤ s.inLen.toNat) (hread : memRead s 0 h.length = h) :
    ∃ p n l m, execDecompress s =
        thenBusy (execUnpack (tableRead p n l m (prologue s))) (fun s => .next (finishDecompress s)) ∧
      p.toNat = pad ∧ n.toNat = es.length ∧ l.toNat = h.length ∧ Inverts m.rmap (tableOf es) := by
  obtain ⟨u, (hu : execHdrRead (prologue s) = .next u), hupad, hucnt, huhdr, huct, -, huframe⟩ :=
    hdrReadRebuildsTheTable (prologue s) pad es h hcap hpad hgood hh hlen
      ((memRead_congr (s := s) (t := prologue s) fun _ _ => rfl).trans hread)
  obtain ⟨v, (hv : execRmapBuild u = .next v), hinv, hvframe⟩ := (rmapBuildInvertsTheTable u).1 (huct ▸ hfree)
  have hbusy : u.status.state = .busy := by rw [huframe]; rfl
  have htable : v = tableRead u.pad u.entryCnt u.hdrLen v.int (prologue s) := by rw [hvframe, huframe]; rfl
  refine ⟨u.pad, u.entryCnt, u.hdrLen, v.int, ?_, hupad, hucnt, huhdr, huct ▸ hinv⟩
  rw [execDecompress, withPrologue_body hcap, decompressBody, thenBusy_run hu hbusy, thenBusy_run hv (htable ▸ rfl),
    ← htable]

/-- DECOMPRESS of a legal header with a `PrefixFree` table, followed by the codes of a message, gives the message. -/
theorem execDecompress_run {s : State} {pad : Nat} {es : List (Byte × Code)} {msg h : List Byte} {bits : Code}
    (hcap : s.inLen ≤ s.params.inCap) (hpad : pad ≤ 7) (hgood : GoodEntries es) (hfree : PrefixFree (tableOf es))
    (hcov : Covers (tableOf es) msg) (hh : h = headerBytes pad es.length es) (hb : bits = codeBits (tableOf es) msg)
    (hlen : h.length ≤ s.inLen.toNat) (hread : memRead s 0 h.length = h)
    (hsize : bits.length + pad = 8 * (s.inLen.toNat - h.length)) (hbits : inputBits s h.length bits.length = bits)
    (hroom : msg.length ≤ s.params.outCap.toNat) :
    ∃ t, execDecompress s = .next t ∧ Decompressed msg t ∧
      t.pad.toNat = pad ∧ t.entryCnt.toNat = es.length ∧ t.hdrLen.toNat = h.length := by
  obtain ⟨p, n, l, m, hrun, hp, hn, hl, hinv⟩ := execDecompress_table hcap hpad hgood hfree hh hlen hread
  subst hb
  obtain ⟨w, hw, hmem, hwlen, hframe⟩ := execUnpack_run (s := tableRead p n l m (prologue s)) (msg := msg) hcap
    (BitVec.le_def.mpr (hl.trans_le hlen)) hfree (legalLengths_tableOf hgood) hinv hcov
    (by rw [tableRead, hp, hl]; exact hsize)
    (by rw [tableRead, hl]; exact hbits) (by rw [tableRead, prologue_outLen]; exact (Nat.zero_add _).trans_le hroom)
  have hwlen : w.outLen.toNat = msg.length := hwlen.trans (Nat.zero_add _)
  have hempty : (w.outLen == 0) = decide (msg = []) := by
    rw [Bool.eq_iff_iff, beq_iff_eq, decide_eq_true_iff, ← List.length_eq_zero_iff, ← hwlen, ← BitVec.toNat_inj]
    rfl
  have hread := outRead_epilogue (s := w.setEmpty (w.outLen == 0)) hmem hwlen
  have hbusy : w.status.state = .busy := by rw [hframe]; rfl
  refine ⟨finishDecompress w, by rw [hrun, thenBusy_run hw hbusy], ⟨?_, ?_, ?_, ?_, rfl, hwlen, hread⟩, ?_, ?_, ?_⟩
  · rw [finishDecompress, epilogue_status, setEmpty_status, hempty, hframe]
    rfl
  all_goals rw [hframe]
  · rfl
  · rfl
  · rfl
  · exact hp
  · exact hn
  · exact hl

/-! ## The host's script (R94) -/

section
variable {M : Host.Core} {s t : M.State}

/-- A run goes on after its first step. -/
theorem run_succ (h : M.step s = .next t) (k : Nat) : M.run (k + 1) s = M.run k t := by
  rw [Host.Core.run, h]

/-- A run goes on after its first steps. -/
theorem run_add {m : Nat} (h : M.run m s = .next t) (n : Nat) : M.run (m + n) s = M.run n t := by
  induction m generalizing s with
  | zero =>
    cases h
    rw [Nat.zero_add]
  | succ m ih =>
    rw [Nat.add_right_comm]
    cases hs : M.step s with
    | next u =>
      rw [run_succ hs] at h ⊢
      exact ih h
    | fault r =>
      rw [Host.Core.run, hs] at h
      cases h
    | refused r =>
      rw [Host.Core.run, hs] at h
      cases h

end

/-- A step of the machine, and then the rest of a run. -/
theorem run_step {s t : State} {k : Nat} {o : Result} (h : step s = .next t) (hk : core.run k t = o) :
    core.run (k + 1) s = o := (run_succ (M := core) h k).trans hk

/-- IN after bytes were written from an index on. -/
theorem memRead_of_writeBytes {s : State} {m : Memory} {a : Nat} {bs : List Byte}
    (h : s.inMem = m.writeBytes a bs) : memRead s a bs.length = bs := by
  refine List.ext_getElem (length_memRead ..) fun i h1 h2 => ?_
  rw [getElem_memRead]
  refine State.inByte_of_read ?_
  rw [h, Memory.read_writeBytes, if_pos (by omega), Nat.add_sub_cancel_left, List.getElem?_eq_getElem h2]

/-- The state after the host has written bytes into IN from an index on. -/
def bytesWritten (a : Nat) (bs : List Byte) (rest : List HostAction) (s : State) : State :=
  { s with inMem := s.inMem.writeBytes a bs, hostQueue := rest }

/-- One write of LOAD (R94). -/
theorem step_writeIn {s : State} {a : Nat} {b : Byte} {rest : List HostAction} (hidle : s.status.state ≠ .busy)
    (hfit : a < s.params.inCap.toNat) (hq : s.hostQueue = .writeIn (BitVec.ofNat 32 a) b :: rest) :
    step s = .next (bytesWritten a [b] rest s) := by
  have hcap := s.params.inCap.isLt
  have ha : (BitVec.ofNat 32 a).toNat = a := Nat.mod_eq_of_lt (by omega)
  have hlt : BitVec.ofNat 32 a < s.params.inCap := by
    rw [BitVec.lt_def, ha]
    exact hfit
  rw [step_host hidle hq, hostStep, hostWriteIn, if_pos hlt, ha]
  rfl

/-- The writes of LOAD put the bytes into IN (R94). -/
theorem run_loadBytes {s : State} {bs : List Byte} {a : Nat} {rest : List HostAction} (hidle : s.status.state ≠ .busy)
    (hfit : a + bs.length ≤ s.params.inCap.toNat) (hq : s.hostQueue = loadBytes a bs ++ rest) :
    core.run bs.length s = .next (bytesWritten a bs rest s) := by
  induction bs generalizing s a with
  | nil =>
    rw [← show s.hostQueue = rest from hq]
    rfl
  | cons b bs ih =>
    rw [List.length_cons] at hfit
    exact run_step (step_writeIn hidle (by omega) hq)
      (ih (s := bytesWritten a [b] (loadBytes (a + 1) bs ++ rest) s) hidle (by rw [Nat.add_right_comm]; exact hfit) rfl)

/-- The state after LOAD. -/
def loaded (bs : List Byte) (rest : List HostAction) (s : State) : State :=
  { s with inMem := s.inMem.writeBytes 0 bs, inLen := BitVec.ofNat 32 bs.length, hostQueue := rest }

/-- LOAD leaves the bytes in IN and their number in `IN_LEN` (R94). -/
theorem run_load {s : State} {bs : List Byte} {rest : List HostAction} (hidle : s.status.state ≠ .busy)
    (hfit : bs.length ≤ s.params.inCap.toNat) (hq : s.hostQueue = load bs ++ rest) :
    core.run (bs.length + 1) s = .next (loaded bs rest s) := by
  rw [load, List.append_assoc] at hq
  refine (run_add (M := core) (run_loadBytes hidle (by omega) hq) 1).trans (run_step ?_ rfl)
  exact step_host (s := bytesWritten 0 bs (.writeReg 5 (BitVec.ofNat 32 bs.length) :: rest) s) hidle rfl

theorem inputBytes_loaded {s : State} {bs : List Byte} (rest : List HostAction) (hlt : bs.length < 2 ^ 32) :
    inputBytes (loaded bs rest s) = bs := by
  rw [inputBytes, loaded, BitVec.toNat_ofNat, Nat.mod_eq_of_lt hlt]
  exact memRead_of_writeBytes rfl

/-- A write of `CMD` runs the command (R81, R199). -/
theorem step_command {s : State} {v : Word} {i : Instr} {rest : List HostAction} (hidle : s.status.state ≠ .busy)
    (hq : s.hostQueue = .writeReg 0 v :: rest) (hi : decode .cmd (commandByte v) = .ok i) :
    step s = exec i { s with hostQueue := rest } := by
  rw [step_host hidle hq, hostStep, writeCommand, hi]

/-- MOVE makes the result the input (R94). -/
theorem step_move {s : State} {rest : List HostAction} (hidle : s.status.state ≠ .busy)
    (hq : s.hostQueue = .move :: rest) (hfit : s.outLen ≤ s.params.inCap) :
    ∃ t, step s = .next t ∧ t.inLen = s.outLen ∧ memRead t 0 s.outLen.toNat = outRead s 0 s.outLen.toNat ∧
      t.params = s.params ∧ t.status = s.status ∧ t.hostQueue = rest := by
  have hout : outRead { s with hostQueue := rest } 0 s.outLen.toNat = outRead s 0 s.outLen.toNat :=
    List.ext_getElem (by simp) fun i _ _ => by rw [getElem_outRead, getElem_outRead]; rfl
  have hread (t : State) (ht : t.inMem = s.inMem.writeBytes 0 (outRead { s with hostQueue := rest } 0 s.outLen.toNat)) :
      memRead t 0 s.outLen.toNat = outRead s 0 s.outLen.toNat := by
    have h := memRead_of_writeBytes ht
    rwa [length_outRead, hout] at h
  have hrun : hostMove { s with hostQueue := rest } = _ := if_neg (BitVec.not_lt.mpr hfit)
  exact ⟨_, (step_host hidle hq).trans hrun, rfl, hread _ rfl, rfl, rfl, rfl⟩

/-! ## The stream of an encoding -/

/-- An encoding is a legal code table for its input, with the entry count that goes with it (R36, R147, R150). -/
structure Encoding.Decodable (c : Encoding) (bs : List Byte) : Prop where
  prefixFree : PrefixFree c.ct
  legal : LegalLengths c.ct
  covers : Covers c.ct bs
  count : (codeEntries c.ct).length = c.cnt.toNat

theorem encodingOf_decodable {bs : List Byte} {c : Encoding} (hlt : bs.length < 2 ^ 32) (h : encodingOf bs = .ok c) :
    c.Decodable bs := by
  by_cases hne : bs = []
  · subst hne
    cases encodingOf_nil.symm.trans h
    exact ⟨prefixFree_of_entries (by decide +kernel), legalLengths_of_entries (by decide +kernel),
      fun b hb => absurd hb (List.not_mem_nil), by decide +kernel⟩
  · have hhuff := encodingOf_ok hne h
    obtain ⟨ct, cnt, hrun, -, hfree, hlegal, hiff⟩ := huffmanTableIsACode bs hne hlt
    obtain ⟨rfl, -⟩ := Prod.mk.inj (Except.ok.inj (hhuff.symm.trans hrun))
    exact ⟨hfree, hlegal, fun b hb => (hiff b).mpr hb, length_codeEntries hne hlt hhuff⟩

/-- The entries of a table of legal lengths pass the checks of HDR_READ (R166). -/
theorem goodEntries_codeEntries {ct : ByteTable (Option Code)} (h : LegalLengths ct) : GoodEntries (codeEntries ct) :=
  ⟨List.pairwise_map.mpr ((pairwise_codeEntries ct).imp fun hlt => BitVec.ne_of_lt hlt),
    fun e he => h e.1 e.2 (mem_codeEntries.mp he)⟩

/-- The payload in IN holds the code bits. -/
theorem inputBits_of_isPayload {s : State} {a : Nat} {pay : List Byte} {bits : Code} (h : IsPayload pay bits)
    (hread : memRead s a pay.length = pay) : inputBits s a bits.length = bits := by
  obtain ⟨hlen, hbit⟩ := h
  refine List.ext_getElem (length_inputBits ..) fun k h1 h2 => ?_
  have hk : k / 8 < pay.length := by omega
  have hbyte : s.inByte (a + k / 8) = pay[k / 8] := by
    rw [← List.getElem_of_eq hread (by rwa [length_memRead]), getElem_memRead]
  have h := hbit k (by omega)
  rw [List.getD_eq_getElem _ _ hk, List.getD_eq_getElem _ _ h2] at h
  simp only [inputBits, List.getElem_map, List.getElem_range, hbyte, h]

/-- DECOMPRESS of the result of COMPRESS gives back the input (R204). -/
theorem execDecompress_compressed {c : Encoding} {bs : List Byte} {t m : State} (hc : c.Decodable bs)
    (ht : Compressed c bs t) (hlen : m.inLen = t.outLen)
    (hread : memRead m 0 t.outLen.toNat = outRead t 0 t.outLen.toNat)
    (hcap : m.inLen ≤ m.params.inCap) (hroom : bs.length ≤ m.params.outCap.toNat) :
    ∃ v, execDecompress m = .next v ∧ Decompressed bs v := by
  have hheader := ht.header
  have hpayload := ht.payload
  have hpaylen : c.payloadLength bs = ((codeBits c.ct bs).length + 7) / 8 := rfl
  obtain ⟨hpad7, hfull⟩ := padCount_spec (codeBits c.ct bs).length
  rw [ht.outLen, memRead_add, outRead_add, Nat.zero_add] at hread
  obtain ⟨hread1, hread2⟩ := List.append_inj hread (by rw [length_memRead, length_outRead])
  have hin : m.inLen.toNat = (c.header bs).length + c.payloadLength bs := by rw [hlen, ht.outLen]
  have htable := tableOf_codeEntries c.ct
  obtain ⟨v, hrun, hv, -⟩ := execDecompress_run (s := m) (msg := bs) (h := c.header bs) hcap hpad7
    (goodEntries_codeEntries hc.legal) (htable.symm ▸ hc.prefixFree) (htable.symm ▸ hc.covers)
    (by rw [hc.count]; rfl) (by rw [htable]) (by omega) (hread1.trans hheader) (by omega)
    (inputBits_of_isPayload hpayload (by rw [length_outRead]; exact hread2)) hroom
  exact ⟨v, hrun, hv⟩

/-- Settles O51: COMPRESS leaves a stream of the input's encoding (`execCompress_run`), MOVE makes it the input, and
DECOMPRESS decodes it (`execDecompress_compressed`). -/
theorem roundTripIdentity : Obligations.RoundTripIdentity := by
  intro s bs n hidle hq hin hout hn hnin hnout
  have hcap := s.params.inCap.isLt
  have hlt : bs.length < 2 ^ 32 := by omega
  obtain ⟨c, hc⟩ := encodingOf_run hlt
  cases hn.symm.trans (compressedLength_eq hc)
  have hlin := inputBytes_loaded (s := s) [.move, .writeReg 0 0x02#32] hlt
  have hlcap : (loaded bs [.move, .writeReg 0 0x02#32] s).inLen ≤ s.params.inCap := by
    rw [loaded, BitVec.le_def, BitVec.toNat_ofNat, Nat.mod_eq_of_lt hlt]
    exact hin
  obtain ⟨t, hrun, ht, htparams, htqueue⟩ := execCompress_run hlcap (hlin.symm ▸ hc) (by rw [hlin]; exact hnout)
  rw [hlin] at ht
  have hlidle : (loaded bs [.writeReg 0 0x01#32, .move, .writeReg 0 0x02#32] s).status.state ≠ .busy := hidle
  have hstep : step (loaded bs [.writeReg 0 0x01#32, .move, .writeReg 0 0x02#32] s) = .next t :=
    (step_command (i := .compress) hlidle rfl rfl).trans hrun
  have hcompress : core.run (bs.length + 2) s = .next t :=
    (run_add (M := core) (run_load hidle hin hq) 1).trans (run_step hstep rfl)
  have htidle : t.status.state ≠ .busy := by
    rw [ht.status]
    exact RunState.noConfusion
  have htfit : t.outLen ≤ t.params.inCap := by
    rw [BitVec.le_def, ht.outLen, htparams]
    exact hnin
  obtain ⟨m, hmove, hmin, hmread, hmparams, hmstatus, hmqueue⟩ := step_move htidle htqueue htfit
  obtain ⟨v, hv, hdone⟩ := execDecompress_compressed (m := { m with hostQueue := [] }) (encodingOf_decodable hlt hc) ht
    hmin ((memRead_congr (s := m) (t := { m with hostQueue := [] }) fun _ _ => rfl).trans hmread)
    (by rw [hmin, hmparams]; exact htfit) (by rw [hmparams, htparams]; exact hout)
  have hstep' : step m = .next v := (step_command (i := .decompress) (hmstatus ▸ htidle) hmqueue rfl).trans hv
  have hdecompress : core.run (bs.length + 4) s = .next v :=
    (run_add (M := core) hcompress 2).trans (run_step hmove (run_step hstep' rfl))
  exact ⟨t, v, hcompress, by rw [ht.status], ht.outLen, hdecompress, by rw [hdone.status], hdone.outLen, hdone.output⟩

end Sys2Proof
end

section
/-! PROOFS. A command is a function of its input (R38, R208): two states that agree on the input and the capacities get
the same host-visible result, whatever else they hold. For COMPRESS the result is that of the input's encoding; for
DECOMPRESS the two runs are followed side by side. -/

namespace Sys2Proof
open Machine

/-! ## The same result -/

/-- What the host sees of two finished commands is the same: the flags and the error registers, and after a success
the result registers and the bytes of OUT. -/
structure SameResult (t v : State) : Prop where
  status : t.status = v.status
  err : t.err = v.err
  errSub : t.errSub = v.errSub
  errInfo : t.errInfo = v.errInfo
  outLen : t.outLen = v.outLen
  phase : t.phase = v.phase
  pad : t.status.state = .done → t.pad = v.pad
  entryCnt : t.status.state = .done → t.entryCnt = v.entryCnt
  hdrLen : t.status.state = .done → t.hdrLen = v.hdrLen
  output : t.status.state = .done → ∀ a < t.outLen.toNat, t.outByte a = v.outByte a

/-- Two commands that raised the same error. -/
theorem Failed.sameResult {t v : State} {sub : ErrSub} {info : Word} (ht : Failed t sub info) (hv : Failed v sub info) :
    SameResult t v := by
  have hne : t.status.state ≠ .done := by
    rw [ht.status]
    exact RunState.noConfusion
  exact ⟨ht.status.trans hv.status.symm, ht.err.trans hv.err.symm, ht.errSub.trans hv.errSub.symm,
    ht.errInfo.trans hv.errInfo.symm, ht.outLen.trans hv.outLen.symm, ht.phase.trans hv.phase.symm,
    fun h => absurd h hne, fun h => absurd h hne, fun h => absurd h hne, fun h => absurd h hne⟩

/-! ## COMPRESS -/

/-- The bits of a payload determine its bytes, since the padding bits are zero (R151). -/
theorem IsPayload.unique {p q : List Byte} {bits : Code} (hp : IsPayload p bits) (hq : IsPayload q bits) : p = q := by
  obtain ⟨hplen, hpbit⟩ := hp
  obtain ⟨hqlen, hqbit⟩ := hq
  refine List.ext_getElem (hplen.trans hqlen.symm) fun i hi hi' => BitVec.eq_of_getLsbD_eq fun j hj => ?_
  have hbit := (hpbit (8 * i + (7 - j)) (by omega)).trans (hqbit (8 * i + (7 - j)) (by omega)).symm
  rw [show (8 * i + (7 - j)) / 8 = i by omega, show (8 * i + (7 - j)) % 8 = 7 - j by omega,
    List.getD_eq_getElem _ _ hi, List.getD_eq_getElem _ _ hi', payloadBit, payloadBit,
    show 7 - (7 - j) = j by omega] at hbit
  exact hbit

theorem Compressed.sameResult {c : Encoding} {bs : List Byte} {t v : State} (ht : Compressed c bs t)
    (hv : Compressed c bs v) : SameResult t v := by
  have hout : outRead t 0 t.outLen.toNat = outRead v 0 t.outLen.toNat := by
    rw [ht.outLen, outRead_add, outRead_add, Nat.zero_add, ht.header, hv.header, ht.payload.unique hv.payload]
  refine ⟨ht.status.trans hv.status.symm, ht.err.trans hv.err.symm, ht.errSub.trans hv.errSub.symm,
    ht.errInfo.trans hv.errInfo.symm, BitVec.eq_of_toNat_eq (ht.outLen.trans hv.outLen.symm),
    ht.phase.trans hv.phase.symm, fun _ => BitVec.eq_of_toNat_eq (ht.pad.trans hv.pad.symm),
    fun _ => ht.entryCnt.trans hv.entryCnt.symm, fun _ => BitVec.eq_of_toNat_eq (ht.hdrLen.trans hv.hdrLen.symm),
    fun _ a ha => ?_⟩
  have h := List.getElem_of_eq hout (i := a) (by rwa [length_outRead])
  rwa [getElem_outRead, getElem_outRead, Nat.zero_add] at h

/-- COMPRESS of the same input with the same capacities gives the same result (R208). -/
theorem execCompress_sameResult {s u : State} (hparams : s.params = u.params) (hlen : s.inLen = u.inLen)
    (hin : inputBytes s = inputBytes u) :
    ∃ t v, execCompress s = .next t ∧ execCompress u = .next v ∧ SameResult t v := by
  by_cases hcap : s.params.inCap < s.inLen
  · exact ⟨_, _, withPrologue_inRange hcap _, withPrologue_inRange (hparams ▸ hlen ▸ hcap) _,
      (raise_failed ..).sameResult (raise_failed ..)⟩
  have hcap := BitVec.not_lt.mp hcap
  have hcap' : u.inLen ≤ u.params.inCap := hparams ▸ hlen ▸ hcap
  obtain ⟨c, hc⟩ := encodingOf_run (length_inputBytes_lt s)
  rcases Nat.lt_or_ge s.params.outCap.toNat
    ((c.header (inputBytes s)).length + c.payloadLength (inputBytes s)) with hfull | hfit
  · obtain ⟨t, hrun, ht⟩ := execCompress_full hcap hc hfull
    obtain ⟨v, hrun', hv⟩ := execCompress_full hcap' (hin ▸ hc) (hin ▸ hparams ▸ hfull)
    exact ⟨t, v, hrun, hrun', ht.sameResult hv⟩
  · obtain ⟨t, hrun, ht, -⟩ := execCompress_run hcap hc hfit
    obtain ⟨v, hrun', hv, -⟩ := execCompress_run hcap' (hin ▸ hc) (hin ▸ hparams ▸ hfit)
    exact ⟨t, v, hrun, hrun', ht.sameResult (hin ▸ hv)⟩

/-! ## Two runs side by side -/

/-- Two computations answer states in a relation, or stop for the same reason. -/
inductive SameRun (R : State → State → Prop) : Run State → Run State → Prop
  | ok {t v : State} (h : R t v) : SameRun R (.ok t) (.ok v)
  | error (e : Stop) : SameRun R (.error e) (.error e)

/-- Two operations answer states in a relation, or the same error entry, or stop for the same reason. -/
inductive SameAnswer (R : State → State → Prop) : Result → Result → Prop
  | next {t v : State} (h : R t v) : SameAnswer R (.next t) (.next v)
  | raised (sub : ErrSub) (info : Word) (s u : State) :
    SameAnswer R (.next (raise sub info s)) (.next (raise sub info u))
  | fault (r : Fault) : SameAnswer R (.fault r) (.fault r)
  | refused (r : Refusal) : SameAnswer R (.refused r) (.refused r)

section
variable {R Q : State → State → Prop}

theorem SameRun.bind {x y : Run State} {f g : State → Run State} (h : SameRun R x y)
    (hf : ∀ t v, x = .ok t → R t v → SameRun Q (f t) (g v)) : SameRun Q (x >>= f) (y >>= g) := by
  cases h with
  | ok h => exact hf _ _ rfl h
  | error e => exact .error e

/-- The same value on both sides goes into two states. -/
theorem SameRun.map {α : Type} (x : Run α) {f g : α → State} (h : ∀ a, R (f a) (g a)) :
    SameRun R (x.map f) (x.map g) := by
  cases x with
  | ok a => exact .ok (h a)
  | error e => exact .error e

theorem SameRun.settle {x y : Run State} (h : SameRun R x y) (s u : State) :
    SameAnswer R (settle s x) (settle u y) := by
  cases h with
  | ok h => exact .next h
  | error e =>
    cases e with
    | raised sub info => exact .raised sub info s u
    | fault r => exact .fault r
    | refuse r => exact .refused r

theorem SameAnswer.thenBusy {o p : Result} {k l : State → Result} (h : SameAnswer R o p)
    (hbusy : ∀ t v, R t v → t.status.state = .busy ∧ v.status.state = .busy)
    (hk : ∀ t v, R t v → SameAnswer Q (k t) (l v)) : SameAnswer Q (thenBusy o k) (thenBusy p l) := by
  cases h with
  | next h =>
    obtain ⟨ht, hv⟩ := hbusy _ _ h
    rw [thenBusy_busy ht, thenBusy_busy hv]
    exact hk _ _ h
  | raised sub info s u =>
    rw [thenBusy_raise, thenBusy_raise]
    exact .raised sub info s u
  | fault r => exact .fault r
  | refused r => exact .refused r

/-- Two commands with the same answer: a next state of one is a next state of the other with the same result. -/
theorem SameAnswer.next_of_next {o p : Result} {t : State} (h : SameAnswer SameResult o p) (ho : o = .next t) :
    ∃ v, p = .next v ∧ SameResult t v := by
  cases h with
  | next h =>
    cases ho
    exact ⟨_, rfl, h⟩
  | raised sub info s u =>
    cases ho
    exact ⟨_, rfl, (raise_failed ..).sameResult (raise_failed ..)⟩
  | fault r => cases ho
  | refused r => cases ho

end

/-- Two states of a running command that agree on the capacities, the input, the host registers, and what the command
has written to OUT. -/
structure Alike (s u : State) : Prop where
  params : s.params = u.params
  running : s.status.state = .busy
  status : s.status = u.status
  err : s.err = u.err
  errSub : s.errSub = u.errSub
  errInfo : s.errInfo = u.errInfo
  inLen : s.inLen = u.inLen
  input : ∀ a < s.inLen.toNat, s.inByte a = u.inByte a
  outLen : s.outLen = u.outLen
  pad : s.pad = u.pad
  entryCnt : s.entryCnt = u.entryCnt
  hdrLen : s.hdrLen = u.hdrLen
  output : ∀ a < s.outLen.toNat, ∃ b, s.outMem.read a = some b ∧ u.outMem.read a = some b

namespace Alike
variable {s u : State}

theorem busy (h : Alike s u) : s.status.state = .busy ∧ u.status.state = .busy := ⟨h.running, h.status ▸ h.running⟩

/-- The internal registers and `PHASE` are not compared. -/
theorem internals (h : Alike s u) (p q : Byte) (m k : Internals) :
    Alike { s with phase := p, int := m } { u with phase := q, int := k } :=
  { h with }

/-- The prologue makes states alike that agree on the capacities and the input (R206). -/
theorem of_prologue (hparams : s.params = u.params) (hlen : s.inLen = u.inLen)
    (hin : ∀ a < s.inLen.toNat, s.inByte a = u.inByte a) : Alike (prologue s) (prologue u) where
  params := hparams
  running := rfl
  status := rfl
  err := rfl
  errSub := rfl
  errInfo := rfl
  inLen := hlen
  input := hin
  outLen := rfl
  pad := rfl
  entryCnt := rfl
  hdrLen := rfl
  output a ha := absurd ha (Nat.not_lt_zero a)

/-! ## HDR_READ -/

theorem memRead_congr (h : Alike s u) {a n : Nat} (hn : a + n ≤ s.inLen.toNat) : memRead s a n = memRead u a n :=
  Machine.memRead_congr fun i hi => h.input (a + i) (by omega)

theorem readInt_congr (h : Alike s u) (a : Nat) : readInt s a = readInt u a := by
  rcases Nat.lt_or_ge (s.inLen.toNat - a) 4 with hlt | hge
  · rw [readInt_short hlt, readInt_short (h.inLen ▸ hlt)]
  · rw [readInt_ok hge, readInt_ok (h.inLen ▸ hge), h.memRead_congr (by omega)]

theorem readCode_congr (h : Alike s u) {a n : Nat} (hn : a + n ≤ s.inLen.toNat) : readCode s a n = readCode u a n := by
  induction n generalizing a with
  | zero => rfl
  | succ n ih => rw [readCode, readCode, h.input a (by omega), ih (by omega)]

theorem readCodeField_congr (h : Alike s u) {a : Nat} (ha : a < s.inLen.toNat) (ct : ByteTable (Option Code))
    (n : Nat) : readCodeField s a ct n = readCodeField u a ct n := by
  by_cases hbad : n = 0 ∨ 255 < n
  · rw [readCodeField_badLen hbad, readCodeField_badLen hbad]
  · have h1 : 1 ≤ n := by omega
    have h255 : n ≤ 255 := by omega
    rcases Nat.lt_or_ge s.inLen.toNat (a + 5 + n) with hlt | hge
    · rw [readCodeField_truncated h1 h255 hlt, readCodeField_truncated h1 h255 (h.inLen ▸ hlt)]
    · rw [readCodeField_eq h1 h255 hge, readCodeField_eq h1 h255 (h.inLen ▸ hge),
        h.readCode_congr hge, h.input a ha]

theorem readEntry_congr (h : Alike s u) (a : Nat) (ct : ByteTable (Option Code)) :
    readEntry s a ct = readEntry u a ct := by
  rcases Nat.lt_or_ge s.inLen.toNat (a + 1) with hlt | hge
  · rw [readEntry_truncated hlt, readEntry_truncated (h.inLen ▸ hlt)]
  · have hfield : readCodeField s a ct = readCodeField u a ct := funext (h.readCodeField_congr hge ct)
    rw [readEntry_eq hge, readEntry_eq (h.inLen ▸ hge), h.input a hge, h.readInt_congr, hfield]

theorem readEntries_congr (h : Alike s u) (n a : Nat) (ct : ByteTable (Option Code)) :
    readEntries s n a ct = readEntries u n a ct := by
  induction n generalizing a ct with
  | zero => rfl
  | succ n ih =>
    rw [readEntries_succ, readEntries_succ, h.readEntry_congr]
    exact bind_congr fun r => ih r.1 r.2

theorem sameAnswer_execHdrRead (h : Alike s u) (hcap : s.inLen ≤ s.params.inCap) :
    SameAnswer (fun t v => Alike t v ∧ t.int.ct = v.int.ct) (execHdrRead s) (execHdrRead u) := by
  have hbody (pad : Nat) : SameRun (fun t v => Alike t v ∧ t.int.ct = v.int.ct) (hdrReadBody s pad)
      (hdrReadBody u pad) := by
    rw [hdrReadBody, hdrReadBody, h.readInt_congr]
    cases readInt u 4 with
    | error e => exact .error e
    | ok n =>
      show SameRun _ (if _ then _ else _) (if _ then _ else _)
      split_ifs
      · exact .error _
      · rw [h.readEntries_congr]
        exact .map _ fun r => ⟨{ h with pad := rfl, entryCnt := rfl, hdrLen := rfl }, rfl⟩
  rw [execHdrRead_eq hcap, execHdrRead_eq (h.inLen ▸ h.params ▸ hcap), h.readInt_congr]
  refine SameRun.settle ?_ s u
  cases readInt u 0 with
  | error e => exact .error e
  | ok pad =>
    show SameRun _ (if _ then _ else _) (if _ then _ else _)
    split_ifs
    · exact .error _
    · exact hbody pad

/-! ## RMAP_BUILD -/

theorem sameAnswer_execRmapBuild (h : Alike s u) (hct : s.int.ct = u.int.ct) :
    SameAnswer (fun t v => Alike t v ∧ t.int.rmap = v.int.rmap) (execRmapBuild s) (execRmapBuild u) := by
  have heq (s : State) : execRmapBuild s = settle s (((codeEntries s.int.ct).foldlM mapEntry []).map
      fun r => { s with phase := 0x70#8, int := { s.int with rmap := r } }) := by
    rw [execRmapBuild, onInternals]
    cases (codeEntries s.int.ct).foldlM mapEntry [] <;> rfl
  rw [heq, heq, hct]
  exact (SameRun.map _ fun r => ⟨h.internals _ _ _ _, rfl⟩).settle s u

end Alike

/-! ## UNPACK -/

/-- Two states in the scan that are alike, and agree on the scan registers (R41). -/
structure ScanAlike (s u : State) : Prop extends Alike s u where
  rmap : s.int.rmap = u.int.rmap
  trueBits : s.int.trueBits = u.int.trueBits
  acc : s.int.acc = u.int.acc
  bitcur : s.int.bitcur = u.int.bitcur

namespace ScanAlike
variable {s u : State}

theorem sameRun_outAppend (h : ScanAlike s u) (v : List Byte) : SameRun ScanAlike (outAppend s v) (outAppend u v) := by
  rcases outAppend_cases s v with ⟨hroom, hrun⟩ | ⟨hfull, hrun⟩
  · rw [hrun, outAppend_ok (s := u) (h.params ▸ h.outLen ▸ hroom), ← h.outLen]
    refine .ok { h with outLen := rfl, output := fun a ha => ?_ }
    have hlt : a < s.outLen.toNat + v.length := Nat.lt_of_lt_of_le ha (Nat.mod_le _ _)
    simp only [Memory.read_writeBytes]
    by_cases hold : a < s.outLen.toNat
    · rw [if_neg (by omega), if_neg (by omega)]
      exact h.output a hold
    · have hin : a - s.outLen.toNat < v.length := by omega
      rw [if_pos (by omega), if_pos (by omega)]
      exact ⟨_, List.getElem?_eq_getElem hin, List.getElem?_eq_getElem hin⟩
  · rw [hrun, outAppend_full (s := u) (h.params ▸ h.outLen ▸ hfull)]
    exact .error _

theorem scanAlike_afterBit (h : ScanAlike s u) (acc : Code) : ScanAlike (afterBit acc s) (afterBit acc u) where
  toAlike := h.toAlike.internals _ _ _ _
  rmap := h.rmap
  trueBits := h.trueBits
  acc := rfl
  bitcur := congrArg (· + 1) h.bitcur

/-- One transition reads one bit of the input (R183). -/
theorem sameRun_decodeBit (h : ScanAlike s u) (hbit : s.int.bitcur.toNat < 8 * (s.inLen.toNat - s.hdrLen.toNat)) :
    SameRun ScanAlike (decodeBit s) (decodeBit u) := by
  have hacc : s.int.acc ++ [nextBit s] = u.int.acc ++ [nextBit u] := by
    rw [nextBit, nextBit, h.input _ (by omega), h.acc, h.hdrLen, h.bitcur]
  cases hb : s.int.rmap.lookup (s.int.acc ++ [nextBit s]) with
  | some b =>
    rw [decodeBit_match rfl hb, decodeBit_match hacc (h.rmap ▸ hb)]
    exact (h.scanAlike_afterBit []).sameRun_outAppend [b]
  | none =>
    by_cases hlen : (s.int.acc ++ [nextBit s]).length = 255
    · rw [decodeBit_full rfl hb hlen, decodeBit_full hacc (h.rmap ▸ hb) hlen]
      exact .error _
    · rw [decodeBit_goOn rfl hb hlen, decodeBit_goOn hacc (h.rmap ▸ hb) hlen]
      exact .ok (h.scanAlike_afterBit _)

theorem sameRun_scan (h : ScanAlike s u) {n : Nat}
    (hbits : s.int.bitcur.toNat + n ≤ 8 * (s.inLen.toNat - s.hdrLen.toNat)) :
    SameRun ScanAlike (scan n s) (scan n u) := by
  induction n generalizing s u with
  | zero => exact .ok h
  | succ n ih =>
    refine (h.sameRun_decodeBit (by omega)).bind fun t v ht htv => ih htv ?_
    have hlt := s.inLen.isLt
    have hframe := decodeBit_ok ht
    have hcur : t.int.bitcur.toNat = s.int.bitcur.toNat + 1 := by
      rw [hframe]
      exact Nat.mod_eq_of_lt (show s.int.bitcur.toNat + 1 < 2 ^ 64 by omega)
    rw [hcur, show t.inLen = s.inLen by rw [hframe], show t.hdrLen = s.hdrLen by rw [hframe]]
    omega

theorem sameRun_scanEnd (h : ScanAlike s u) : SameRun Alike (scanEnd s) (scanEnd u) := by
  by_cases hacc : s.int.acc = []
  · rw [scanEnd_done hacc, scanEnd_done (h.acc ▸ hacc)]
    exact .ok (h.toAlike.internals _ _ _ _)
  · rw [scanEnd_left hacc, scanEnd_left (h.acc ▸ hacc), h.acc]
    exact .error _

end ScanAlike

theorem Alike.scanAlike_unpackStart {s u : State} (h : Alike s u) (hrmap : s.int.rmap = u.int.rmap) :
    ScanAlike (unpackStart s) (unpackStart u) where
  toAlike := h.internals _ _ _ _
  rmap := hrmap
  trueBits := by rw [unpackStart, unpackStart, h.inLen, h.hdrLen, h.pad]
  acc := rfl
  bitcur := rfl

theorem Alike.sameAnswer_execUnpack {s u : State} (h : Alike s u) (hrmap : s.int.rmap = u.int.rmap) :
    SameAnswer Alike (execUnpack s) (execUnpack u) := by
  have hstart := h.scanAlike_unpackStart hrmap
  have htrue := toNat_trueBits_unpackStart s
  have hloop : SameRun Alike (unpackFromLoop (unpackStart s)) (unpackFromLoop (unpackStart u)) := by
    rw [unpackFromLoop_eq, unpackFromLoop_eq, ← hstart.trueBits, ← hstart.bitcur]
    refine (hstart.sameRun_scan ?_).bind fun t v _ htv => htv.sameRun_scanEnd
    have hcur : (unpackStart s).int.bitcur.toNat = 0 := rfl
    show _ ≤ 8 * (s.inLen.toNat - s.hdrLen.toNat)
    omega
  rw [execUnpack_eq, execUnpack_eq, ← h.params, ← h.inLen, ← h.hdrLen, ← h.pad]
  split_ifs
  · exact .fault _
  · exact .refused _
  · exact .raised _ _ s u
  · exact hloop.settle s u

/-! ## DECOMPRESS -/

/-- The end of DECOMPRESS makes the host registers of alike states the result (R202, R207). -/
theorem Alike.sameResult_finishDecompress {s u : State} (h : Alike s u) :
    SameResult (finishDecompress s) (finishDecompress u) where
  status := by simp only [finishDecompress, epilogue_status, setEmpty_status, h.status, h.outLen]
  err := h.err
  errSub := h.errSub
  errInfo := h.errInfo
  outLen := h.outLen
  phase := rfl
  pad _ := h.pad
  entryCnt _ := h.entryCnt
  hdrLen _ := h.hdrLen
  output _ a ha := by
    obtain ⟨b, hs, hu⟩ := h.output a ha
    have hread {w : State} (hw : w.outMem.read a = some b) (hlt : a < w.outLen.toNat) :
        (finishDecompress w).outByte a = b :=
      State.outByte_of_read (by
        rw [finishDecompress, epilogue_outMem, Memory.read_below]
        exact (if_pos hlt).trans hw)
    rw [hread hs ha, hread hu (h.outLen ▸ ha)]

/-- DECOMPRESS of the same input with the same capacities gives the same answer. -/
theorem execDecompress_sameAnswer {s u : State} (hparams : s.params = u.params) (hlen : s.inLen = u.inLen)
    (hin : ∀ a < s.inLen.toNat, s.inByte a = u.inByte a) :
    SameAnswer SameResult (execDecompress s) (execDecompress u) := by
  have halike := Alike.of_prologue hparams hlen hin
  by_cases hcap : s.params.inCap < s.inLen
  · rw [execDecompress, execDecompress, withPrologue_inRange hcap, withPrologue_inRange (hparams ▸ hlen ▸ hcap)]
    exact .raised _ _ _ _
  have hcap := BitVec.not_lt.mp hcap
  rw [execDecompress, execDecompress, withPrologue_body hcap, withPrologue_body (hparams ▸ hlen ▸ hcap)]
  refine (halike.sameAnswer_execHdrRead hcap).thenBusy (fun t v h => h.1.busy) fun t v ⟨h, hct⟩ => ?_
  refine (h.sameAnswer_execRmapBuild hct).thenBusy (fun t v h => h.1.busy) fun t v ⟨h, hrmap⟩ => ?_
  exact (h.sameAnswer_execUnpack hrmap).thenBusy (fun t v h => h.busy) fun t v h => .next h.sameResult_finishDecompress

/-- Settles O52: COMPRESS by its encoding (`execCompress_sameResult`), DECOMPRESS by the two runs side by side
(`execDecompress_sameAnswer`). -/
theorem commandsAreIndependent : Obligations.CommandsAreIndependent := by
  intro i s u t hi hparams hlen hin hrun
  have hsame : ∃ v, exec i u = .next v ∧ SameResult t v := by
    rcases hi with rfl | rfl
    · have hbytes : inputBytes s = inputBytes u := by
        rw [inputBytes, inputBytes, ← hlen]
        exact (memRead_congr fun a ha => (hin _ (by omega)).symm).symm
      obtain ⟨t', v, hs, hu, h⟩ := execCompress_sameResult hparams hlen hbytes
      cases hs.symm.trans hrun
      exact ⟨v, hu, h⟩
    · exact (execDecompress_sameAnswer hparams hlen hin).next_of_next hrun
  obtain ⟨v, hv, h⟩ := hsame
  exact ⟨v, hv, h.status, h.err, h.errSub, h.errInfo, h.outLen, h.phase,
    fun hdone => ⟨h.pad hdone, h.entryCnt hdone, h.hdrLen hdone, h.output hdone⟩⟩

end Sys2Proof
end

section
/-! PROOFS. What is the host's stays as it is through every operation and every small step of a running command
(R61, R253). -/

namespace Sys2Proof
open Machine

/-! ## The host's part of the state -/

/-- The fields that no operation writes: the capacities, IN and `IN_LEN` (R61), the host's pending actions and the value
it last read. -/
structure HostPart where
  params : Params
  inMem : Memory
  inLen : Word
  inDraw : Nat
  hostQueue : List HostAction
  hostRead : Word

/-- The host's part of a state. -/
def hostPart (s : State) : HostPart where
  params := s.params
  inMem := s.inMem
  inLen := s.inLen
  inDraw := s.inDraw
  hostQueue := s.hostQueue
  hostRead := s.hostRead

/-- A next state that the outcome answers has the host's part of `s`. -/
def KeepsHost (s : State) (o : Result) : Prop := ∀ t, o = .next t → hostPart t = hostPart s

/-! ## Outcomes that keep the host's part -/

namespace KeepsHost

variable {s t : State} {o : Result}

theorem next (h : hostPart t = hostPart s) : KeepsHost s (.next t) := by
  rintro _ ⟨⟩
  exact h

theorem fault (r : Fault) : KeepsHost s (.fault r) := by
  intro t ht
  cases ht

theorem refused (r : Refusal) : KeepsHost s (.refused r) := by
  intro t ht
  cases ht

/-- Error entry keeps the host's part, so a unit operation does when its result does. -/
theorem settle {x : Run State} (h : ∀ u, x = .ok u → hostPart u = hostPart s) : KeepsHost s (settle s x) := by
  intro t ht
  rcases settle_next ht with hx | ⟨sub, info, -, rfl⟩
  · exact h t hx
  · rfl

/-- An inversion of the form "this next state, or error entry". -/
theorem of_next_or_raise {f : State → State} (h : ∀ t, o = .next t → t = f t ∨ ∃ sub info, t = raise sub info s)
    (hf : ∀ t, hostPart (f t) = hostPart s) : KeepsHost s o := by
  intro t ht
  rcases h t ht with heq | ⟨sub, info, rfl⟩
  · rw [heq]
    exact hf t
  · rfl

theorem onInternals (code : Byte) (f : Internals → Run Internals) : KeepsHost s (onInternals code s f) := by
  intro t ht
  rcases onInternals_next ht with ⟨m, -, rfl⟩ | ⟨sub, info, -, rfl⟩ <;> rfl

theorem thenBusy {k : State → Result} (ho : KeepsHost s o) (hk : ∀ u, KeepsHost u (k u)) :
    KeepsHost s (thenBusy o k) := by
  intro t ht
  rcases thenBusy_next ht with ⟨hrun, -⟩ | ⟨u, hrun, -, hu⟩
  · exact ho t hrun
  · exact (hk u t hu).trans (ho u hrun)

theorem withPrologue {body : State → Result} (h : KeepsHost (prologue s) (body (prologue s))) :
    KeepsHost s (withPrologue s body) := by
  by_cases hcap : s.params.inCap < s.inLen
  · rw [withPrologue_inRange hcap]
    exact next rfl
  · rw [withPrologue_body (BitVec.not_lt.mp hcap)]
    exact h

end KeepsHost

/-! ## The parts of the operations -/

theorem hostPart_outAppend {s t : State} {v : List Byte} (h : outAppend s v = .ok t) : hostPart t = hostPart s := by
  rw [outAppend_frame h]
  rfl

theorem hostPart_outAppends {s t : State} {fs : List (List Byte)} (h : fs.foldlM outAppend s = .ok t) :
    hostPart t = hostPart s := by
  induction fs generalizing s with
  | nil =>
    cases h
    rfl
  | cons v fs ih =>
    obtain ⟨u, hu, h⟩ := bind_ok h
    exact (ih h).trans (hostPart_outAppend hu)

theorem hostPart_decodeBit {s t : State} (h : decodeBit s = .ok t) : hostPart t = hostPart s := by
  rw [decodeBit_ok h]
  rfl

theorem hostPart_unpackFromLoop {s t : State} (h : unpackFromLoop s = .ok t) : hostPart t = hostPart s := by
  rw [unpackFromLoop_eq] at h
  obtain ⟨u, hu, h⟩ := bind_ok h
  by_cases hacc : u.int.acc = []
  · rw [scanEnd_done hacc] at h
    cases h
    rw [scan_ok hu]
    rfl
  · rw [scanEnd_left hacc] at h
    cases h

/-! ## The operations -/

section
variable (s : State)

theorem keepsHost_execFreq : KeepsHost s (execFreq s) := by
  intro t ht
  obtain ⟨-, rfl⟩ := execFreq_next ht
  rfl

theorem keepsHost_execGencodes : KeepsHost s (execGencodes s) := by
  intro t ht
  rcases execGencodes_next ht with ⟨ct, cnt, -, rfl⟩ | ⟨sub, info, rfl⟩ <;> rfl

theorem keepsHost_execPack : KeepsHost s (execPack s) :=
  .of_next_or_raise (fun _ => execPack_next) fun _ => rfl

theorem keepsHost_execHdrWrite : KeepsHost s (execHdrWrite s) :=
  .settle fun t ht => by
    obtain ⟨u, hu, ht⟩ := bind_ok ht
    cases ht
    exact (hostPart_outAppends hu :)

theorem keepsHost_execPayloadWrite : KeepsHost s (execPayloadWrite s) :=
  .settle fun _ => hostPart_outAppend

theorem keepsHost_execHdrRead : KeepsHost s (execHdrRead s) :=
  .of_next_or_raise (fun _ => execHdrRead_next) fun _ => rfl

theorem keepsHost_execRmapBuild : KeepsHost s (execRmapBuild s) :=
  .of_next_or_raise (fun _ => execRmapBuild_next) fun _ => rfl

theorem keepsHost_execUnpack : KeepsHost s (execUnpack s) :=
  .of_next_or_raise (fun _ => execUnpack_next) fun _ => rfl

theorem keepsHost_execUnpackBit : KeepsHost s (execUnpackBit s) := by
  intro t ht
  rcases execUnpackBit_next ht with h | ⟨sub, info, rfl⟩
  · exact hostPart_decodeBit h
  · rfl

/-- The rest of UNPACK is its checks in order and then its loop (R182, R183). -/
theorem unpackResume_eq :
    unpackResume s =
      if s.params.inCap < s.inLen then .fault .noSuchByte
      else if s.int.bitcur < s.int.trueBits ∧ Config.maxCodeLen ≤ s.int.acc.length then .refused .accumulatorFull
      else if 8 * (s.inLen.toNat - s.hdrLen.toNat) < s.int.trueBits.toNat then .fault .noSuchByte
      else settle s (unpackFromLoop s) := by
  rw [unpackResume]
  by_cases hcap : s.params.inCap < s.inLen
  · rw [checkInput_beyond hcap, if_pos hcap]
    rfl
  · rw [ok_bind (checkInput_ok (BitVec.not_lt.mp hcap)), if_neg hcap]
    by_cases hfull : s.int.bitcur < s.int.trueBits ∧ Config.maxCodeLen ≤ s.int.acc.length
    · rw [if_pos hfull, if_pos hfull]
      rfl
    · rw [if_neg hfull, if_neg hfull]
      by_cases hbeyond : 8 * (s.inLen.toNat - s.hdrLen.toNat) < s.int.trueBits.toNat
      · rw [if_pos hbeyond, if_pos hbeyond]
        rfl
      · rw [if_neg hbeyond, if_neg hbeyond]

theorem keepsHost_unpackResume : KeepsHost s (unpackResume s) := by
  rw [unpackResume_eq]
  split_ifs
  · exact .fault _
  · exact .refused _
  · exact .fault _
  · exact .settle fun _ => hostPart_unpackFromLoop

/-- R61 for COMPRESS: each of its operations keeps the host's part. -/
theorem keepsHost_execCompress : KeepsHost s (execCompress s) := by
  refine .withPrologue ?_
  rw [compressBody]
  split_ifs
  · exact .thenBusy (keepsHost_execHdrWrite (emptyInput (prologue s))) fun _ => .next rfl
  · exact (keepsHost_execFreq _).thenBusy fun _ => .thenBusy (.onInternals _ _) fun u =>
      (keepsHost_execGencodes u).thenBusy fun u => (keepsHost_execPack u).thenBusy fun u =>
      (keepsHost_execHdrWrite u).thenBusy fun u => (keepsHost_execPayloadWrite u).thenBusy fun _ => .next rfl

/-- R61 for DECOMPRESS. -/
theorem keepsHost_execDecompress : KeepsHost s (execDecompress s) :=
  .withPrologue <| (keepsHost_execHdrRead _).thenBusy fun u => (keepsHost_execRmapBuild u).thenBusy fun u =>
    (keepsHost_execUnpack u).thenBusy fun _ => .next rfl

/-- R61: no operation writes what is the host's. -/
theorem keepsHost_exec (i : Instr) : KeepsHost s (exec i s) := by
  cases i with
  | compress => exact keepsHost_execCompress s
  | decompress => exact keepsHost_execDecompress s
  | freq => exact keepsHost_execFreq s
  | build | pqInit | pqInsert | pqExtractMin | merge => exact .onInternals _ _
  | gencodes => exact keepsHost_execGencodes s
  | pack => exact keepsHost_execPack s
  | hdrWrite => exact keepsHost_execHdrWrite s
  | payloadWrite => exact keepsHost_execPayloadWrite s
  | hdrRead => exact keepsHost_execHdrRead s
  | rmapBuild => exact keepsHost_execRmapBuild s
  | unpack => exact keepsHost_execUnpack s
  | unpackBit => exact keepsHost_execUnpackBit s

/-! ## The small steps -/

/-- The sequencer moves `PHASE` and the operands, or ends the command. -/
theorem hostPart_followed (i : Instr) : hostPart (followed i s) = hostPart s := by
  cases i with
  | hdrWrite =>
    rw [followed]
    split_ifs <;> rfl
  | pqExtractMin =>
    rw [followed]
    split <;> rfl
  | _ => rfl

end

theorem KeepsHost.advance {s : State} {o : Result} (i : Instr) (h : KeepsHost s o) : KeepsHost s (advance i o) :=
  h.thenBusy fun u => .next (hostPart_followed u i)

/-- R253 for one small step, whichever operation it runs or resumes. -/
theorem keepsHost_busyStep (s : State) : KeepsHost s (busyStep s) := by
  rw [busyStep]
  split
  · exact .advance _ (.onInternals _ _)
  · exact .advance _ (.onInternals _ _)
  · exact .advance _ (keepsHost_unpackResume s)
  · split
    · exact .advance _ (keepsHost_exec s _)
    · exact .fault _

/-- While a command runs, a step without a reset is a small step of the command (R25, R250). -/
theorem step_busy {s : State} (hbusy : s.status.state = .busy) (hreset : s.hostQueue.head? ≠ some .reset) :
    step s = busyStep s := by
  rw [step]
  split
  · rename_i hq
    exact absurd (congrArg List.head? hq) hreset
  · exact if_pos hbusy

/-- Settles O13: the step is a small step of the command, which keeps the host's part. -/
theorem hostWaitsWhileBusy : Obligations.HostWaitsWhileBusy := by
  intro s t hbusy hreset hstep
  have hkeep : hostPart t = hostPart s := keepsHost_busyStep s t (step_busy hbusy hreset ▸ hstep)
  exact ⟨congrArg HostPart.hostQueue hkeep, congrArg HostPart.hostRead hkeep, congrArg HostPart.inMem hkeep,
    congrArg HostPart.inLen hkeep⟩

end Sys2Proof
end

section
/-! PROOFS. The commands' results as the statements give them (R94, R200 to R202, R206, R207): COMPRESS by its encoding,
DECOMPRESS by the message, LOAD by the bytes it writes, and an input longer than IN. -/

namespace Sys2Proof
open Machine

/-- Settles O47: the table is that of the input's encoding, whose header and payload fit (`execCompress_run`) or do not
(`execCompress_full`). -/
theorem compressWritesTheStream : Obligations.CompressWritesTheStream := by
  intro s hlen hcap
  have hne := mt inputBytes_eq_nil.mp hlen
  obtain ⟨c, hc⟩ := encodingOf_run (length_inputBytes_lt s)
  refine ⟨c.ct, c.cnt, c.degen, encodingOf_ok hne hc, ?_⟩
  rintro _ _ _ rfl rfl rfl
  refine ⟨fun hfit => ?_, fun hfull => execCompress_full hcap hc hfull⟩
  obtain ⟨t, hrun, ht, -⟩ := execCompress_run hcap hc hfit
  have hstatus := ht.status
  rw [decide_eq_false hne] at hstatus
  exact ⟨t, hrun, hstatus, ht.err, ht.errSub, ht.errInfo, ht.phase, ht.outLen, ht.hdrLen, ht.entryCnt, ht.pad,
    ht.header, ht.payload⟩

/-- Settles O50: the header gives the table and its inverse, and UNPACK the message (`execDecompress_run`). -/
theorem decompressReadsTheStream : Obligations.DecompressReadsTheStream := by
  intro s pad es msg h bits hcap hpad hgood hfree hcov hh hb hlen hread hsize hbits hroom
  obtain ⟨t, hrun, ht, hp, hn, hl⟩ :=
    execDecompress_run hcap hpad hgood hfree hcov hh hb hlen hread hsize hbits hroom
  exact ⟨t, hrun, ht.status, ht.err, ht.errSub, ht.errInfo, ht.phase, ht.outLen, ht.output, hp, hn, hl⟩

/-- Settles O12: LOAD is one write of each byte and one of `IN_LEN` (`run_load`). -/
theorem loadFillsTheInput : Obligations.LoadFillsTheInput := by
  intro s bs rest hidle hfit hq
  have hcap := s.params.inCap.isLt
  refine ⟨loaded bs rest s, run_load hidle hfit hq, Nat.mod_eq_of_lt (by omega), memRead_of_writeBytes rfl,
    fun a ha => ?_, rfl⟩
  rw [State.inByte, loaded, Memory.read_writeBytes, if_neg (by omega)]
  rfl

/-- Settles O49: the prologue finds the input longer than IN before any unit operation runs (`withPrologue_inRange`). -/
theorem inputBeyondCapacityIsReported : Obligations.InputBeyondCapacityIsReported := by
  intro s hlong
  exact ⟨⟨_, withPrologue_inRange hlong _, raise_failed _ _ _, rfl⟩,
    ⟨_, withPrologue_inRange hlong _, raise_failed _ _ _, rfl⟩⟩

/-- DECOMPRESS that ends with DONE has cleared the flags and the error registers in its prologue, and no operation has
set them since (R206). -/
theorem decompress_done_status {s t : State} (h : exec .decompress s = .next t) (hdone : t.status.state = .done) :
    t.status = { state := .done, empty := t.outLen == 0, degen := false } ∧
      t.err = .none ∧ t.errSub = .none ∧ t.errInfo = 0 ∧ t.phase = 0 := by
  obtain ⟨u, v, w, hu, hune, hv, hvne, hw, hwne, rfl⟩ := decompress_done h hdone
  have hu := (execHdrRead_next hu).resolve_right hune
  have hv := (execRmapBuild_next hv).resolve_right hvne
  have hw := (execUnpack_next hw).resolve_right hwne
  obtain ⟨hst, herr, herrSub, herrInfo⟩ : w.status = (prologue s).status ∧ w.err = (prologue s).err ∧
      w.errSub = (prologue s).errSub ∧ w.errInfo = (prologue s).errInfo := by
    rw [hw, hv, hu]
    exact ⟨rfl, rfl, rfl, rfl⟩
  refine ⟨?_, herr, herrSub, herrInfo, rfl⟩
  rw [finishDecompress, epilogue_status, epilogue_outLen, setEmpty_status, setEmpty_outLen, hst]
  rfl

/-- `DEGEN` of an encoding says that the input has one distinct byte value (R200). -/
theorem encodingOf_degen {bs : List Byte} {c : Encoding} (hlt : bs.length < 2 ^ 32) (h : encodingOf bs = .ok c) :
    c.degen = decide (distinctCount bs = 1) := by
  by_cases hne : bs = []
  · subst hne
    cases encodingOf_nil.symm.trans h
    rfl
  · obtain ⟨ct, cnt, hrun, -⟩ := huffmanTableIsACode bs hne hlt
    have htable := Except.ok.inj ((encodingOf_ok hne h).symm.trans hrun)
    exact (Prod.mk.inj (Prod.mk.inj htable).2).2

/-- Settles O54: a COMPRESS that ends with DONE has the flags of its input's encoding (`compressed_of_done`), and a
DECOMPRESS those of its output. -/
theorem flagsAfterSuccess : Obligations.FlagsAfterSuccess := by
  intro s t hdone
  refine ⟨fun h => ?_, fun h => ?_⟩
  · obtain ⟨c, hc, ht⟩ := compressed_of_done h hdone
    refine ⟨?_, ?_, ht.err, ht.errSub, ht.errInfo, ht.phase⟩
    · rw [ht.status]
      exact decide_eq_decide.mpr inputBytes_eq_nil
    · rw [ht.status]
      exact encodingOf_degen (length_inputBytes_lt s) hc
  · obtain ⟨hstatus, herr, herrSub, herrInfo, hphase⟩ := decompress_done_status h hdone
    refine ⟨?_, by rw [hstatus], herr, herrSub, herrInfo, hphase⟩
    rw [hstatus]
    rfl

end Sys2Proof
end

section
/-! PROOFS. What a unit operation can answer (R61, R63, R227, R230, R231): a state with the same flags, error registers
and host's part, or error entry with a named sub-cause. -/

namespace Sys2Proof
open Machine

/-! ## The errors of a computation -/

/-- An error that is raised has a named sub-cause (R222). -/
def Machine.Stop.Named : Stop → Prop
  | .raised sub _ => sub ≠ .none
  | .fault _ => True
  | .refuse _ => True

/-- An error of the specification, no stop of the model, and it has a named sub-cause. -/
def Machine.Stop.Reported : Stop → Prop
  | .raised sub _ => sub ≠ .none
  | .fault _ => False
  | .refuse _ => False

theorem Machine.Stop.Reported.named {e : Stop} (h : e.Reported) : e.Named := by
  cases e with
  | raised sub info => exact h
  | fault r => trivial
  | refuse r => trivial

/-- A computation ends, if not with a result, for a reason of the given kind. -/
def ErrorsIn (P : Stop → Prop) {α : Type} (x : Run α) : Prop := ∀ e, x = .error e → P e

namespace ErrorsIn
variable {P : Stop → Prop} {α β : Type} {x : Run α}

theorem ok (a : α) : ErrorsIn P (.ok a : Run α) := by
  intro e he
  cases he

theorem error {e : Stop} (h : P e) : ErrorsIn P (.error e : Run α) := by
  rintro _ ⟨⟩
  exact h

theorem bind {f : α → Run β} (hx : ErrorsIn P x) (hf : ∀ a, x = .ok a → ErrorsIn P (f a)) : ErrorsIn P (x >>= f) := by
  cases x with
  | ok a => exact hf a rfl
  | error e => exact .error (hx e rfl)

theorem map (hx : ErrorsIn P x) (f : α → β) : ErrorsIn P (x.map f) := by
  cases x with
  | ok a => exact .ok _
  | error e => exact .error (hx e rfl)

theorem mono {Q : Stop → Prop} (hx : ErrorsIn P x) (h : ∀ e, P e → Q e) : ErrorsIn Q x := fun e he => h e (hx e he)

theorem foldlM {f : β → α → Run β} (hf : ∀ b a, ErrorsIn P (f b a)) (l : List α) (b : β) :
    ErrorsIn P (l.foldlM f b) := by
  induction l generalizing b with
  | nil => exact .ok b
  | cons a l ih => exact (hf b a).bind fun c _ => ih c

end ErrorsIn

/-- What the meanings of the HeaderCodec, the BitPacker and the BitUnpacker run raises errors of the specification
only. -/
abbrev OnlyReports {α : Type} (x : Run α) : Prop := ErrorsIn Stop.Reported x

/-- What a meaning runs raises no error without a sub-cause. -/
abbrev OnlyNamed {α : Type} (x : Run α) : Prop := ErrorsIn Stop.Named x

theorem OnlyReports.onlyNamed {α : Type} {x : Run α} (h : OnlyReports x) : OnlyNamed x := h.mono fun _ => Stop.Reported.named

/-! ## The parts of the operations -/

theorem onlyNamed_checkInput (s : State) : OnlyNamed (checkInput s) := by
  by_cases h : s.params.inCap < s.inLen
  · rw [checkInput_beyond h]
    exact .error trivial
  · rw [checkInput_ok (BitVec.not_lt.mp h)]
    exact .ok ()

theorem onlyReports_outAppend (s : State) (v : List Byte) : OnlyReports (outAppend s v) := by
  rcases outAppend_cases s v with ⟨-, h⟩ | ⟨-, h⟩
  · rw [h]
    exact .ok _
  · rw [h]
    exact .error ErrSub.noConfusion

theorem onlyReports_packBytes (bs : List Byte) (m : Internals) : OnlyReports (packBytes m bs) := by
  induction bs generalizing m with
  | nil => exact .ok m
  | cons b bs ih =>
    cases hb : byteGet m.ct b with
    | none =>
      rw [packBytes_missing hb]
      exact .error ErrSub.noConfusion
    | some c =>
      rw [packBytes_cons hb]
      exact ih _

section
variable (s : State)

theorem onlyReports_need (a k : Nat) : OnlyReports (need s a k) := by
  rcases Nat.lt_or_ge (s.inLen.toNat - a) k with h | h
  · rw [need_short h]
    exact .error ErrSub.noConfusion
  · rw [need_ok h]
    exact .ok ()

theorem onlyReports_readInt (a : Nat) : OnlyReports (readInt s a) :=
  (onlyReports_need s a 4).bind fun _ _ => .ok _

theorem onlyReports_readCode (n a : Nat) : OnlyReports (readCode s a n) := by
  induction n generalizing a with
  | zero => exact .ok []
  | succ n ih =>
    rw [readCode]
    split
    · exact .error ErrSub.noConfusion
    · exact (ih _).bind fun _ _ => .ok _

theorem onlyReports_readEntry (a : Nat) (ct : ByteTable (Option Code)) : OnlyReports (readEntry s a ct) := by
  rcases Nat.lt_or_ge s.inLen.toNat (a + 1) with h | h
  · rw [readEntry_truncated h]
    exact .error ErrSub.noConfusion
  rw [readEntry_eq h]
  split_ifs
  · exact .error ErrSub.noConfusion
  · refine (onlyReports_readInt s _).bind fun n _ => ?_
    rw [readCodeField]
    split_ifs
    · exact .error ErrSub.noConfusion
    · exact (onlyReports_need s _ _).bind fun _ _ => (onlyReports_readCode s _ _).map _

theorem onlyReports_readEntries (n a : Nat) (ct : ByteTable (Option Code)) : OnlyReports (readEntries s n a ct) := by
  induction n generalizing a ct with
  | zero => exact .ok _
  | succ n ih => exact (onlyReports_readEntry s a ct).bind fun r _ => ih _ _

/-- What HDR_READ runs after the check of `IN_LEN` (`execHdrRead_eq`). -/
theorem onlyReports_hdrRead :
    OnlyReports (readInt s 0 >>= fun pad => if 7 < pad then .error (.raised .badPad 0) else hdrReadBody s pad) := by
  refine (onlyReports_readInt s 0).bind fun pad _ => ?_
  split_ifs
  · exact .error ErrSub.noConfusion
  · refine (onlyReports_readInt s 4).bind fun n _ => ?_
    split_ifs
    · exact .error ErrSub.noConfusion
    · exact (onlyReports_readEntries s _ _ _).map _

theorem onlyReports_decodeBit : OnlyReports (decodeBit s) := by
  cases hb : s.int.rmap.lookup (s.int.acc ++ [nextBit s]) with
  | some b =>
    rw [decodeBit_match rfl hb]
    exact onlyReports_outAppend _ _
  | none =>
    by_cases hlen : (s.int.acc ++ [nextBit s]).length = 255
    · rw [decodeBit_full rfl hb hlen]
      exact .error ErrSub.noConfusion
    · rw [decodeBit_goOn rfl hb hlen]
      exact .ok _

theorem onlyReports_unpackFromLoop : OnlyReports (unpackFromLoop s) := by
  have hscan : ∀ n u, OnlyReports (scan n u) := fun n => by
    induction n with
    | zero => exact fun u => .ok u
    | succ n ih => exact fun u => (onlyReports_decodeBit u).bind fun v _ => ih v
  refine (hscan _ s).bind fun u _ => ?_
  show OnlyReports (scanEnd u)
  by_cases hacc : u.int.acc = []
  · rw [scanEnd_done hacc]
    exact .ok _
  · rw [scanEnd_left hacc]
    exact .error ErrSub.noConfusion

end

theorem onlyReports_mapEntry (r : List (Code × Byte)) (e : Byte × Code) : OnlyReports (mapEntry r e) := by
  rw [mapEntry]
  split_ifs
  · exact .error ErrSub.noConfusion
  · exact .ok _

/-- The TreeBuilder and the CodeTableGenerator raise nothing: outside their preconditions they are refused. -/
theorem onlyNamed_pqInsert (m : Internals) : OnlyNamed (pqInsert m) := by
  rw [pqInsert]
  split_ifs
  · exact .error trivial
  · exact .error trivial
  · exact .ok _

theorem onlyNamed_pqExtractMin (m : Internals) : OnlyNamed (pqExtractMin m) := by
  rw [pqExtractMin]
  split
  · exact .error trivial
  · split
    · exact .ok _
    · exact .ok _

theorem onlyNamed_merge (m : Internals) : OnlyNamed (merge m) := by
  rw [merge]
  split_ifs
  · exact .error trivial
  · exact .ok _

theorem onlyNamed_takeRoot (m : Internals) : OnlyNamed (takeRoot m) := by
  rw [takeRoot]
  split
  · exact .error trivial
  · exact .ok _

theorem onlyNamed_pqInit (m : Internals) : OnlyNamed (pqInit m) := .foldlM (fun _ _ => onlyNamed_pqInsert _) _ _

theorem onlyNamed_buildRound (m : Internals) : OnlyNamed (buildRound m) :=
  (onlyNamed_pqExtractMin m).bind fun _ _ => (onlyNamed_pqExtractMin _).bind fun _ _ =>
    (onlyNamed_merge _).bind fun _ _ => onlyNamed_pqInsert _

theorem onlyNamed_buildLoop (f : Nat) (m : Internals) : OnlyNamed (buildLoop f m) := by
  induction f generalizing m with
  | zero => exact .ok m
  | succ f ih =>
    rw [buildLoop]
    split_ifs
    · exact (onlyNamed_buildRound m).bind fun k _ => ih k
    · exact .ok m

theorem onlyNamed_buildFromLoop (m : Internals) : OnlyNamed (buildFromLoop m) :=
  (onlyNamed_buildLoop _ m).bind fun k _ => onlyNamed_takeRoot k

theorem onlyNamed_buildAfterInit (m : Internals) : OnlyNamed (buildAfterInit m) := by
  rw [buildAfterInit]
  split_ifs
  · exact onlyNamed_takeRoot _
  · exact onlyNamed_buildFromLoop _

theorem onlyNamed_build (m : Internals) : OnlyNamed (build m) := by
  rw [build]
  split_ifs
  · exact .error trivial
  · exact (onlyNamed_pqInit m).bind fun k _ => onlyNamed_buildAfterInit k

theorem onlyNamed_walk (m : Internals) (f : Nat) (stk : List (NodeIdx × Code)) (ct : ByteTable (Option Code))
    (cnt : BitVec 9) : OnlyNamed (walk m f stk ct cnt) := by
  induction f generalizing stk ct cnt with
  | zero =>
    cases stk with
    | nil => exact .ok _
    | cons x stk => exact .error trivial
  | succ f ih =>
    cases stk with
    | nil => exact .ok _
    | cons x stk =>
      rw [walk]
      split
      · exact ih _ _ _
      · exact ih _ _ _

theorem onlyNamed_codeTable (m : Internals) : OnlyNamed (codeTable m) := by
  rw [codeTable]
  split_ifs
  · exact .ok _
  · exact onlyNamed_walk _ _ _ _ _

/-! ## What an operation keeps -/

/-- What a unit operation leaves as it is: the host's part, the flags, and the error registers (R61, R230). -/
structure CommandPart where
  host : HostPart
  status : Status
  err : ErrKind
  errSub : ErrSub
  errInfo : Word

/-- The part of a state that a unit operation leaves as it is. -/
def commandPart (s : State) : CommandPart where
  host := hostPart s
  status := s.status
  err := s.err
  errSub := s.errSub
  errInfo := s.errInfo

/-- OUT and `OUT_LEN`, with the draw of OUT's free bytes. -/
def outPart (s : State) : Memory × Word × Nat := (s.outMem, s.outLen, s.outDraw)

/-- OUT is in canonical form and inside its capacity, and so is `OUT_LEN` (R60, R227). -/
structure OutWithin (s : State) : Prop where
  form : s.outMem.wf
  bound : ∀ c ∈ s.outMem, c.1 < s.params.outCap.toNat
  fits : s.outLen ≤ s.params.outCap

theorem OutWithin.congr {s t : State} (h : OutWithin s) (hparams : t.params = s.params) (hout : outPart t = outPart s) :
    OutWithin t := by
  obtain ⟨hmem, hrest⟩ := Prod.mk.inj hout
  obtain ⟨hlen, -⟩ := Prod.mk.inj hrest
  exact ⟨hmem ▸ h.form, by rw [hmem, hparams]; exact h.bound, by rw [hlen, hparams]; exact h.fits⟩

theorem OutWithin.outAppend {s t : State} {v : List Byte} (h : OutWithin s) (hrun : outAppend s v = .ok t) :
    OutWithin t := by
  have hfits := outAppend_fits h.fits hrun
  rcases outAppend_cases s v with ⟨hroom, hok⟩ | ⟨-, herr⟩
  · cases hok.symm.trans hrun
    refine ⟨Memory.wf_writeBytes h.form _ _, fun c hc => ?_, hfits⟩
    rcases Memory.mem_writeBytes hc with ⟨-, hlt⟩ | hmem
    · exact hlt.trans_le (outLen_append h.fits hroom).2
    · exact h.bound c hmem
  · cases herr.symm.trans hrun

/-- An operation that writes OUT keeps the rest of the command, and stays within OUT (R63, R227). -/
def WritesOut (s t : State) : Prop := commandPart t = commandPart s ∧ (OutWithin s → OutWithin t)

/-- An operation that does not write OUT (R63). -/
def LeavesOut (s t : State) : Prop := commandPart t = commandPart s ∧ outPart t = outPart s

theorem LeavesOut.writesOut {s t : State} (h : LeavesOut s t) : WritesOut s t :=
  ⟨h.1, fun hs => hs.congr (congrArg (fun c => c.host.params) h.1) h.2⟩

theorem WritesOut.trans {s t u : State} (h : WritesOut s t) (h' : WritesOut t u) : WritesOut s u :=
  ⟨h'.1.trans h.1, fun hs => h'.2 (h.2 hs)⟩

theorem writesOut_outAppend {s t : State} {v : List Byte} (h : outAppend s v = .ok t) : WritesOut s t := by
  refine ⟨?_, fun hs => hs.outAppend h⟩
  rw [outAppend_frame h]
  rfl

theorem writesOut_outAppends {s t : State} {fs : List (List Byte)} (h : fs.foldlM outAppend s = .ok t) :
    WritesOut s t := by
  induction fs generalizing s with
  | nil =>
    cases h
    exact ⟨rfl, id⟩
  | cons v fs ih =>
    obtain ⟨u, hu, h⟩ := bind_ok h
    exact (writesOut_outAppend hu).trans (ih h)

theorem writesOut_decodeBit {s t : State} (h : decodeBit s = .ok t) : WritesOut s t := by
  cases hb : s.int.rmap.lookup (s.int.acc ++ [nextBit s]) with
  | some b =>
    rw [decodeBit_match rfl hb] at h
    exact WritesOut.trans (t := afterBit [] s) ⟨rfl, fun hs => hs.congr rfl rfl⟩ (writesOut_outAppend h)
  | none =>
    by_cases hlen : (s.int.acc ++ [nextBit s]).length = 255
    · rw [decodeBit_full rfl hb hlen] at h
      cases h
    · rw [decodeBit_goOn rfl hb hlen] at h
      cases h
      exact ⟨rfl, fun hs => hs.congr rfl rfl⟩

theorem writesOut_unpackFromLoop {s t : State} (h : unpackFromLoop s = .ok t) : WritesOut s t := by
  have hscan : ∀ n u v, scan n u = .ok v → WritesOut u v := fun n => by
    induction n with
    | zero =>
      rintro u _ ⟨⟩
      exact ⟨rfl, id⟩
    | succ n ih =>
      intro u v hv
      obtain ⟨w, hw, hv⟩ := bind_ok hv
      exact (writesOut_decodeBit hw).trans (ih w v hv)
  rw [unpackFromLoop_eq] at h
  obtain ⟨u, hu, h⟩ := bind_ok h
  by_cases hacc : u.int.acc = []
  · rw [scanEnd_done hacc] at h
    cases h
    exact (hscan _ _ _ hu).trans ⟨rfl, fun hs => hs.congr rfl rfl⟩
  · rw [scanEnd_left hacc] at h
    cases h

/-! ## The operations -/

/-- A next state of an operation started in `s` has a property, or is error entry with a named sub-cause (R231). -/
def Answers (s : State) (P : State → Prop) (o : Result) : Prop :=
  ∀ t, o = .next t → P t ∨ ∃ sub info, sub ≠ .none ∧ t = raise sub info s

section
variable {s : State} {P : State → Prop}

theorem Answers.mono {Q : State → Prop} {o : Result} (h : Answers s P o) (hPQ : ∀ t, P t → Q t) : Answers s Q o :=
  fun t ht => (h t ht).imp_left (hPQ t)

theorem Answers.settle {x : Run State} (hx : OnlyNamed x) (hP : ∀ t, x = .ok t → P t) : Answers s P (settle s x) := by
  intro t ht
  rcases settle_next ht with hrun | ⟨sub, info, herr, rfl⟩
  · exact .inl (hP t hrun)
  · exact .inr ⟨sub, info, hx _ herr, rfl⟩

theorem answers_onInternals (code : Byte) {f : Internals → Run Internals} (hf : OnlyNamed (f s.int)) :
    Answers s (LeavesOut s) (onInternals code s f) :=
  .settle (hf.bind fun _ _ => .ok _) fun t ht => by
    obtain ⟨m, -, ht⟩ := bind_ok ht
    cases ht
    exact ⟨rfl, rfl⟩

variable (s)

theorem answers_execFreq : Answers s (LeavesOut s) (execFreq s) :=
  .settle ((onlyNamed_checkInput s).bind fun _ _ => .ok _) fun t ht => by
    obtain ⟨-, -, ht⟩ := bind_ok ht
    cases ht
    exact ⟨rfl, rfl⟩

theorem answers_execGencodes : Answers s (LeavesOut s) (execGencodes s) :=
  .settle ((onlyNamed_codeTable s.int).bind fun _ _ => .ok _) fun t ht => by
    obtain ⟨⟨ct, cnt⟩, -, ht⟩ := bind_ok ht
    cases ht
    exact ⟨rfl, rfl⟩

/-- An operation that reads an input longer than IN does not answer (R62). -/
theorem Answers.of_cap {o : Result} (hfault : s.params.inCap < s.inLen → o = .fault .noSuchByte)
    (h : s.inLen ≤ s.params.inCap → Answers s P o) : Answers s P o := by
  by_cases hcap : s.params.inCap < s.inLen
  · intro t ht
    cases (hfault hcap).symm.trans ht
  · exact h (BitVec.not_lt.mp hcap)

theorem answers_execPack : Answers s (LeavesOut s) (execPack s) := by
  refine .of_cap s (fun hcap => by rw [execPack, checkInput_beyond hcap]; rfl) fun hcap => ?_
  rw [execPack_eq hcap]
  refine .settle ((onlyReports_packBytes _ _).onlyNamed.map _) fun t ht => ?_
  cases hrun : packBytes (packStart s.int) (inputBytes s) with
  | error e =>
    rw [hrun] at ht
    cases ht
  | ok m =>
    rw [hrun] at ht
    cases ht
    rw [packEnd]
    split_ifs
    · exact ⟨rfl, rfl⟩
    · exact ⟨rfl, rfl⟩

theorem answers_execHdrRead : Answers s (LeavesOut s) (execHdrRead s) := by
  refine .of_cap s (fun hcap => by rw [execHdrRead, checkInput_beyond hcap]; rfl) fun hcap => ?_
  rw [execHdrRead_eq hcap]
  refine .settle (onlyReports_hdrRead s).onlyNamed fun t ht => ?_
  obtain ⟨pad, -, ht⟩ := bind_ok ht
  split_ifs at ht
  obtain ⟨n, -, ht⟩ := bind_ok ht
  split_ifs at ht
  cases hrun : readEntries s n 8 emptyTable with
  | error e =>
    rw [hrun] at ht
    cases ht
  | ok r =>
    rw [hrun] at ht
    cases ht
    exact ⟨rfl, rfl⟩

theorem answers_execRmapBuild : Answers s (LeavesOut s) (execRmapBuild s) :=
  answers_onInternals _ ((OnlyReports.onlyNamed (.foldlM onlyReports_mapEntry _ _)).bind fun _ _ => .ok _)

theorem answers_execHdrWrite : Answers s (WritesOut s) (execHdrWrite s) :=
  .settle ((OnlyReports.onlyNamed (.foldlM onlyReports_outAppend _ _)).bind fun _ _ => .ok _) fun t ht => by
    obtain ⟨u, hu, ht⟩ := bind_ok ht
    cases ht
    exact WritesOut.trans (t := { s with phase := 0x50#8 }) ⟨rfl, fun hs => hs.congr rfl rfl⟩
      ((writesOut_outAppends hu).trans ⟨rfl, fun hs => hs.congr rfl rfl⟩)

theorem answers_execPayloadWrite : Answers s (WritesOut s) (execPayloadWrite s) :=
  .settle (onlyReports_outAppend _ _).onlyNamed fun _ ht =>
    WritesOut.trans (t := { s with phase := 0x51#8 }) ⟨rfl, fun hs => hs.congr rfl rfl⟩ (writesOut_outAppend ht)

theorem answers_execUnpack : Answers s (WritesOut s) (execUnpack s) := by
  rw [execUnpack_eq]
  split_ifs
  · exact fun t ht => nomatch ht
  · exact fun t ht => nomatch ht
  · rintro _ ⟨⟩
    exact .inr ⟨_, _, ErrSub.noConfusion, rfl⟩
  · exact .settle (onlyReports_unpackFromLoop _).onlyNamed fun t ht =>
      WritesOut.trans (t := unpackStart s) ⟨rfl, fun hs => hs.congr rfl rfl⟩ (writesOut_unpackFromLoop ht)

theorem answers_unpackResume : Answers s (WritesOut s) (unpackResume s) := by
  rw [unpackResume_eq]
  split_ifs
  · exact fun t ht => nomatch ht
  · exact fun t ht => nomatch ht
  · exact fun t ht => nomatch ht
  · exact .settle (onlyReports_unpackFromLoop _).onlyNamed fun t ht => writesOut_unpackFromLoop ht

/-- UNPACK_BIT is its checks in order and then one transition (R183). -/
theorem execUnpackBit_checks :
    execUnpackBit s =
      if s.int.trueBits ≤ s.int.bitcur then .refused .noBitLeft
      else if 255 ≤ s.int.acc.length then .refused .accumulatorFull
      else if s.params.inCap < s.inLen then .fault .noSuchByte
      else if s.inLen.toNat ≤ s.hdrLen.toNat + s.int.bitcur.toNat / 8 then .fault .noSuchByte
      else settle s (decodeBit s) := by
  split_ifs with hbit hfull hcap hin
  · rw [execUnpackBit, if_pos hbit]
    rfl
  · rw [execUnpackBit, if_neg hbit, if_pos (show Config.maxCodeLen ≤ s.int.acc.length from hfull)]
    rfl
  · rw [execUnpackBit, if_neg hbit, if_neg (show ¬ Config.maxCodeLen ≤ s.int.acc.length from hfull),
      checkInput_beyond hcap]
    rfl
  · rw [execUnpackBit, if_neg hbit, if_neg (show ¬ Config.maxCodeLen ≤ s.int.acc.length from hfull),
      checkInput_ok (BitVec.not_lt.mp hcap), if_pos hin]
    rfl
  · exact execUnpackBit_eq (BitVec.not_le.mp hbit) (Nat.not_le.mp hfull) (BitVec.not_lt.mp hcap) (Nat.not_le.mp hin)

theorem answers_execUnpackBit : Answers s (WritesOut s) (execUnpackBit s) := by
  rw [execUnpackBit_checks]
  split_ifs
  · exact fun t ht => nomatch ht
  · exact fun t ht => nomatch ht
  · exact fun t ht => nomatch ht
  · exact fun t ht => nomatch ht
  · exact .settle (onlyReports_decodeBit s).onlyNamed fun t ht => writesOut_decodeBit ht

/-- R63: the unit operations without HDR_WRITE, PAYLOAD_WRITE, UNPACK and UNPACK_BIT. -/
theorem answers_exec_leavesOut {i : Instr}
    (hi : i ∈ [Instr.freq, .build, .pqInit, .pqInsert, .pqExtractMin, .merge, .gencodes, .pack, .hdrRead, .rmapBuild]) :
    Answers s (LeavesOut s) (exec i s) := by
  cases i with
  | freq => exact answers_execFreq s
  | build => exact answers_onInternals _ (onlyNamed_build s.int)
  | pqInit => exact answers_onInternals _ (onlyNamed_pqInit s.int)
  | pqInsert => exact answers_onInternals _ (onlyNamed_pqInsert s.int)
  | pqExtractMin => exact answers_onInternals _ (onlyNamed_pqExtractMin s.int)
  | merge => exact answers_onInternals _ (onlyNamed_merge s.int)
  | gencodes => exact answers_execGencodes s
  | pack => exact answers_execPack s
  | hdrRead => exact answers_execHdrRead s
  | rmapBuild => exact answers_execRmapBuild s
  | compress | decompress | hdrWrite | payloadWrite | unpack | unpackBit => exact absurd hi (by decide)

/-- Every unit operation keeps the flags, the error registers and what is the host's, or raises a named error. -/
theorem answers_exec_unit {i : Instr} (hi : i.format = .phase) : Answers s (WritesOut s) (exec i s) := by
  cases i with
  | hdrWrite => exact answers_execHdrWrite s
  | payloadWrite => exact answers_execPayloadWrite s
  | unpack => exact answers_execUnpack s
  | unpackBit => exact answers_execUnpackBit s
  | compress | decompress => exact absurd hi (by decide)
  | _ => exact (answers_exec_leavesOut s (by decide)).mono fun _ => LeavesOut.writesOut

end

/-- Settles O17: what is the host's includes IN and `IN_LEN` (`keepsHost_exec`). -/
theorem noOperationWritesTheInput : Obligations.NoOperationWritesTheInput := by
  intro i s t h
  have hkeep := keepsHost_exec s i t h
  have hmem : t.inMem = s.inMem := congrArg HostPart.inMem hkeep
  exact ⟨hmem, congrArg HostPart.inLen hkeep, State.inByte_congr hmem (congrArg HostPart.inDraw hkeep),
    congrArg HostPart.params hkeep, congrArg HostPart.hostQueue hkeep, congrArg HostPart.hostRead hkeep⟩

/-- Settles O18: these operations leave OUT, or raise a named error (`answers_exec_leavesOut`). -/
theorem onlyTheWritersWriteOut : Obligations.OnlyTheWritersWriteOut := by
  intro i s t hi h
  refine (answers_exec_leavesOut s hi t h).imp_left fun hout => ?_
  obtain ⟨hmem, hrest⟩ := Prod.mk.inj hout.2
  obtain ⟨hlen, hdraw⟩ := Prod.mk.inj hrest
  exact ⟨State.outByte_congr hmem hdraw, hmem, hlen⟩

end Sys2Proof
end

section
/-! PROOFS. The decoder (R80 to R82), and which meaning a step runs (R27, R81, R199). -/

namespace Sys2Proof
open Machine

/-! ## The tables (R81, R82) -/

/-- The rows of the opcode table in a format. -/
def rowsOf : Format → List (Byte × Instr)
  | .cmd => cmdRows
  | .phase => phaseRows

theorem decode_ok_iff {f : Format} {w : Byte} {i : Instr} : decode f w = .ok i ↔ (rowsOf f).lookup w = some i := by
  cases f with
  | cmd => rw [decode, rowsOf]; split <;> simp [*]
  | phase => rw [decode, rowsOf]; split <;> simp [*]

/-- An operation stands in the table of its format at its code. -/
theorem encode_format_of_mem_rowsOf {f : Format} : ∀ r ∈ rowsOf f, r.2.format = f ∧ encode r.2 = r.1 := by
  cases f with
  | cmd => decide
  | phase => decide

theorem encode_format_of_decode {f : Format} {w : Byte} {i : Instr} (h : decode f w = .ok i) :
    i.format = f ∧ encode i = w := by
  obtain ⟨l, r, hrows, -⟩ := List.lookup_eq_some_iff.mp (decode_ok_iff.mp h)
  exact encode_format_of_mem_rowsOf (w, i) (hrows ▸ List.mem_append_right l List.mem_cons_self)

/-- Only an operation of the format is decoded in it (R82). -/
theorem format_of_decode {f : Format} {w : Byte} {i : Instr} (h : decode f w = .ok i) : i.format = f :=
  (encode_format_of_decode h).1

theorem decode_encode (i : Instr) : decode i.format (encode i) = .ok i := by
  cases i <;> rfl

theorem lookup_eq_none_of_notMem {l : List (Byte × Instr)} {w : Byte} (h : w ∉ l.map Prod.fst) : l.lookup w = none :=
  List.lookup_eq_none_iff.mpr fun _ hr => bne_iff_ne.mpr fun heq => h (heq ▸ List.mem_map_of_mem hr)

/-- Settles O1: the listed codes are decoded by evaluation, and no other value has a row. -/
theorem decodeFollowsTheTables : Obligations.DecodeFollowsTheTables := by
  refine ⟨rfl, rfl, fun w hw => ?_, rfl, rfl, rfl, rfl, rfl, rfl, rfl, rfl, rfl, rfl, rfl, rfl, rfl, rfl, fun w hw => ?_⟩
  · rw [decode, lookup_eq_none_of_notMem (l := cmdRows) hw]
  · rw [decode, lookup_eq_none_of_notMem (l := phaseRows) hw]

/-- Settles O2: `decode_encode`, and conversely the row that is found has its own code. -/
theorem encodeAndDecodeAgree : Obligations.EncodeAndDecodeAgree := by
  refine ⟨fun x hx => ?_, fun f w i h => ?_⟩
  · rw [← eq_of_beq hx, decode_encode]
  · obtain ⟨hformat, hcode⟩ := encode_format_of_decode h
    exact ⟨beq_iff_eq.mpr hformat, hcode⟩

/-! ## The steps -/

/-- Settles O3: the step is the host's action, and that action runs the command (`step_command`). -/
theorem stepRunsTheHostsCommand : Obligations.StepRunsTheHostsCommand :=
  fun _ _ _ _ hidle hq hi => step_command hidle hq hi

/-- A small step at the start of an operation, or at the second extraction of BUILD, runs the operation of `PHASE`. -/
theorem busyStep_exec {s : State} {i : Instr} (hresume : s.resume = .start ∨ s.resume = .secondExtract)
    (hi : decode .phase s.phase = .ok i) : busyStep s = advance i (exec i s) := by
  rcases hresume with h | h
  · rw [busyStep, h, hi]
  · rw [busyStep, h, hi]

/-- Settles O4: the step is a small step (`step_busy`), and the sequencer goes on unless the operation has ended the
command. -/
theorem stepRunsThePhase : Obligations.StepRunsThePhase := by
  intro s i hbusy hreset hresume hi
  have hstep : step s = advance i (exec i s) := (step_busy hbusy hreset).trans (busyStep_exec hresume hi)
  rw [hstep]
  refine ⟨fun t ht hb => ?_, fun t ht hb => ?_, fun r hr => ?_, fun r hr => ?_⟩
  · rw [ht, advance, thenBusy_busy hb]
  · rw [ht, advance, thenBusy_ended hb]
  · rw [hr, advance_fault]
  · rw [hr, advance_refused]

/-! ## The host registers (R22, R24, R44) -/

/-- Settles O9: every register that R22 lists is 0 after reset. -/
theorem resetClearsHostRegisters : Obligations.ResetClearsHostRegisters := by
  intro p n
  unfold hostReg
  split
  · exact (by decide : Status.word { state := .idle, empty := false, degen := false } = 0)
  all_goals rfl

/-- Settles O10: the reset is taken before the step asks whether a command runs, and its registers are those of O9. -/
theorem resetActsAtAnyTime : Obligations.ResetActsAtAnyTime := by
  intro s rest hq
  exact ⟨externalReset { s with hostQueue := rest }, by rw [step, hq], resetClearsHostRegisters s.params, rfl, rfl⟩

theorem hostReg_beyond (s : State) {n : Nat} (h : n = 0 ∨ 11 ≤ n) : hostReg s n = 0 := by
  rcases h with rfl | h
  · rfl
  · obtain ⟨k, rfl⟩ := Nat.exists_eq_add_of_le' h
    rfl

/-- The fields of `STATUS` as the host reads them (R24). -/
theorem status_word_fields (t : Status) :
    t.word.toNat < 16 ∧ t.word.setWidth 2 = t.state.code ∧ t.word.getLsbD 2 = t.empty ∧ t.word.getLsbD 3 = t.degen := by
  obtain ⟨state, empty, degen⟩ := t
  cases state <;> cases empty <;> cases degen <;> decide

/-- Settles O11: a read is `hostReg` (R22), a write other than of `CMD` is `hostRegWrite_eq`. -/
theorem hostRegisterAccess : Obligations.HostRegisterAccess := by
  intro s n rest hidle
  have hwide {k : Nat} (x : BitVec k) (hk : k ≤ 32) : (x.setWidth 32).toNat = x.toNat :=
    BitVec.toNat_setWidth_of_le hk
  refine ⟨fun hq => ⟨hostReg s n, step_host hidle hq, hostReg_beyond s, ?_⟩, fun w hn hq => ?_⟩
  · refine ⟨?_, ?_, ?_, ?_, ?_, ?_, ?_, ?_, ?_, ?_⟩ <;> rintro rfl
    · exact status_word_fields s.status
    · exact hwide s.err.code (by decide)
    · exact hwide s.errSub.code (by decide)
    · rfl
    · rfl
    · rfl
    · exact hwide s.pad (by decide)
    · exact hwide s.entryCnt (by decide)
    · rfl
    · exact hwide s.phase (by decide)
  · obtain ⟨k, rfl⟩ := Nat.exists_eq_succ_of_ne_zero hn
    rw [step_host hidle hq]
    exact congrArg _ (hostRegWrite_eq _ _ _)

end Sys2Proof
end

section
/-! PROOFS. The state invariant (R24, R27, R60, R221, R222, R227, R231): it holds after reset, and every step keeps it. -/

namespace Sys2Proof
open Machine

/-! ## The moves between operations -/

theorem Inv.outWithin {s : State} (h : Inv s) : OutWithin s := ⟨h.outForm, h.outBound, h.outFits⟩

/-- Settles O15: the buffers are empty, and the registers 0. -/
theorem invariantHoldsAtReset : Obligations.InvariantHoldsAtReset := by
  intro p
  obtain ⟨hin, hout⟩ := Memory.wf_reset p
  exact {
    inForm := hin
    outForm := hout
    inBound := fun c hc => absurd hc List.not_mem_nil
    outBound := fun c hc => absurd hc List.not_mem_nil
    outFits := zero_le_word _
    quiet := fun _ => ⟨rfl, rfl⟩
    running := fun _ => ⟨rfl, rfl⟩
    failed := fun h => nomatch h
    clean := fun _ => ⟨rfl, rfl⟩
    kind := rfl }

/-- The invariant says nothing of the host's list and its read latch, and of IN only that it is within its capacity. -/
theorem Inv.withHost {s : State} (h : Inv s) (q : List HostAction) (r : Word) (n : Word) {m : Memory} (hform : m.wf)
    (hbound : ∀ c ∈ m, c.1 < s.params.inCap.toNat) :
    Inv { s with inMem := m, inLen := n, hostQueue := q, hostRead := r } :=
  { h with inForm := hform, inBound := hbound }

theorem inv_externalReset {s : State} : Inv (externalReset s) :=
  have h := invariantHoldsAtReset s.params
  { h with }

/-- Error entry with a named sub-cause establishes what the invariant says of an error (R231). -/
theorem Inv.raise {s : State} (h : Inv s) {sub : ErrSub} (hsub : sub ≠ .none) (info : Word) :
    Inv (raise sub info s) where
  inForm := h.inForm
  outForm := List.Pairwise.nil
  inBound := h.inBound
  outBound _ hc := absurd hc List.not_mem_nil
  outFits := zero_le_word _
  quiet _ := ⟨rfl, rfl⟩
  running hb := nomatch hb
  failed _ := ⟨rfl, rfl, rfl, hsub⟩
  clean hne := absurd rfl hne
  kind := rfl

/-- The prologue makes a running command's flags and error registers (R206). -/
theorem Inv.prologue {s : State} (h : Inv s) : Inv (prologue s) where
  inForm := h.inForm
  outForm := h.outForm
  inBound := h.inBound
  outBound := h.outBound
  outFits := zero_le_word _
  quiet hne := absurd rfl hne
  running _ := ⟨rfl, rfl⟩
  failed he := nomatch he
  clean _ := ⟨rfl, rfl⟩
  kind := rfl

/-- While a command runs, the invariant says nothing of `PHASE`, of the result registers and of the internal ones. -/
theorem Inv.of_commandPart {s t : State} (h : Inv s) (hbusy : s.status.state = .busy)
    (hpart : commandPart t = commandPart s) (hout : OutWithin t) : Inv t ∧ t.status.state = .busy := by
  have hhost : hostPart t = hostPart s := congrArg CommandPart.host hpart
  have hstatus : t.status = s.status := congrArg CommandPart.status hpart
  have hsub : t.errSub = s.errSub := congrArg CommandPart.errSub hpart
  have hmem : t.inMem = s.inMem := congrArg HostPart.inMem hhost
  have hparams : t.params = s.params := congrArg HostPart.params hhost
  have htbusy : t.status.state = .busy := hstatus ▸ hbusy
  have hclean := h.clean (hbusy ▸ RunState.noConfusion)
  refine ⟨{
    inForm := hmem ▸ h.inForm
    outForm := hout.form
    inBound := by rw [hmem, hparams]; exact h.inBound
    outBound := hout.bound
    outFits := hout.fits
    quiet := fun hne => absurd htbusy hne
    running := fun _ => hstatus ▸ h.running hbusy
    failed := fun he => nomatch htbusy.symm.trans he
    clean := fun _ => ⟨hsub.trans hclean.1, (congrArg CommandPart.errInfo hpart).trans hclean.2⟩
    kind := by rw [hsub, ← h.kind]; exact congrArg CommandPart.err hpart }, htbusy⟩

/-- The epilogue of a command that has succeeded, whatever its flags (R207). -/
theorem Inv.epilogue {s : State} (h : Inv s) (hbusy : s.status.state = .busy) (e d : Bool) :
    Inv (epilogue ((s.setEmpty e).setDegen d)) where
  inForm := h.inForm
  outForm := Memory.wf_below h.outForm _
  inBound := h.inBound
  outBound c hc := h.outBound c (Memory.mem_below.mp hc).1
  outFits := h.outFits
  quiet _ := ⟨rfl, rfl⟩
  running hb := nomatch hb
  failed he := nomatch he
  clean _ := h.clean (hbusy ▸ RunState.noConfusion)
  kind := h.kind

section
variable {s : State} (h : Inv s) (hbusy : s.status.state = .busy)
include h hbusy

theorem Inv.finishCompress : Inv (finishCompress s) := by
  have hstatus : s.setEmpty false = s := by
    rw [State.setEmpty, ← (h.running hbusy).1]
  rw [Machine.finishCompress, ← congrArg (State.setDegen · _) hstatus]
  exact h.epilogue hbusy _ _

theorem Inv.finishWithEmpty (e : Bool) : Inv (Machine.epilogue (s.setEmpty e)) := by
  have hstatus : (s.setEmpty e).setDegen false = s.setEmpty e := by
    rw [State.setDegen, setEmpty_status, ← (h.running hbusy).2]
    rfl
  rw [← hstatus]
  exact h.epilogue hbusy _ _

/-- Whatever the sequencer does after an operation keeps the invariant (R27, R200, R202). -/
theorem Inv.followed (i : Instr) : Inv (followed i s) := by
  have hmove {t : State} (hpart : commandPart t = commandPart s) (hout : outPart t = outPart s) : Inv t :=
    (h.of_commandPart hbusy hpart
      (h.outWithin.congr (congrArg (fun c => c.host.params) hpart) hout)).1
  cases i with
  | payloadWrite => exact h.finishCompress hbusy
  | unpack => exact h.finishWithEmpty hbusy _
  | hdrWrite =>
    rw [Machine.followed]
    split_ifs
    · exact h.finishWithEmpty hbusy _
    · exact hmove rfl rfl
  | pqExtractMin =>
    rw [Machine.followed]
    split
    · exact hmove rfl rfl
    · exact hmove rfl rfl
  | compress | decompress => exact h
  | freq | build | pqInit | pqInsert | merge | gencodes | pack | hdrRead | rmapBuild | unpackBit => exact hmove rfl rfl

end

/-! ## The operations -/

/-- The invariant holds in every next state that the outcome answers. -/
def AnswersInv (o : Result) : Prop := ∀ t, o = .next t → Inv t

theorem AnswersInv.next {t : State} (h : Inv t) : AnswersInv (.next t) := by
  rintro _ ⟨⟩
  exact h

/-- A unit operation keeps the invariant of a running command, and the command goes on with it. -/
theorem Answers.thenBusy {s : State} {o : Result} {k : State → Result} (ho : Answers s (WritesOut s) o) (h : Inv s)
    (hbusy : s.status.state = .busy) (hk : ∀ t, Inv t → t.status.state = .busy → AnswersInv (k t)) :
    AnswersInv (thenBusy o k) := by
  have hinv {t : State} (ht : o = .next t) : Inv t := by
    rcases ho t ht with hkeep | ⟨sub, info, hsub, rfl⟩
    · exact (h.of_commandPart hbusy hkeep.1 (hkeep.2 h.outWithin)).1
    · exact h.raise hsub info
  intro t ht
  rcases thenBusy_next ht with ⟨hrun, -⟩ | ⟨u, hrun, hubusy, hu⟩
  · exact hinv hrun
  · exact hk u (hinv hrun) hubusy t hu

/-- A command keeps the invariant if it does after its prologue (R206). -/
theorem Inv.withPrologue {s : State} (h : Inv s) {body : State → Result}
    (hbody : ∀ t, Inv t → t.status.state = .busy → AnswersInv (body t)) : AnswersInv (withPrologue s body) := by
  by_cases hcap : s.params.inCap < s.inLen
  · rw [withPrologue_inRange hcap]
    exact .next (h.prologue.raise ErrSub.noConfusion 0)
  · rw [withPrologue_body (BitVec.not_lt.mp hcap)]
    exact hbody _ h.prologue rfl

theorem Inv.compressBody {s : State} (h : Inv s) (hbusy : s.status.state = .busy) : AnswersInv (compressBody s) := by
  rw [Machine.compressBody]
  split_ifs
  · have hempty := h.of_commandPart (t := emptyInput s) hbusy rfl (h.outWithin.congr rfl rfl)
    exact (answers_execHdrWrite _).thenBusy hempty.1 hempty.2 fun t ht hb => .next (ht.finishWithEmpty hb true)
  · refine (answers_exec_unit s (i := .freq) rfl).thenBusy h hbusy fun s h hbusy => ?_
    refine (answers_exec_unit s (i := .build) rfl).thenBusy h hbusy fun s h hbusy => ?_
    refine (answers_exec_unit s (i := .gencodes) rfl).thenBusy h hbusy fun s h hbusy => ?_
    refine (answers_exec_unit s (i := .pack) rfl).thenBusy h hbusy fun s h hbusy => ?_
    refine (answers_execHdrWrite s).thenBusy h hbusy fun s h hbusy => ?_
    exact (answers_execPayloadWrite s).thenBusy h hbusy fun s h hbusy => .next (h.finishCompress hbusy)

theorem Inv.decompressBody {s : State} (h : Inv s) (hbusy : s.status.state = .busy) :
    AnswersInv (decompressBody s) := by
  refine (answers_exec_unit s (i := .hdrRead) rfl).thenBusy h hbusy fun s h hbusy => ?_
  refine (answers_exec_unit s (i := .rmapBuild) rfl).thenBusy h hbusy fun s h hbusy => ?_
  exact (answers_execUnpack s).thenBusy h hbusy fun s h hbusy => .next (h.finishWithEmpty hbusy _)

/-- A command keeps the invariant. -/
theorem Inv.exec_command {s : State} (h : Inv s) {i : Instr} (hi : i.format = .cmd) : AnswersInv (exec i s) := by
  cases i with
  | compress => exact h.withPrologue fun _ => Inv.compressBody
  | decompress => exact h.withPrologue fun _ => Inv.decompressBody
  | _ => exact absurd hi (by decide)

/-! ## The steps -/

/-- A small step of a running command. -/
theorem Inv.busyStep {s : State} (h : Inv s) (hbusy : s.status.state = .busy) : AnswersInv (busyStep s) := by
  have hadvance (i : Instr) {o : Result} (ho : Answers s (WritesOut s) o) : AnswersInv (advance i o) :=
    ho.thenBusy h hbusy fun t ht hb => .next (ht.followed hb i)
  have htree {f : Internals → Run Internals} (hf : OnlyNamed (f s.int)) :
      Answers s (WritesOut s) (onInternals 0x20#8 s f) := (answers_onInternals _ hf).mono fun _ => LeavesOut.writesOut
  rw [Machine.busyStep]
  split
  · exact hadvance _ (htree (onlyNamed_buildAfterInit s.int))
  · exact hadvance _ (htree (onlyNamed_buildFromLoop s.int))
  · exact hadvance _ (answers_unpackResume s)
  · split
    · exact hadvance _ (answers_exec_unit s (format_of_decode ‹_›))
    · exact fun t ht => nomatch ht

/-- An action of the host while no command runs. -/
theorem Inv.hostStep {s : State} (h : Inv s) (x : HostAction) : AnswersInv (hostStep x s) := by
  cases x with
  | writeIn a b =>
    rw [Machine.hostStep, hostWriteIn]
    split_ifs with ha
    · refine .next (h.withHost _ _ _ (Memory.wf_write h.inForm _ _) fun c hc => ?_)
      rcases Memory.mem_write hc with rfl | hc
      · exact BitVec.lt_def.mp ha
      · exact h.inBound c hc
    · exact fun t ht => nomatch ht
  | writeReg n v =>
    cases n with
    | zero =>
      rw [Machine.hostStep, writeCommand]
      split
      · exact h.exec_command (format_of_decode ‹_›)
      · exact .next (h.prologue.raise ErrSub.noConfusion _)
    | succ n =>
      refine .next ?_
      rw [hostRegWrite_eq]
      exact h.withHost _ _ _ h.inForm h.inBound
  | readReg n => exact .next (h.withHost _ _ _ h.inForm h.inBound)
  | readIn a | readOut a =>
    rw [Machine.hostStep]
    split_ifs
    · exact .next (h.withHost _ _ _ h.inForm h.inBound)
    · exact fun t ht => nomatch ht
  | move =>
    rw [Machine.hostStep, hostMove]
    split_ifs with hlong
    · exact fun t ht => nomatch ht
    · refine .next (h.withHost _ _ _ (Memory.wf_writeBytes h.inForm _ _) fun c hc => ?_)
      rcases Memory.mem_writeBytes hc with ⟨-, hlt⟩ | hc
      · rw [length_outRead, Nat.zero_add] at hlt
        exact hlt.trans_le (BitVec.le_def.mp (BitVec.not_lt.mp hlong))
      · exact h.inBound c hc
  | reset => exact .next inv_externalReset

/-- All that a step can be: a reset, a small step of a running command, an action of the host, or nothing (R250 to
R253). -/
theorem step_cases {s t : State} (h : step s = .next t) :
    (∃ rest, t = externalReset { s with hostQueue := rest }) ∨
    (s.status.state = .busy ∧ busyStep s = .next t) ∨
    (s.status.state ≠ .busy ∧ t = s) ∨
    (s.status.state ≠ .busy ∧ ∃ x rest, s.hostQueue = x :: rest ∧ hostStep x { s with hostQueue := rest } = .next t) := by
  rw [step] at h
  split at h
  · cases h
    exact .inl ⟨_, rfl⟩
  · split_ifs at h with hbusy
    · exact .inr (.inl ⟨hbusy, h⟩)
    · split at h
      · cases h
        exact .inr (.inr (.inl ⟨hbusy, rfl⟩))
      · rename_i x rest hq
        exact .inr (.inr (.inr ⟨hbusy, x, rest, hq, h⟩))

/-- Settles O16: the four kinds of step (`step_cases`) each keep the invariant. -/
theorem everyStepKeepsTheInvariant : Obligations.EveryStepKeepsTheInvariant := by
  intro s t h hstep
  rcases step_cases hstep with ⟨rest, rfl⟩ | ⟨hbusy, hrun⟩ | ⟨-, rfl⟩ | ⟨-, x, rest, -, hrun⟩
  · exact inv_externalReset
  · exact h.busyStep hbusy t hrun
  · exact h
  · exact (h.withHost rest s.hostRead s.inLen h.inForm h.inBound).hostStep x t hrun

end Sys2Proof
end

section
/-! PROOFS. How a command ends (R25, R230, R231): with DONE, or with error entry. -/

namespace Sys2Proof
open Machine

/-- A next state that a command answers is DONE, or error entry with a named sub-cause. -/
def Ends (o : Result) : Prop :=
  ∀ t, o = .next t → t.status.state = .done ∨ ∃ sub info u, sub ≠ .none ∧ t = raise sub info u

theorem Ends.next_done {t : State} (h : t.status.state = .done) : Ends (.next t) := by
  rintro _ ⟨⟩
  exact .inl h

theorem Ends.next_raise {sub : ErrSub} (h : sub ≠ .none) (info : Word) (u : State) : Ends (.next (raise sub info u)) := by
  rintro _ ⟨⟩
  exact .inr ⟨sub, info, u, h, rfl⟩

/-- A unit operation of a running command ends the command by error entry only. -/
theorem Ends.thenBusy {s : State} {o : Result} {k : State → Result} (ho : Answers s (WritesOut s) o)
    (hbusy : s.status.state = .busy) (hk : ∀ t, t.status.state = .busy → Ends (k t)) : Ends (thenBusy o k) := by
  intro t ht
  rcases thenBusy_next ht with ⟨hrun, hended⟩ | ⟨u, -, hu, hrun⟩
  · rcases ho t hrun with hkeep | ⟨sub, info, hsub, rfl⟩
    · have hstatus : t.status = s.status := congrArg CommandPart.status hkeep.1
      exact absurd (hstatus ▸ hbusy) hended
    · exact .inr ⟨sub, info, s, hsub, rfl⟩
  · exact hk u hu t hrun

theorem Ends.withPrologue {s : State} {body : State → Result} (h : ∀ t, t.status.state = .busy → Ends (body t)) :
    Ends (withPrologue s body) := by
  by_cases hcap : s.params.inCap < s.inLen
  · rw [withPrologue_inRange hcap]
    exact .next_raise ErrSub.noConfusion _ _
  · rw [withPrologue_body (BitVec.not_lt.mp hcap)]
    exact h _ rfl

theorem ends_compressBody {s : State} (hbusy : s.status.state = .busy) : Ends (compressBody s) := by
  rw [compressBody]
  split_ifs
  · exact .thenBusy (answers_execHdrWrite (emptyInput s)) hbusy fun _ _ => .next_done rfl
  · refine .thenBusy (answers_exec_unit s (i := .freq) rfl) hbusy fun s hbusy => ?_
    refine .thenBusy (answers_exec_unit s (i := .build) rfl) hbusy fun s hbusy => ?_
    refine .thenBusy (answers_exec_unit s (i := .gencodes) rfl) hbusy fun s hbusy => ?_
    refine .thenBusy (answers_exec_unit s (i := .pack) rfl) hbusy fun s hbusy => ?_
    refine .thenBusy (answers_execHdrWrite s) hbusy fun s hbusy => ?_
    exact .thenBusy (answers_execPayloadWrite s) hbusy fun _ _ => .next_done rfl

theorem ends_decompressBody {s : State} (hbusy : s.status.state = .busy) : Ends (decompressBody s) := by
  refine .thenBusy (answers_exec_unit s (i := .hdrRead) rfl) hbusy fun s hbusy => ?_
  refine .thenBusy (answers_exec_unit s (i := .rmapBuild) rfl) hbusy fun s hbusy => ?_
  exact .thenBusy (answers_execUnpack s) hbusy fun _ _ => .next_done rfl

/-- Both commands end with DONE or by error entry, from any state. -/
theorem ends_exec_command {i : Instr} (hi : i.format = .cmd) (s : State) : Ends (exec i s) := by
  cases i with
  | compress => exact .withPrologue fun _ => ends_compressBody
  | decompress => exact .withPrologue fun _ => ends_decompressBody
  | _ => exact absurd hi (by decide)

/-- A write of `CMD`, of a code or not, ends with DONE or by error entry (R203). -/
theorem ends_writeCommand (v : Word) (s : State) : Ends (writeCommand v s) := by
  rw [writeCommand]
  split
  · exact ends_exec_command (format_of_decode ‹_›) s
  · exact .next_raise ErrSub.noConfusion _ _

theorem Ends.not_busy {o : Result} (h : Ends o) {t : State} (ht : o = .next t) : t.status.state ≠ .busy := by
  rcases h t ht with hdone | ⟨sub, info, u, -, rfl⟩
  · exact hdone ▸ RunState.noConfusion
  · exact RunState.noConfusion

/-- Settles O19: an operation leaves `STATE` as it was, ends the command with DONE, or is error entry. -/
theorem errorEntryIsComplete : Obligations.ErrorEntryIsComplete := by
  intro i s t hs h ht
  have hkeep := keepsHost_exec s i t h
  have hraise : ∃ sub info u, sub ≠ .none ∧ t = raise sub info u := by
    cases hi : i.format with
    | cmd =>
      refine (ends_exec_command hi s t h).resolve_left fun hdone => ?_
      cases hdone.symm.trans ht
    | phase =>
      rcases answers_exec_unit s hi t h with hw | ⟨sub, info, hsub, rfl⟩
      · have hstatus : t.status = s.status := congrArg CommandPart.status hw.1
        exact absurd (hstatus ▸ ht) hs
      · exact ⟨sub, info, s, hsub, rfl⟩
  obtain ⟨sub, info, u, hsub, rfl⟩ := hraise
  exact ⟨sub, info, hsub, raise_failed sub info u, congrArg HostPart.inMem hkeep, congrArg HostPart.inLen hkeep⟩

/-- An action of the host other than a command leaves `STATE`, but for the reset. -/
theorem hostStep_not_busy {x : HostAction} {s t : State} (hidle : s.status.state ≠ .busy)
    (h : hostStep x s = .next t) : t.status.state ≠ .busy := by
  cases x with
  | writeIn a b =>
    rw [hostStep, hostWriteIn] at h
    split_ifs at h
    cases h
    exact hidle
  | writeReg n v =>
    cases n with
    | zero => exact (ends_writeCommand v s).not_busy h
    | succ n =>
      rw [hostStep, hostRegWrite_eq] at h
      · cases h
        exact hidle
      · exact Nat.succ_ne_zero n
  | readReg n =>
    cases h
    exact hidle
  | readIn a | readOut a =>
    rw [hostStep] at h
    split_ifs at h
    cases h
    exact hidle
  | move =>
    rw [hostStep, hostMove] at h
    split_ifs at h
    cases h
    exact hidle
  | reset =>
    cases h
    exact RunState.noConfusion

/-- Settles O14: of the four kinds of step (`step_cases`), only a small step of a running command can leave BUSY. -/
theorem busyIsNeverSeen : Obligations.BusyIsNeverSeen := by
  intro s t hidle h
  rcases step_cases h with ⟨rest, rfl⟩ | ⟨hbusy, -⟩ | ⟨-, rfl⟩ | ⟨-, x, rest, -, hrun⟩
  · exact RunState.noConfusion
  · exact absurd hbusy hidle
  · exact hidle
  · exact hostStep_not_busy (s := { s with hostQueue := rest }) hidle hrun

end Sys2Proof
end

section
/-! PROOFS. HDR_READ accepts headers only (R163 to R167): each field that is read without an error stands in the input,
so the input begins with the header of the entries that were read. -/

namespace Sys2Proof
open Machine

/-! ## The fields that were read -/

theorem StandsAt.join {s : State} {a : Nat} {xs ys : List Byte} (hx : StandsAt s a xs)
    (hy : StandsAt s (a + xs.length) ys) : StandsAt s a (xs ++ ys) := by
  have hend := hy.2
  refine ⟨?_, by rw [List.length_append]; omega⟩
  rw [List.length_append, memRead_add, hx.1, hy.1]

theorem need_inv {s : State} {a k : Nat} {u : Unit} (h : need s a k = .ok u) : k ≤ s.inLen.toNat - a := by
  by_contra hlt
  cases (need_short (Nat.not_le.mp hlt)).symm.trans h

/-- An integer that was read stands in the input as its four bytes (R64, R89). -/
theorem standsAt_of_readInt {s : State} {a v : Nat} (h : readInt s a = .ok v) : StandsAt s a (u32 v) := by
  obtain ⟨_, hneed, -⟩ := bind_ok h
  have hroom := need_inv hneed
  cases (readInt_ok hroom).symm.trans h
  have hbytes : u32 (unU32 (memRead s a 4)) = memRead s a 4 := u32_unU32 _ _ _ _
  exact ⟨by rw [hbytes, length_memRead], by rw [length_u32]; omega⟩

/-- A code that was read stands in the input as its bit symbols (R90). -/
theorem standsAt_of_readCode {s : State} {a n : Nat} {c : Code} (h : readCode s a n = .ok c)
    (hlen : a + n ≤ s.inLen.toNat) : c.length = n ∧ StandsAt s a (c.map bitSymbol) := by
  induction n generalizing a c with
  | zero =>
    cases h
    exact ⟨rfl, rfl, hlen⟩
  | succ n ih =>
    rw [readCode] at h
    split at h
    · cases h
    · rename_i x hx
      obtain ⟨d, hd, h⟩ := bind_ok h
      cases h
      obtain ⟨hdlen, hdstands⟩ := ih hd (by omega)
      have hfirst : StandsAt s a [bitSymbol x] := by
        rw [bitSymbol_of_symbolBit hx]
        exact ⟨rfl, by simp only [List.length_singleton]; omega⟩
      exact ⟨by rw [List.length_cons, hdlen], hfirst.join hdstands⟩

/-- An entry that was read stands in the input; its byte value is new and its code has a legal length (R165). -/
theorem standsAt_of_readEntry {s : State} {a : Nat} {ct : ByteTable (Option Code)} {r : Nat × ByteTable (Option Code)}
    (h : readEntry s a ct = .ok r) :
    ∃ e : Byte × Code, StandsAt s a (entryBytes e) ∧ ¬ (byteGet ct e.1).isSome ∧ 1 ≤ e.2.length ∧ e.2.length ≤ 255 ∧
      r = (a + (entryBytes e).length, byteSet ct e.1 (some e.2)) := by
  rcases Nat.lt_or_ge s.inLen.toNat (a + 1) with hshort | hroom
  · cases (readEntry_truncated hshort).symm.trans h
  rw [readEntry_eq hroom] at h
  split_ifs at h with hnew
  obtain ⟨n, hn, h⟩ := bind_ok h
  rw [readCodeField] at h
  split_ifs at h with hbad
  obtain ⟨_, hneed, h⟩ := bind_ok h
  have hcode := need_inv hneed
  obtain ⟨h1, h255⟩ := not_or.mp hbad
  cases hc : readCode s (a + 5) n with
  | error e =>
    rw [hc] at h
    cases h
  | ok c =>
    rw [hc] at h
    cases h
    obtain ⟨rfl, hcstands⟩ := standsAt_of_readCode hc (by omega)
    have hbyte : StandsAt s a [s.inByte a] := ⟨rfl, hroom⟩
    have hstands : StandsAt s a (entryBytes (s.inByte a, c)) :=
      (hbyte.join (standsAt_of_readInt hn)).join hcstands
    refine ⟨(s.inByte a, c), hstands, hnew, Nat.pos_of_ne_zero h1, Nat.not_lt.mp h255, ?_⟩
    rw [length_entryBytes, ← Nat.add_assoc]

theorem GoodEntries.append {es : List (Byte × Code)} {e : Byte × Code} (h : GoodEntries es)
    (hnew : e.1 ∉ es.map Prod.fst) (h1 : 1 ≤ e.2.length) (h255 : e.2.length ≤ 255) : GoodEntries (es ++ [e]) := by
  obtain ⟨hnd, hlen⟩ := h
  refine ⟨?_, fun f hf => ?_⟩
  · rw [List.map_append, List.nodup_append']
    exact ⟨hnd, List.nodup_singleton _, fun b hb hb' => hnew (List.mem_singleton.mp hb' ▸ hb)⟩
  · rcases List.mem_append.mp hf with hf | hf
    · exact hlen f hf
    · cases List.mem_singleton.mp hf
      exact ⟨h1, h255⟩

/-- The entries that were read after good ones stand in the input, and all of them together are good. -/
theorem standsAt_of_readEntries {s : State} {n a : Nat} {es : List (Byte × Code)} {r : Nat × ByteTable (Option Code)}
    (h : readEntries s n a (tableOf es) = .ok r) (hgood : GoodEntries es) (ha : a ≤ s.inLen.toNat) :
    ∃ fs : List (Byte × Code), fs.length = n ∧ GoodEntries (es ++ fs) ∧ StandsAt s a (fs.flatMap entryBytes) ∧
      r = (a + (fs.flatMap entryBytes).length, tableOf (es ++ fs)) := by
  induction n generalizing a es with
  | zero =>
    cases h
    exact ⟨[], rfl, by rwa [List.append_nil], ⟨rfl, ha⟩, by rw [List.append_nil]; rfl⟩
  | succ n ih =>
    rw [readEntries_succ] at h
    obtain ⟨_, he, h⟩ := bind_ok h
    obtain ⟨e, hstands, hnew, h1, h255, rfl⟩ := standsAt_of_readEntry he
    rw [← tableOf_append] at h
    obtain ⟨fs, hlen, hgood', hrest, rfl⟩ := ih h
      (hgood.append (mt (isSome_byteGet_tableOf hgood.1 _).mpr hnew) h1 h255) hstands.2
    refine ⟨e :: fs, by rw [List.length_cons, hlen], by simpa using hgood', hstands.join hrest, ?_⟩
    rw [List.flatMap_cons, List.length_append, Nat.add_assoc, List.append_assoc]
    rfl

/-! ## HDR_READ -/

/-- HDR_READ that raises no error has read a header that stands in the input, and writes what it says (R163). -/
theorem execHdrRead_accepts {s t : State} (h : execHdrRead s = .next t) (hne : ¬ ∃ sub info, t = raise sub info s) :
    ∃ (pad : Nat) (es : List (Byte × Code)), pad ≤ 7 ∧ GoodEntries es ∧ StandsAt s 0 (headerBytes pad es.length es) ∧
      t = hdrReadEnd s pad es.length ((headerBytes pad es.length es).length, tableOf es) := by
  have hcap : s.inLen ≤ s.params.inCap := by
    by_contra hlong
    rw [execHdrRead, checkInput_beyond (BitVec.not_le.mp hlong)] at h
    cases h
  rw [execHdrRead_eq hcap] at h
  rcases settle_next h with h | ⟨sub, info, -, ht⟩
  swap
  · exact absurd ⟨sub, info, ht⟩ hne
  obtain ⟨pad, hpad, h⟩ := bind_ok h
  split_ifs at h with h7
  obtain ⟨n, hn, h⟩ := bind_ok h
  split_ifs at h with h256
  cases hr : readEntries s n 8 emptyTable with
  | error e =>
    rw [hr] at h
    cases h
  | ok r =>
    rw [hr] at h
    cases h
    have hfixed := (standsAt_of_readInt hpad).join (standsAt_of_readInt hn)
    obtain ⟨es, rfl, hgood, hstands, rfl⟩ :=
      standsAt_of_readEntries (es := []) hr ⟨List.nodup_nil, fun e he => absurd he List.not_mem_nil⟩ hfixed.2
    refine ⟨pad, es, Nat.not_lt.mp h7, hgood, hfixed.join hstands, ?_⟩
    rw [length_headerBytes, List.nil_append]

/-- Settles O37: the registers are those of the header that was read (`execHdrRead_accepts`), none of which can wrap. -/
theorem hdrReadAcceptsOnlyHeaders : Obligations.HdrReadAcceptsOnlyHeaders := by
  intro s t _ h ht
  obtain ⟨pad, es, h7, hgood, ⟨hread, hlen⟩, rfl⟩ := execHdrRead_accepts h (by
    rintro ⟨sub, info, rfl⟩
    exact ht rfl)
  have hcount := hgood.length_le
  have hlt := s.inLen.isLt
  have hhdr : (BitVec.ofNat 32 (headerBytes pad es.length es).length).toNat = (headerBytes pad es.length es).length :=
    Nat.mod_eq_of_lt (by omega)
  refine ⟨pad, es, h7, hgood, ?_, ?_, ?_, Nat.mod_eq_of_lt (by omega), Nat.mod_eq_of_lt (by omega), rfl⟩
  · exact (congrArg (memRead s 0) hhdr).trans hread
  · exact BitVec.le_def.mpr (hhdr.trans_le (by omega))
  · refine hhdr.trans ?_
    rw [length_headerBytes, List.length_flatMap]
    simp only [length_entryBytes]

/-! ## Every command ends (R230, R259) -/

/-- An operation answers a next state, no stop of the model. -/
def Responds (o : Result) : Prop := ∃ t, o = .next t

/-- An operation whose computation raises errors of the specification only always answers. -/
theorem OnlyReports.responds {x : Run State} (h : OnlyReports x) (s : State) : Responds (settle s x) := by
  cases x with
  | ok t => exact ⟨t, rfl⟩
  | error e =>
    cases e with
    | raised sub info => exact ⟨_, rfl⟩
    | fault r => exact absurd (h _ rfl) not_false
    | refuse r => exact absurd (h _ rfl) not_false

theorem Responds.thenBusy {o : Result} {k : State → Result} (ho : Responds o)
    (hk : ∀ t, o = .next t → t.status.state = .busy → Responds (k t)) : Responds (thenBusy o k) := by
  obtain ⟨t, rfl⟩ := ho
  by_cases hbusy : t.status.state = .busy
  · rw [thenBusy_busy hbusy]
    exact hk t rfl hbusy
  · rw [thenBusy_ended hbusy]
    exact ⟨t, rfl⟩

/-- COMPRESS always answers: its input has an encoding, which fits OUT or does not. -/
theorem responds_execCompress (s : State) : Responds (execCompress s) := by
  by_cases hcap : s.params.inCap < s.inLen
  · exact ⟨_, withPrologue_inRange hcap _⟩
  have hcap := BitVec.not_lt.mp hcap
  obtain ⟨c, hc⟩ := encodingOf_run (length_inputBytes_lt s)
  rcases Nat.lt_or_ge s.params.outCap.toNat
    ((c.header (inputBytes s)).length + c.payloadLength (inputBytes s)) with hfull | hfit
  · obtain ⟨t, hrun, -⟩ := execCompress_full hcap hc hfull
    exact ⟨t, hrun⟩
  · obtain ⟨t, hrun, -⟩ := execCompress_run hcap hc hfit
    exact ⟨t, hrun⟩

/-- UNPACK answers when the input is within IN and the header within the input, as R182 requires. -/
theorem responds_execUnpack {s : State} (hcap : s.inLen ≤ s.params.inCap) (hhdr : s.hdrLen ≤ s.inLen) :
    Responds (execUnpack s) := by
  rw [execUnpack_eq, if_neg (BitVec.not_lt.mpr hcap), if_neg (BitVec.not_lt.mpr hhdr)]
  split_ifs
  · exact ⟨_, rfl⟩
  · exact (onlyReports_unpackFromLoop _).responds s

theorem responds_execHdrRead {s : State} (hcap : s.inLen ≤ s.params.inCap) : Responds (execHdrRead s) := by
  rw [execHdrRead_eq hcap]
  exact (onlyReports_hdrRead s).responds s

theorem responds_execRmapBuild (s : State) : Responds (execRmapBuild s) :=
  OnlyReports.responds (.bind (.bind (.foldlM onlyReports_mapEntry _ _) fun _ _ => .ok _) fun _ _ => .ok _) s

/-- DECOMPRESS always answers: the header that HDR_READ has accepted ends within the input. -/
theorem responds_execDecompress (s : State) : Responds (execDecompress s) := by
  by_cases hcap : s.params.inCap < s.inLen
  · exact ⟨_, withPrologue_inRange hcap _⟩
  have hcap := BitVec.not_lt.mp hcap
  rw [execDecompress, withPrologue_body hcap]
  refine (responds_execHdrRead (s := prologue s) hcap).thenBusy fun u hu hubusy => ?_
  have huerr : u.status.state ≠ .error := hubusy ▸ RunState.noConfusion
  obtain ⟨-, -, -, -, -, hhdr, -⟩ := hdrReadAcceptsOnlyHeaders (prologue s) u RunState.noConfusion hu huerr
  have hukeep := keepsHost_execHdrRead (prologue s) u hu
  refine (responds_execRmapBuild u).thenBusy fun v hv hvbusy => ?_
  have hvframe := (execRmapBuild_next hv).resolve_right (by
    rintro ⟨sub, info, rfl⟩
    cases hvbusy)
  have hulen : u.inLen = s.inLen := congrArg HostPart.inLen hukeep
  have huparams : u.params = s.params := congrArg HostPart.params hukeep
  refine (responds_execUnpack ?_ ?_).thenBusy fun w _ _ => ⟨_, rfl⟩
  · rw [hvframe]
    exact hulen.symm ▸ huparams.symm ▸ hcap
  · rw [hvframe]
    exact hulen.symm ▸ hhdr

/-- Settles O53: both commands answer, an illegal code is error entry, and all end with DONE or ERROR
(`ends_writeCommand`). -/
theorem everyCommandEnds : Obligations.EveryCommandEnds := by
  intro s v rest hidle hq
  have hanswer : ∃ t, writeCommand v { s with hostQueue := rest } = .next t ∧ t.hostQueue = rest := by
    rw [writeCommand]
    split
    · rename_i i hi
      have hresponds : Responds (exec i { s with hostQueue := rest }) := by
        have hformat := format_of_decode hi
        cases i with
        | compress => exact responds_execCompress _
        | decompress => exact responds_execDecompress _
        | _ => exact absurd hformat (by decide)
      obtain ⟨t, ht⟩ := hresponds
      exact ⟨t, ht, congrArg HostPart.hostQueue (keepsHost_exec _ i t ht)⟩
    · exact ⟨_, rfl, rfl⟩
  obtain ⟨t, ht, hrest⟩ := hanswer
  refine ⟨t, (step_host hidle hq).trans ht, ?_, hrest⟩
  rcases ends_writeCommand v _ t ht with hdone | ⟨sub, info, u, -, rfl⟩
  · exact .inl hdone
  · exact .inr rfl

end Sys2Proof
end

section
/-! PROOFS. The primitives of the TreeBuilder run by themselves (R122 to R125, R128), and the codes of a tree with an
internal root (R146, R147). -/

namespace Sys2Proof
open Machine

/-! ## PQ_INIT (R122) -/

/-- PQ_INSERT changes the heap only, so PQ_INIT leaves the second operand and the result register. -/
theorem addLeaf_registers {m k : Internals} {e : Byte × Word} (h : addLeaf m e = .ok k) :
    k.opB = m.opB ∧ k.res = m.res := by
  rw [(pqInsert_ok h).2]
  exact ⟨rfl, rfl⟩

theorem foldlM_addLeaf_registers {es : List (Byte × Word)} {m k : Internals} (h : es.foldlM addLeaf m = .ok k) :
    k.opB = m.opB ∧ k.res = m.res := by
  induction es generalizing m with
  | nil =>
    cases h
    exact ⟨rfl, rfl⟩
  | cons e es ih =>
    obtain ⟨l, hl, h⟩ := bind_ok h
    obtain ⟨hopB, hres⟩ := addLeaf_registers hl
    exact ⟨(ih h).1.trans hopB, (ih h).2.trans hres⟩

/-- Settles O21: PQ_INIT makes a forest of leaves (`pqInit_run`), in the order of the byte values. -/
theorem pqInitMakesTheLeaves : Obligations.PqInitMakesTheLeaves := by
  intro s
  obtain ⟨k, hrun, hb, hlen, hframe⟩ := pqInit_run s.int
  obtain ⟨hnode, hheap⟩ := hb.leaves_only hlen
  obtain ⟨hopB, hres⟩ := foldlM_addLeaf_registers hrun
  have hcount : k.node.length = (occurring s.int.freq).length := by rw [hnode, List.length_map]
  have h256 := length_occurring_le s.int.freq
  refine ⟨{ s with int := k, phase := 0x21#8 }, onInternals_ok hrun, ?_, ?_, hb.heap, ?_⟩
  · refine hnode.trans ?_
    rw [occurring_eq, List.map_map]
    rfl
  · refine (hheap.map BitVec.toNat).trans (List.Perm.of_eq ?_)
    rw [List.map_map]
    refine (List.map_congr_left fun i hi => ?_).trans (List.map_id _) |>.trans (congrArg List.range hcount.symm)
    rw [List.mem_range] at hi
    exact Nat.mod_eq_of_lt (show i < 2 ^ 9 by omega)
  · have hk : k = { s.int with node := k.node, nodeRest := k.nodeRest, heap := k.heap, opA := k.opA } := by
      refine Eq.trans hframe ?_
      rw [hopB, hres]
    exact congrArg (fun m => { s with int := m, phase := 0x21#8 }) hk

/-! ## PQ_INSERT, PQ_EXTRACT_MIN and MERGE (R123 to R125) -/

/-- Settles O22: PQ_INSERT rearranges the heap with the new node (`pqInsert_run`), into a min-heap if it was one
(`pqInsert_heapInv`). -/
theorem pqInsertKeepsTheHeap : Obligations.PqInsertKeepsTheHeap := by
  intro s
  refine ⟨fun hnew hroom => ?_, fun hempty => ?_⟩
  · have hrun := pqInsert_run hroom hnew
    refine ⟨_, onInternals_ok hrun, (pqInsert_ok hrun).1, fun h ha => ?_, rfl⟩
    obtain ⟨hp, hrun', -, hinv⟩ := pqInsert_heapInv h ha hroom hnew
    cases hrun.symm.trans hrun'
    exact hinv
  · refine onInternals_ok ?_
    rw [pqInsert_run (by rw [hempty]; decide) (by rw [hempty]; exact List.not_mem_nil), hempty]
    rfl

/-- Settles O23: PQ_EXTRACT_MIN takes the top out of the heap (`pqExtractMin_ok`), which in a min-heap is the least
(`pqExtractMin_heapInv`). -/
theorem pqExtractMinTakesTheLeast : Obligations.PqExtractMinTakesTheLeast := by
  intro s hne
  obtain ⟨k, hrun⟩ := pqExtractMin_run hne
  obtain ⟨hperm, htop, hframe⟩ := pqExtractMin_ok hrun
  refine ⟨{ s with int := k, phase := 0x23#8 }, onInternals_ok hrun, hperm, htop, fun h => ?_,
    congrArg (fun m => { s with int := m, phase := 0x23#8 }) hframe⟩
  obtain ⟨r, hp, hrun', -, hleast, hinv⟩ := pqExtractMin_heapInv h hne
  cases hrun.symm.trans hrun'
  exact ⟨hleast, hinv⟩

/-- Settles O24: MERGE adds one node (`merge_run`), with the sum of two allocated nodes when it does not wrap. -/
theorem mergeMakesTheParent : Obligations.MergeMakesTheParent := by
  intro s hroom
  refine ⟨_, _, _, onInternals_ok (merge_run hroom), fun x y hx hy hsum => ?_, Nat.mod_eq_of_lt (by omega), rfl⟩
  rw [nodeAt_of_getElem? hx, nodeAt_of_getElem? hy, BitVec.toNat_add, Nat.mod_eq_of_lt hsum]

/-! ## Refusals (R123, R124, R128, R182, R183) -/

/-- An operation on the internal registers that is refused changes nothing. -/
theorem onInternals_refused {code : Byte} {s : State} {f : Internals → Run Internals} {r : Refusal}
    (h : f s.int = .error (.refuse r)) : onInternals code s f = .refused r := by
  rw [onInternals, h]
  rfl

/-- Without a counter that is not 0 no byte value occurs (R128). -/
theorem occurring_eq_nil {f : ByteTable Word} (h : ∀ b, byteGet f b = 0) : occurring f = [] :=
  List.eq_nil_iff_forall_not_mem.mpr fun e he => by
    obtain ⟨hcount, hne⟩ := mem_occurring.mp he
    exact hne (hcount.trans (h e.1))

/-- Settles O28: each precondition is the first check that its operation makes. -/
theorem preconditionsAreRefused : Obligations.PreconditionsAreRefused := by
  intro s
  refine ⟨fun h => onInternals_refused ?_, fun h => onInternals_refused ?_, fun h => onInternals_refused ?_,
    fun hroom hmem => onInternals_refused ?_, fun hcap hhdr => ?_, fun hbit => ?_, fun hbit hfull => ?_⟩
  · exact if_pos (occurring_eq_nil h)
  · rw [pqExtractMin, h]
    rfl
  · exact if_pos h
  · rw [pqInsert, if_neg (show ¬ Config.heapCap ≤ s.int.heap.length from Nat.not_le.mpr hroom), if_pos hmem]
    rfl
  · exact (execUnpack_eq s).trans (by rw [if_neg (BitVec.not_lt.mpr hcap), if_pos hhdr])
  · exact (execUnpackBit_checks s).trans (if_pos hbit)
  · exact (execUnpackBit_checks s).trans (by rw [if_neg (BitVec.not_le.mpr hbit), if_pos hfull])

/-! ## A tree with an internal root (R146, R147) -/

/-- A tree whose root is an internal node is one with two subtrees. -/
theorem IsTree.of_inner {node : List Node} {n : NodeIdx} {t : CountTree} (h : IsTree node n t) {f : Word}
    {l r : NodeIdx} (hn : node[n.toNat]? = some (.inner f l r)) : ∃ u v, t = .node u v := by
  cases t with
  | leaf e => cases hn.symm.trans h
  | node u v => exact ⟨u, v, rfl⟩

/-- Settles O31: the codes are the paths of a tree with two leaves or more, of which none begins another one
(`CountTree.eq_of_prefix`), and which have less bits than the tree has leaves (`CountTree.length_paths`). -/
theorem codesArePrefixFree : Obligations.CodesArePrefixFree := by
  intro s f l r h hd hroot
  obtain ⟨t, hF⟩ := h.forest
  obtain ⟨u, v, rfl⟩ := hF.isTree_root.of_inner hroot
  have hcard := hF.length_add_card
  have hsize := h.size
  have hperm := hF.leaves_perm
  rw [Multiset.card_singleton] at hcard
  have h256 : (CountTree.node u v).leaves.length ≤ 256 := by
    rw [hperm.length_eq]
    omega
  have hnd : ((codesOf ((CountTree.node u v).paths [])).map Prod.fst).Nodup :=
    (map_fst_codesOf ((CountTree.map_fst_paths _ []).symm ▸ hperm)).nodup_iff.mpr h.nodup_symbols
  refine ⟨_, execGencodes_run (codeTable_tree hF.isTree_root hd h256),
    prefixFree_tableOf_codesOf hnd fun d e p q => CountTree.eq_of_prefix, fun b p hp => ?_⟩
  obtain ⟨g, hpath⟩ := mem_codesOf.mp ((byteGet_tableOf hnd).mp hp)
  have hlt : p.length < 0 + (CountTree.node u v).leaves.length := (CountTree.length_paths hpath).2
  refine ⟨List.length_pos_of_ne_nil fun hnil => ?_, by omega⟩
  subst hnil
  exact CountTree.nil_notMem_paths_node hpath

end Sys2Proof
end

section
/-! PROOFS. The heap is one realisation of the key order (R129): the builder that scans a list for the least key takes
the same two nodes in every turn, since the least node of a set is determined. -/

namespace Sys2Proof
open Machine

/-- Between allocated nodes the order of the scanning builder is the order of the keys. -/
theorem keyBefore_iff {m : Internals} {a b : NodeIdx} (ha : a.toNat < m.node.length) (hb : b.toNat < m.node.length) :
    keyBefore m a b = true ↔ keyOf m a < keyOf m b := by
  have ea := List.getElem?_eq_getElem ha
  have eb := List.getElem?_eq_getElem hb
  rw [← keyLess_iff, keyBefore, keyLess, ea, eb, nodeAt_of_getElem? ea, nodeAt_of_getElem? eb]

/-- The scan finds a node of the set, and none has a lower key. -/
theorem leastNode_spec {m : Internals} {n : NodeIdx} {rest : List NodeIdx}
    (hin : ∀ k ∈ n :: rest, k.toNat < m.node.length) :
    leastNode m n rest ∈ n :: rest ∧ ∀ k ∈ n :: rest, keyOf m (leastNode m n rest) ≤ keyOf m k := by
  induction rest generalizing n with
  | nil =>
    refine ⟨List.mem_singleton_self n, fun k hk => ?_⟩
    rw [List.mem_singleton.mp hk]
    exact Nat.le_refl _
  | cons c rest ih =>
    obtain ⟨hn, hc⟩ : n.toNat < m.node.length ∧ c.toNat < m.node.length := ⟨hin n (by simp), hin c (by simp)⟩
    have hbetter := keyBefore_iff hc hn
    rw [leastNode, List.foldl_cons]
    split_ifs with hlt
    · obtain ⟨hmem, hle⟩ := ih (n := c) fun k hk => hin k (List.mem_cons_of_mem n hk)
      refine ⟨List.mem_cons_of_mem n hmem, fun k hk => ?_⟩
      rcases List.mem_cons.mp hk with rfl | hk
      · exact (hle c List.mem_cons_self).trans (hbetter.mp hlt).le
      · exact hle k hk
    · obtain ⟨hmem, hle⟩ := ih (n := n) fun k hk => hin k (by
        rcases List.mem_cons.mp hk with rfl | hk
        · exact List.mem_cons_self
        · exact List.mem_cons_of_mem n (List.mem_cons_of_mem c hk))
      refine ⟨?_, fun k hk => ?_⟩
      · rcases List.mem_cons.mp hmem with heq | hmem
        · exact List.mem_cons.mpr (.inl heq)
        · exact List.mem_cons_of_mem n (List.mem_cons_of_mem c hmem)
      · rcases List.mem_cons.mp hk with rfl | hk
        · exact hle k List.mem_cons_self
        · rcases List.mem_cons.mp hk with rfl | hk
          · exact (hle n List.mem_cons_self).trans (Nat.not_lt.mp (mt hbetter.mpr hlt))
          · exact hle k (List.mem_cons_of_mem n hk)

/-- The node that the scan finds is in the set once, and precedes all others. -/
theorem leastNode_precedes {m : Internals} {n : NodeIdx} {rest : List NodeIdx}
    (hin : ∀ k ∈ n :: rest, k.toNat < m.node.length) (hnd : (n :: rest).Nodup) :
    (n :: rest).Perm (leastNode m n rest :: (n :: rest).erase (leastNode m n rest)) ∧
      ∀ k ∈ (n :: rest).erase (leastNode m n rest), Precedes m (leastNode m n rest) k := by
  obtain ⟨hmem, hle⟩ := leastNode_spec hin
  refine ⟨List.perm_cons_erase hmem, fun k hk => ?_⟩
  obtain ⟨hne, hk⟩ := (hnd.mem_erase_iff).mp hk
  rw [precedes_iff (hin _ hmem) (hin k hk)]
  exact lt_of_le_of_ne (hle k hk) fun heq => hne (keyOf_inj heq).symm

/-- The registers in which the scanning builder looks up the keys. -/
def scanRegisters (node : List Node) : Internals := { Internals.reset with node := node }

/-- One turn of the scanning builder merges the node that precedes all others and the one that precedes the rest. -/
theorem scanLoop_merge {f : Nat} {node : List Node} {L rest : List NodeIdx} {a b : NodeIdx} {x y : Node}
    (hin : ∀ n ∈ L, n.toNat < node.length) (hnd : L.Nodup) (hperm : L.Perm (a :: b :: rest))
    (ha : ∀ n ∈ b :: rest, Precedes (scanRegisters node) a n) (hb : ∀ n ∈ rest, Precedes (scanRegisters node) b n)
    (hx : node[a.toNat]? = some x) (hy : node[b.toNat]? = some y) :
    ∃ others, others.Perm rest ∧ scanLoop (f + 1) node L =
      scanLoop f (node ++ [.inner (x.freq + y.freq) a b]) (BitVec.ofNat 9 node.length :: others) := by
  have hlen := hperm.length_eq
  match L, hlen with
  | n :: k :: L, _ =>
    obtain ⟨hfirst, hleast⟩ := leastNode_precedes (m := scanRegisters node) hin hnd
    obtain ⟨hA, hrest⟩ := least_unique rfl (hfirst.symm.trans hperm) hleast ha
    rw [hA] at hrest hfirst
    obtain ⟨h, others, hothers⟩ : ∃ h others, (n :: k :: L).erase a = h :: others :=
      List.exists_cons_of_length_pos (hrest.length_eq ▸ Nat.succ_pos _)
    rw [hothers] at hrest hfirst
    have hsub : ∀ c ∈ h :: others, c ∈ n :: k :: L := fun c hc => hfirst.mem_iff.mpr (List.mem_cons_of_mem a hc)
    obtain ⟨hsecond, hleast'⟩ := leastNode_precedes (m := scanRegisters node) (fun c hc => hin c (hsub c hc))
      (List.nodup_cons.mp (hfirst.nodup_iff.mp hnd)).2
    obtain ⟨hB, hlast⟩ := least_unique rfl (hsecond.symm.trans hrest) hleast' hb
    rw [hB] at hlast
    refine ⟨_, hlast, ?_⟩
    rw [scanRegisters] at hA hB
    simp only [scanLoop, hA, hothers, hB, hx, hy]

/-- With one node left, both builders have their root. -/
theorem scanLoop_one {f : Nat} {heap L : List NodeIdx} (node : List Node) (hperm : heap.Perm L)
    (hone : heap.length = 1) (hf : heap.length ≤ f) : ∃ r, heap = [r] ∧ scanLoop f node L = some (node, r) := by
  obtain ⟨r, rfl⟩ := List.length_eq_one_iff.mp hone
  obtain rfl : L = [r] := List.perm_singleton.mp hperm.symm
  obtain ⟨e, rfl⟩ := Nat.exists_eq_add_of_le' hf
  exact ⟨r, rfl, rfl⟩

/-- From the same arena and the same set of nodes both builders end with the same arena and the same root. -/
theorem buildLoop_scanLoop {g f : Nat} {m : Internals} {L : List NodeIdx} (h : HeapInv m) (hperm : m.heap.Perm L)
    (hpos : 1 ≤ m.heap.length) (hg : m.heap.length ≤ g + 1) (hf : m.heap.length ≤ f)
    (hroom : m.node.length + m.heap.length ≤ 512) :
    ∃ k r, buildLoop g m = .ok k ∧ k.heap = [r] ∧ scanLoop f m.node L = some (k.node, r) := by
  induction g generalizing f m L with
  | zero =>
    obtain ⟨r, hr, hscan⟩ := scanLoop_one m.node hperm (by omega) hf
    exact ⟨m, r, rfl, hr, hscan⟩
  | succ g ih =>
    rw [buildLoop]
    split_ifs with htwo
    · obtain ⟨e, rfl⟩ := Nat.exists_eq_add_of_le' (hpos.trans hf)
      obtain ⟨a, b, rest, hp, hrun, hab, ha, hb, hp', hinv⟩ := buildRound_heapInv h htwo (by omega)
      have hlen : hp.length + 1 = m.heap.length := buildRound_length hrun
      have hmem (n : NodeIdx) (hn : n ∈ a :: b :: rest) : n.toNat < m.node.length := h.inArena n (hab.mem_iff.mpr hn)
      have hea := List.getElem?_eq_getElem (hmem a (by simp))
      have heb := List.getElem?_eq_getElem (hmem b (by simp))
      have hsame {c d : NodeIdx} (hcd : Precedes m c d) : Precedes (scanRegisters m.node) c d :=
        hcd.append (xs := []) (List.append_nil _).symm
      obtain ⟨others, hothers, hscan⟩ := scanLoop_merge (f := e) (fun n hn => h.inArena n (hperm.mem_iff.mpr hn))
        (hperm.nodup_iff.mp h.nodup) (hperm.symm.trans hab) (fun n hn => hsame (ha n hn)) (fun n hn => hsame (hb n hn))
        hea heb
      rw [← nodeAt_of_getElem? hea, ← nodeAt_of_getElem? heb] at hscan
      obtain ⟨k, r, hk, hr, hrest⟩ := ih (f := e) hinv (hp'.trans (hothers.symm.cons _)) (by dsimp only; omega)
        (by dsimp only; omega) (by dsimp only; omega)
        (by simp only [List.length_append, List.length_singleton]; omega)
      exact ⟨k, r, (ok_bind hrun _).trans hk, hr, hscan.trans hrest⟩
    · obtain ⟨r, hr, hscan⟩ := scanLoop_one m.node hperm (by omega) hf
      exact ⟨m, r, rfl, hr, hscan⟩

/-- BUILD after PQ_INIT is its loop and the reading of the root, in the degenerate case too, where the loop makes no
turn (R126, R127). -/
theorem buildAfterInit_scanLoop {f : Nat} {m : Internals} {L : List NodeIdx} (h : HeapInv m) (hperm : m.heap.Perm L)
    (hpos : 1 ≤ m.heap.length) (hf : m.heap.length ≤ f) (hroom : m.node.length + m.heap.length ≤ 512) :
    ∃ k, buildAfterInit m = .ok k ∧ scanLoop f m.node L = some (k.node, k.root) := by
  rw [buildAfterInit]
  split_ifs with hone
  · obtain ⟨r, hr, hscan⟩ := scanLoop_one m.node hperm hone hf
    exact ⟨_, takeRoot_singleton hr, hscan⟩
  · obtain ⟨k, r, hk, hr, hscan⟩ := buildLoop_scanLoop (g := m.heap.length) (m := { m with degenSig := false })
      (h.congr rfl rfl) hperm hpos (Nat.le_succ _) hf hroom
    exact ⟨_, (ok_bind hk _).trans (takeRoot_singleton hr), hscan⟩

/-- Settles O27: after PQ_INIT the heap holds the indices that the scanning builder starts with, and from there both
make the same merges (`buildAfterInit_scanLoop`). -/
theorem heapBuildEqualsScanBuild : Obligations.HeapBuildEqualsScanBuild := by
  intro s hne
  obtain ⟨m, hrun, hb, hlen, -⟩ := pqInit_run s.int
  obtain ⟨hnode, hheap⟩ := hb.leaves_only hlen
  have hpos := List.length_pos_of_ne_nil hne
  have h256 := length_occurring_le s.int.freq
  have hcount : m.node.length = (occurring s.int.freq).length := by rw [hnode, List.length_map]
  obtain ⟨k, hk, hscan⟩ := buildAfterInit_scanLoop (f := 256) hb.heap hheap (by omega) (by omega) (by omega)
  refine ⟨{ s with int := k, phase := 0x20#8 }, onInternals_ok ?_, ?_⟩
  · rw [build, if_neg hne, ok_bind hrun, hk]
  · rw [hnode] at hscan
    rw [scanBuild, List.length_map]
    exact hscan

end Sys2Proof
end

section
/-! PROOFS. HDR_WRITE by itself (R161), and UNPACK on the codes of a message followed by other bits (R182, R185, R187,
R188). -/

namespace Sys2Proof
open Machine

/-! ## HDR_WRITE (R161) -/

/-- A read of OUT depends on the bytes of OUT alone. -/
theorem outRead_congr {s t : State} (h : ∀ a, t.outByte a = s.outByte a) (a n : Nat) :
    outRead t a n = outRead s a n :=
  List.ext_getElem (by simp) fun _ _ _ => by rw [getElem_outRead, getElem_outRead, h]

/-- Settles O34: HDR_WRITE's appends are one append of the header (`flatten_headerFields`), which fits
(`outAppend_appends`) or does not (`outAppend_full`). -/
theorem hdrWriteAppendsTheHeader : Obligations.HdrWriteAppendsTheHeader := by
  intro s h hs hh
  have hrun : exec .hdrWrite s = _ := execHdrWrite_eq hs
  rw [flatten_headerFields, ← hh] at hrun
  refine ⟨fun hfit => ?_, fun hfull => ?_⟩
  · obtain ⟨t, happ, hread, hother, hlen, ht⟩ := outAppend_appends (s := { s with phase := 0x50#8 }) hs hfit
    rw [happ] at hrun
    refine ⟨_, hrun, ?_, hother, hlen, by rw [ht]⟩
    exact (outRead_congr (s := t) (t := { t with hdrLen := t.outLen }) (fun _ => rfl) _ _).trans hread
  · have hshort : s.params.outCap.toNat - s.outLen.toNat < h.length := by
      have := BitVec.le_def.mp hs
      omega
    rw [hrun, outAppend_full (s := { s with phase := 0x50#8 }) hshort]
    rfl

/-! ## UNPACK after the codes of a message -/

/-- The bytes of OUT after a write into its buffer. -/
theorem outRead_of_writeBytes {s : State} {m : Memory} {a : Nat} {bs : List Byte} (h : s.outMem = m.writeBytes a bs) :
    outRead s a bs.length = bs := by
  refine List.ext_getElem (length_outRead ..) fun i h1 h2 => ?_
  rw [getElem_outRead]
  refine State.outByte_of_read ?_
  rw [h, Memory.read_writeBytes, if_pos (by omega), Nat.add_sub_cancel_left, List.getElem?_eq_getElem h2]

section
variable {ct : ByteTable (Option Code)} {s : State} {msg : List Byte} {tail : Code} {T : Nat}

/-- UNPACK scans the codes of a message, for which OUT has room, and then the bits that follow them. -/
theorem execUnpack_tail (hcap : s.inLen ≤ s.params.inCap) (hhdr : s.hdrLen ≤ s.inLen) (hfree : PrefixFree ct)
    (hlegal : LegalLengths ct) (hinv : Inverts s.int.rmap ct) (hcov : Covers ct msg)
    (hsize : T + s.pad.toNat = 8 * (s.inLen.toNat - s.hdrLen.toNat))
    (hbits : inputBits s s.hdrLen.toNat T = codeBits ct msg ++ tail)
    (hroom : s.outLen.toNat + msg.length ≤ s.params.outCap.toNat) :
    ∃ t, Scanned (codeBits ct msg).length [] msg (unpackStart s) t ∧ BitsAt t t.int.bitcur.toNat tail ∧
      t.int.bitcur.toNat + tail.length = T ∧ execUnpack s = settle s (scan tail.length t >>= scanEnd) := by
  have hlt := s.inLen.isLt
  have hT : T = (codeBits ct msg).length + tail.length := by
    rw [← List.length_append, ← hbits, length_inputBits]
  have htrue : (unpackStart s).int.trueBits.toNat - (unpackStart s).int.bitcur.toNat =
      (codeBits ct msg).length + tail.length := by
    rw [toNat_trueBits_unpackStart]
    exact (Nat.sub_zero _).trans (by omega)
  have hall : BitsAt (unpackStart s) 0 (codeBits ct msg ++ tail) := by
    refine (bitsAt_of_inputBits (s := s) ?_).congr fun _ => rfl
    rw [List.length_append, ← hT]
    exact hbits
  obtain ⟨t, ht⟩ := Scanned.of_message (s := unpackStart s) hfree hlegal hinv hcov rfl hall.append.1
    (show 0 + _ < _ by omega) hroom
  refine ⟨t, ht, ht.bitsAt_rest hall, ?_, ?_⟩
  · rw [ht.bitcur, hT]
    exact congrArg (· + tail.length) (Nat.zero_add _)
  · rw [execUnpack_eq, if_neg (BitVec.not_lt.mpr hcap), if_neg (BitVec.not_lt.mpr hhdr), if_neg (by omega),
      unpackFromLoop_eq, htrue, scan_add, ok_bind ht.run]

end

/-- Settles O41: no bits follow the codes, so the scan ends with an empty accumulator. -/
theorem unpackDecodesTheCodes : Obligations.UnpackDecodesTheCodes := by
  intro s ct msg T hcap hhdr hout hfree hlegal hinv hcov hsize hbits hroom
  obtain ⟨t, ht, -, hcur, hrun⟩ := execUnpack_tail (tail := []) hcap hhdr hfree hlegal hinv hcov hsize
    (hbits.trans (List.append_nil _).symm) hroom
  have hframe := scan_ok ht.run
  have htrue : t.int.trueBits.toNat = T := by
    rw [show t.int.trueBits = (unpackStart s).int.trueBits by rw [hframe], toNat_trueBits_unpackStart]
    omega
  have hend : t.int.bitcur = t.int.trueBits := BitVec.eq_of_toNat_eq (hcur.trans htrue.symm)
  have hmem : t.outMem = s.outMem.writeBytes s.outLen.toNat msg := ht.outMem
  have hform : ({ t with phase := 0x71#8 } : State) = { s with
      phase := 0x71#8, outMem := t.outMem, outLen := t.outLen
      int := { s.int with trueBits := t.int.trueBits, acc := t.int.acc, bitcur := t.int.bitcur } } := by
    rw [hframe]
    rfl
  rw [ht.acc, hend] at hform
  refine ⟨{ t with phase := 0x71#8 }, ?_, outRead_of_writeBytes hmem, fun a ha => ?_, ht.outLen, htrue, hform⟩
  · refine hrun.trans ?_
    rw [List.length_nil, ok_bind (show scan 0 t = .ok t from rfl), scanEnd_done ht.acc, settle_ok]
  · have hdraw : t.outDraw = s.outDraw := by rw [hframe]; rfl
    have hread : t.outMem.read a = s.outMem.read a := by
      rw [hmem, Memory.read_writeBytes]
      exact if_neg (by omega)
    show (t.outMem.read a).getD _ = _
    rw [hread, hdraw]
    rfl

/-! ## Bits that no code begins (R185, R188) -/

section
variable {ct : ByteTable (Option Code)} {s t : State}

/-- The scan ends where a transition does. -/
theorem scan_error {n k : Nat} {acc : Code} {out : List Byte} {e : Stop} (h : Scanned n acc out s t)
    (he : decodeBit t = .error e) : scan (n + (k + 1)) s = .error e := by
  rw [scan_add, ok_bind h.run, scan, he]
  rfl

/-- Bits of which no first part is a code stay in the accumulator: fewer than 255 of them are left over. -/
theorem scan_leftover {tail : Code} (hacc : s.int.acc = []) (hbits : BitsAt s s.int.bitcur.toNat tail)
    (hcur : s.int.bitcur.toNat + tail.length < 2 ^ 64) (hne : tail ≠ [])
    (hmiss : ∀ r, r ≠ [] → r <+: tail → s.int.rmap.lookup r = none) (hlt : tail.length < 255) :
    scan tail.length s >>= scanEnd = .error (.raised .leftoverBits (BitVec.ofNat 32 tail.length)) := by
  obtain ⟨u, hu⟩ := Scanned.of_misses hbits hcur (by rwa [hacc, List.nil_append])
    fun r hr hpre => by rw [hacc, List.nil_append]; exact hmiss r hr hpre
  rw [hacc, List.nil_append] at hu
  rw [ok_bind hu.run, scanEnd_left (hu.acc ▸ hne), hu.acc]

/-- The 255th such bit fills the accumulator (R188). -/
theorem scan_noMatch {tail : Code} (hacc : s.int.acc = []) (hbits : BitsAt s s.int.bitcur.toNat tail)
    (hcur : s.int.bitcur.toNat + tail.length < 2 ^ 64)
    (hmiss : ∀ r, r ≠ [] → r <+: tail → s.int.rmap.lookup r = none) (hge : 255 ≤ tail.length) :
    scan tail.length s = .error (.raised .noMatch 255) := by
  obtain ⟨q, x, rest, rfl, hq⟩ : ∃ q x rest, tail = q ++ x :: rest ∧ q.length = 254 :=
    ⟨tail.take 254, tail[254], tail.drop 255, by rw [List.getElem_cons_drop, List.take_append_drop],
      List.length_take_of_le (by omega)⟩
  rw [List.length_append] at hcur
  obtain ⟨u, hu⟩ := Scanned.of_misses (s := s) hbits.append.1 (by omega) (by rw [hacc, List.nil_append, hq]; decide)
    fun r hr hpre => by
      rw [hacc, List.nil_append]
      exact hmiss r hr (hpre.trans (List.prefix_append _ _))
  have hlast := (hu.bitsAt_rest hbits).cons.1
  rw [hacc, List.nil_append] at hu
  have hnext : q ++ [x] = u.int.acc ++ [nextBit u] := by
    rw [hu.acc, ← hlast]
    rfl
  have hmissed : u.int.rmap.lookup (q ++ [x]) = none := by
    rw [hu.rmap_eq]
    exact hmiss _ (by simp) ⟨rest, by simp⟩
  rw [List.length_append]
  exact scan_error hu (decodeBit_full hnext hmissed (by rw [List.length_append, hq]; rfl))

/-- A code that OUT has no room for ends the scan (R227). -/
theorem scan_outFull {b : Byte} {c rest : Code} (hfree : PrefixFree ct) (hlegal : LegalLengths ct)
    (hinv : Inverts s.int.rmap ct) (hc : byteGet ct b = some c) (hacc : s.int.acc = [])
    (hbits : BitsAt s s.int.bitcur.toNat (c ++ rest)) (hcur : s.int.bitcur.toNat + c.length < 2 ^ 64)
    (hfull : s.params.outCap.toNat ≤ s.outLen.toNat) :
    scan (c ++ rest).length s = .error (.raised .outFull 0) := by
  obtain ⟨h1, h255⟩ := hlegal b c hc
  obtain ⟨q, x, rfl⟩ := (List.eq_nil_or_concat' c).resolve_left (List.ne_nil_of_length_pos h1)
  rw [List.length_append, List.length_singleton] at h255 hcur
  rw [List.append_assoc] at hbits ⊢
  obtain ⟨t, ht⟩ := Scanned.of_misses (s := s) hbits.append.1 (by omega)
    (by rw [hacc, List.nil_append]; omega) fun r _ hr => by
      rw [hacc, List.nil_append]
      refine lookup_none_of_prefix hfree hinv hc (hr.trans (List.prefix_append _ _)) ?_
      rw [List.length_append, List.length_singleton]
      exact Nat.lt_succ_of_le hr.length_le
  have hlast := (ht.bitsAt_rest hbits).cons.1
  rw [hacc, List.nil_append] at ht
  have hnext : q ++ [x] = t.int.acc ++ [nextBit t] := by
    rw [ht.acc, ← hlast]
    rfl
  have hmatch : t.int.rmap.lookup (q ++ [x]) = some b := by
    rw [ht.rmap_eq]
    exact (hinv _ _).mpr hc
  have hroom : (afterBit [] t).params.outCap.toNat - (afterBit [] t).outLen.toNat < [b].length := by
    show t.params.outCap.toNat - t.outLen.toNat < 1
    have hlen : t.outLen.toNat = s.outLen.toNat := ht.outLen
    rw [ht.params_eq, hlen]
    omega
  rw [List.length_append]
  exact scan_error ht ((decodeBit_match hnext hmatch).trans (outAppend_full hroom))

end

/-- Settles O42: after the message's codes the scan meets only bits that no code begins. -/
theorem unpackReportsUnmatchedBits : Obligations.UnpackReportsUnmatchedBits := by
  intro s ct msg tail T hcap hhdr _ hfree hlegal hinv hcov hsize hbits hroom hne htail
  obtain ⟨t, ht, hrest, hcur, hrun⟩ := execUnpack_tail hcap hhdr hfree hlegal hinv hcov hsize hbits hroom
  have hlt := s.inLen.isLt
  have hmiss : ∀ r, r ≠ [] → r <+: tail → t.int.rmap.lookup r = none := fun r _ hpre =>
    Option.eq_none_iff_forall_ne_some.mpr fun b hb => htail b r ((hinv r b).mp (ht.rmap_eq ▸ hb)) hpre
  refine ⟨fun h => hrun.trans ?_, fun h => hrun.trans ?_⟩
  · rw [scan_leftover ht.acc hrest (by omega) hne hmiss h, settle_raised]
  · rw [scan_noMatch ht.acc hrest (by omega) hmiss h]
    rfl

/-- Settles O43: the padding is checked before the scan, and the first byte of the message that OUT has no room for ends
the scan (`scan_outFull`). -/
theorem unpackReportsPadAndFullOutput : Obligations.UnpackReportsPadAndFullOutput := by
  intro s hcap hhdr hout
  refine ⟨fun hpad => (execUnpack_eq s).trans ?_, fun ct msg rest T hfree hlegal hinv hcov hsize hbits hfull => ?_⟩
  · rw [if_neg (BitVec.not_lt.mpr hcap), if_neg (BitVec.not_lt.mpr hhdr), if_pos hpad]
  · have hfits := BitVec.le_def.mp hout
    have hlt := s.inLen.isLt
    obtain ⟨pre, b, post, rfl, hpre⟩ : ∃ pre b post, msg = pre ++ b :: post ∧
        pre.length = s.params.outCap.toNat - s.outLen.toNat :=
      ⟨msg.take _, msg[s.params.outCap.toNat - s.outLen.toNat], msg.drop _,
        by rw [List.getElem_cons_drop, List.take_append_drop], List.length_take_of_le (by omega)⟩
    obtain ⟨c, hc⟩ := Option.isSome_iff_exists.mp (hcov b (by simp))
    rw [codeBits_append, codeBits_cons hc, List.append_assoc, List.append_assoc] at hbits
    obtain ⟨t, ht, hrest, hcur, hrun⟩ := execUnpack_tail hcap hhdr hfree hlegal hinv
      (fun x hx => hcov x (List.mem_append_left _ hx)) hsize hbits (by omega)
    have hlen : t.outLen.toNat = s.outLen.toNat + pre.length := ht.outLen
    have hparams : t.params = s.params := ht.params_eq
    refine hrun.trans ?_
    rw [List.length_append] at hcur
    rw [scan_outFull hfree hlegal (ht.rmap_eq ▸ hinv) hc ht.acc hrest (by omega) (by rw [hparams, hlen]; omega)]
    rfl

end Sys2Proof
end

section
/-! PROOFS. A unit operation run as a small step of its own, and what the sequencer runs after it (R27, R126, R182). -/

namespace Sys2Proof
open Machine

/-! ## Runs of small steps -/

/-- With no command and nothing pending, nothing executes (R250). -/
theorem run_idle {s : State} (hidle : s.status.state ≠ .busy) (hq : s.hostQueue = []) (k : Nat) :
    core.run k s = .next s := by
  have hstep : step s = .next s := by
    rw [step, hq]
    exact if_neg hidle
  induction k with
  | zero => rfl
  | succ k ih => exact run_step hstep ih

section
variable {M : Host.Core} {s : M.State}

theorem run_fault {r : M.Fault} (h : M.step s = .fault r) (k : Nat) : M.run (k + 1) s = .fault r := by
  rw [Host.Core.run, h]

theorem run_refused {r : M.Refusal} (h : M.step s = .refused r) (k : Nat) : M.run (k + 1) s = .refused r := by
  rw [Host.Core.run, h]

end

theorem run_one (s : State) : core.run 1 s = step s := by
  cases h : step s with
  | next t => exact run_step h rfl
  | fault r => exact run_fault (M := core) h 0
  | refused r => exact run_refused (M := core) h 0

/-- A small step, and then a run of those that follow: a command that has ended stays so. -/
theorem run_advance {s : State} {i : Instr} {o : Result} (hstep : step s = advance i o) (hkeep : KeepsHost s o)
    (hq : s.hostQueue = []) (k : Nat) :
    core.run (k + 1) s = thenBusy o fun t => core.run k (followed i t) := by
  cases o with
  | next t =>
    by_cases hb : t.status.state = .busy
    · exact (run_step (hstep.trans (thenBusy_busy hb _)) rfl).trans
        (thenBusy_busy hb fun u => core.run k (followed i u)).symm
    · have hqt : t.hostQueue = [] := (congrArg HostPart.hostQueue (hkeep t rfl)).trans hq
      exact (run_step (hstep.trans (thenBusy_ended hb _)) (run_idle hb hqt k)).trans
        (thenBusy_ended hb _).symm
  | fault r => exact run_fault (M := core) hstep k
  | refused r => exact run_refused (M := core) hstep k

/-- While a command runs with nothing pending, a step is a small step (R25). -/
theorem step_running {s : State} (hbusy : s.status.state = .busy) (hq : s.hostQueue = []) : step s = busyStep s :=
  step_busy hbusy (by rw [hq]; exact nofun)

/-- A running command with nothing pending runs the operation of `PHASE`, and then those that follow it. -/
theorem run_exec {s : State} {i : Instr} (hbusy : s.status.state = .busy) (hq : s.hostQueue = [])
    (hresume : s.resume = .start ∨ s.resume = .secondExtract) (hi : decode .phase s.phase = .ok i) (k : Nat) :
    core.run (k + 1) s = thenBusy (exec i s) fun t => core.run k (followed i t) :=
  run_advance ((step_running hbusy hq).trans (busyStep_exec hresume hi)) (keepsHost_exec s i) hq k

theorem thenBusy_congr {o : Result} {k k' : State → Result}
    (h : ∀ t, o = .next t → t.status.state = .busy → k t = k' t) : thenBusy o k = thenBusy o k' := by
  cases o with
  | next t =>
    by_cases hb : t.status.state = .busy
    · rw [thenBusy_busy hb, thenBusy_busy hb, h t rfl hb]
    · rw [thenBusy_ended hb, thenBusy_ended hb]
  | fault r => rfl
  | refused r => rfl

/-- An error ends the command, whatever would follow. -/
theorem thenBusy_error (s : State) (e : Stop) (k : State → Result) :
    thenBusy (settle s (.error e)) k = settle s (.error e) := by
  cases e with
  | raised sub info => exact thenBusy_raise sub info s k
  | fault r => rfl
  | refuse r => rfl

/-- An operation depends on the state it was started in through error entry. -/
theorem settle_congr {s u : State} (h : ∀ sub info, raise sub info u = raise sub info s) (x : Run State) :
    settle u x = settle s x := by
  match x with
  | .ok _ => rfl
  | .error (.raised sub info) => exact congrArg _ (h sub info)
  | .error (.fault _) => rfl
  | .error (.refuse _) => rfl

/-! ## UNPACK_BIT, then the rest of UNPACK (R182) -/

/-- The point at which UNPACK is resumed passes through one transition of the decoder, and `PHASE` is written in it. -/
theorem decodeBit_resumeAt (s : State) (p : Byte) (r : Resume) :
    decodeBit (s.resumeAt p r) = (decodeBit s).map (State.resumeAt · 0x72#8 r) := by
  cases hb : s.int.rmap.lookup (s.int.acc ++ [nextBit s]) with
  | some b =>
    rw [decodeBit_match rfl hb, decodeBit_match (s := s.resumeAt p r) rfl hb]
    rcases outAppend_cases (afterBit [] s) [b] with ⟨hroom, hrun⟩ | ⟨hfull, hrun⟩
    · rw [hrun]
      exact outAppend_ok (s := afterBit [] (s.resumeAt p r)) hroom
    · rw [hrun]
      exact outAppend_full (s := afterBit [] (s.resumeAt p r)) hfull
  | none =>
    by_cases hlen : (s.int.acc ++ [nextBit s]).length = 255
    · rw [decodeBit_full rfl hb hlen, decodeBit_full (s := s.resumeAt p r) rfl hb hlen]
      rfl
    · rw [decodeBit_goOn rfl hb hlen, decodeBit_goOn (s := s.resumeAt p r) rfl hb hlen]
      rfl

/-- The loop of UNPACK does not read `PHASE`. -/
theorem unpackFromLoop_withPhase (s : State) (p : Byte) : unpackFromLoop { s with phase := p } = unpackFromLoop s := by
  rw [unpackFromLoop_eq, unpackFromLoop_eq]
  show scan (s.int.trueBits.toNat - s.int.bitcur.toNat) _ >>= _ = _
  cases s.int.trueBits.toNat - s.int.bitcur.toNat with
  | zero => rfl
  | succ n => rfl

/-- With a bit left, the loop of UNPACK takes one transition and goes on. -/
theorem unpackFromLoop_succ {s : State} (hbit : s.int.bitcur < s.int.trueBits) :
    unpackFromLoop s = decodeBit s >>= unpackFromLoop := by
  have hlt := BitVec.lt_def.mp hbit
  have htrue := s.int.trueBits.isLt
  obtain ⟨n, hn⟩ := Nat.exists_eq_add_of_lt hlt
  rw [unpackFromLoop_eq, show s.int.trueBits.toNat - s.int.bitcur.toNat = n + 1 by omega, scan]
  cases hrun : decodeBit s with
  | error e => rfl
  | ok t =>
    have hframe := decodeBit_ok hrun
    have hleft : t.int.trueBits.toNat - t.int.bitcur.toNat = n := by
      rw [hframe]
      show s.int.trueBits.toNat - (s.int.bitcur.toNat + 1) % 2 ^ 64 = n
      omega
    show scan n t >>= scanEnd = scan _ t >>= scanEnd
    rw [hleft]

/-- After one transition the accumulator is not full (R188). -/
theorem decodeBit_acc_lt {s t : State} (hroom : s.int.acc.length < 255) (h : decodeBit s = .ok t) :
    t.int.acc.length < 255 := by
  cases hb : s.int.rmap.lookup (s.int.acc ++ [nextBit s]) with
  | some b =>
    rw [decodeBit_match rfl hb] at h
    rw [outAppend_frame h]
    exact Nat.succ_pos 254
  | none =>
    by_cases hlen : (s.int.acc ++ [nextBit s]).length = 255
    · rw [decodeBit_full rfl hb hlen] at h
      cases h
    · rw [decodeBit_goOn rfl hb hlen] at h
      cases h
      rw [List.length_append] at hlen
      show (s.int.acc ++ [nextBit s]).length < 255
      rw [List.length_append]
      exact Nat.lt_of_le_of_ne hroom hlen

/-- The small step that resumes UNPACK, with every bit that is left in the input and room in the accumulator (R183). -/
theorem step_unpackLoop {s : State} (hbusy : s.status.state = .busy) (hq : s.hostQueue = [])
    (hresume : s.resume = .unpackLoop) (hroom : s.int.acc.length < 255) (hcap : s.inLen ≤ s.params.inCap)
    (hsize : s.int.trueBits.toNat ≤ 8 * (s.inLen.toNat - s.hdrLen.toNat)) :
    step s = advance .unpack (settle s (unpackFromLoop s)) := by
  rw [step_running hbusy hq, busyStep, hresume]
  show advance .unpack (unpackResume s) = _
  rw [unpackResume_eq, if_neg (BitVec.not_lt.mpr hcap), if_neg fun h => Nat.not_le.mpr hroom h.2,
    if_neg (Nat.not_lt.mpr hsize)]

/-- The small step after a UNPACK_BIT that raised no error resumes UNPACK. -/
theorem step_after_unpackBit {s t : State} (hrun : decodeBit s = .ok t) (hbusy : s.status.state = .busy)
    (hq : s.hostQueue = []) (hroom : s.int.acc.length < 255) (hcap : s.inLen ≤ s.params.inCap)
    (hsize : s.int.trueBits.toNat ≤ 8 * (s.inLen.toNat - s.hdrLen.toNat)) :
    step (t.resumeAt 0x71#8 .unpackLoop) =
      advance .unpack (settle s (unpackFromLoop (t.resumeAt 0x72#8 .unpackLoop))) := by
  have hframe := decodeBit_ok hrun
  have hentry (sub : ErrSub) (info : Word) : raise sub info (t.resumeAt 0x71#8 .unpackLoop) = raise sub info s := by
    rw [hframe]
    rfl
  have hphase : unpackFromLoop (t.resumeAt 0x72#8 .unpackLoop) = unpackFromLoop (t.resumeAt 0x71#8 .unpackLoop) :=
    unpackFromLoop_withPhase (t.resumeAt 0x71#8 .unpackLoop) 0x72#8
  rw [hphase, ← settle_congr hentry]
  exact step_unpackLoop (by rw [hframe]; exact hbusy) (by rw [hframe]; exact hq) rfl
    (show t.int.acc.length < 255 from decodeBit_acc_lt hroom hrun)
    (by rw [hframe]; exact hcap) (by rw [hframe]; exact hsize)

/-- Settles O8: an error of the transition is the same error entry, and after it the loop goes on
(`unpackFromLoop_succ`). -/
theorem unpackBitComposesIntoUnpack : Obligations.UnpackBitComposesIntoUnpack := by
  intro s hbusy hq hresume hphase hbit hroom hcap hsize
  have hlt := BitVec.lt_def.mp hbit
  have hexec : exec .unpackBit s = settle s (decodeBit s) := execUnpackBit_eq hbit hroom hcap (by omega)
  have hright : step (s.resumeAt 0x71#8 .unpackLoop) = _ := step_unpackLoop hbusy hq rfl hroom hcap hsize
  rw [unpackFromLoop_succ (s := s.resumeAt 0x71#8 .unpackLoop) hbit, decodeBit_resumeAt,
    settle_congr (s := s) (u := s.resumeAt 0x71#8 .unpackLoop) fun _ _ => rfl] at hright
  refine (run_exec hbusy hq (.inl hresume) (by rw [hphase]; rfl) 1).trans (Eq.trans ?_ hright.symm)
  rw [hexec]
  cases hrun : decodeBit s with
  | error e => exact (thenBusy_error s e _).trans (thenBusy_error s e _).symm
  | ok t =>
    have htbusy : t.status.state = .busy := by
      rw [decodeBit_ok hrun]
      exact hbusy
    exact (thenBusy_busy htbusy fun u => core.run 1 (followed .unpackBit u)).trans
      ((run_one _).trans (step_after_unpackBit hrun hbusy hq hroom hcap hsize))

/-! ## The primitives of BUILD (R126) -/

/-- A state with other internal registers and at another point of the sequence. -/
def atPoint (s : State) (m : Internals) (p : Byte) (r : Resume) : State := { s with int := m, phase := p, resume := r }

/-- What the small step of BUILD answers when BUILD, or the rest of it, computes `x`. -/
def buildAnswer (s : State) (x : Run Internals) : Result :=
  advance .build (settle s (x.map fun m => { s with int := m, phase := 0x20#8 }))

section
variable {s : State} {m : Internals} {p : Byte} {r : Resume}

/-- An operation on the internal registers reads these only, whatever the point of the sequence. -/
theorem onInternals_atPoint (code : Byte) (f : Internals → Run Internals) :
    onInternals code (atPoint s m p r) f = settle s ((f m).map fun k => atPoint s k code r) := by
  rw [← settle_congr (s := s) (u := atPoint s m p r) fun _ _ => rfl]
  show settle _ (f m >>= _) = _
  cases f m <;> rfl

section
variable (hbusy : s.status.state = .busy)
include hbusy

/-- The small step of BUILD does not depend on where the sequence stood. -/
theorem advance_build_atPoint (f : Internals → Run Internals) :
    advance .build (onInternals 0x20#8 (atPoint s m p r) f) = buildAnswer s (f m) := by
  rw [onInternals_atPoint, buildAnswer]
  cases f m with
  | ok k =>
    exact (thenBusy_busy (s := atPoint s k 0x20#8 r) hbusy _).trans
      (thenBusy_busy (s := { s with int := k, phase := 0x20#8 }) hbusy fun u => .next (followed .build u)).symm
  | error e => rfl

variable (hq : s.hostQueue = [])
include hq

/-- BUILD goes on at the test of its loop. -/
theorem step_buildLoop : step (atPoint s m p .buildLoop) = buildAnswer s (buildFromLoop m) :=
  (step_running (s := atPoint s m p .buildLoop) hbusy hq).trans (advance_build_atPoint hbusy buildFromLoop)

/-- BUILD goes on after PQ_INIT. -/
theorem step_buildTest : step (atPoint s m p .buildTest) = buildAnswer s (buildAfterInit m) :=
  (step_running (s := atPoint s m p .buildTest) hbusy hq).trans (advance_build_atPoint hbusy buildAfterInit)

/-- The small step of BUILD as a whole. -/
theorem step_build : step (atPoint s m 0x20#8 .start) = buildAnswer s (build m) :=
  (step_running (s := atPoint s m 0x20#8 .start) hbusy hq).trans (advance_build_atPoint hbusy build)

/-- A primitive that runs as a step of its own, and then a run that computes the rest of BUILD. -/
theorem run_primitive {i : Instr} {f g : Internals → Run Internals} {n : Nat}
    (hexec : ∀ u, exec i u = onInternals p u f) (hi : decode .phase p = .ok i)
    (hr : r = .start ∨ r = .secondExtract)
    (hrest : ∀ k, core.run n (followed i (atPoint s k p r)) = buildAnswer s (g k)) :
    core.run (n + 1) (atPoint s m p r) = buildAnswer s (f m >>= g) := by
  refine (run_exec (s := atPoint s m p r) hbusy hq hr hi n).trans ?_
  rw [hexec, onInternals_atPoint]
  cases f m with
  | ok k => exact (thenBusy_busy (s := atPoint s k p r) hbusy _).trans (hrest k)
  | error e => exact (thenBusy_error s e _).trans (thenBusy_error s e _).symm

end

end

/-- With at least two nodes in the heap, the loop of BUILD takes one turn and goes on. -/
theorem buildFromLoop_succ {m : Internals} (htwo : 2 ≤ m.heap.length) :
    buildFromLoop m = buildRound m >>= buildFromLoop := by
  obtain ⟨n, hn⟩ := Nat.exists_eq_add_of_le' htwo
  rw [buildFromLoop, hn, buildLoop, if_pos (by omega)]
  cases hround : buildRound m with
  | error e => rfl
  | ok k =>
    have hlen : n + 1 = k.heap.length := by
      have := buildRound_length hround
      omega
    rw [hlen]
    rfl

/-- Settles O7: BUILD is PQ_INIT and the rest, and a turn of its loop is the four primitives in order
(`run_primitive`). -/
theorem primitivesComposeIntoBuild : Obligations.PrimitivesComposeIntoBuild := by
  intro s hbusy hq hresume
  have hs : s = atPoint s s.int s.phase .start := by
    rw [← hresume]
    rfl
  refine ⟨fun hp hne => ?_, fun hp htwo => ?_⟩ <;> rw [hp] at hs
  · have hbuild : build s.int = Machine.pqInit s.int >>= buildAfterInit := if_neg hne
    have hright : step (atPoint s s.int 0x20#8 s.resume) = _ := hresume ▸ step_build hbusy hq
    refine Eq.trans ?_ hright.symm
    rw [hbuild]
    refine (congrArg (core.run 2) hs).trans ?_
    exact run_primitive hbusy hq (i := .pqInit) (fun _ => rfl) rfl (.inl rfl) fun k =>
      (run_one _).trans (step_buildTest hbusy hq)
  · refine Eq.trans ?_ (step_buildLoop (m := s.int) (p := 0x20#8) hbusy hq).symm
    rw [buildFromLoop_succ htwo, buildRound]
    simp only [bind_assoc]
    refine (congrArg (core.run 5) hs).trans ?_
    refine run_primitive hbusy hq (i := .pqExtractMin) (fun _ => rfl) rfl (.inl rfl) fun k => ?_
    refine run_primitive hbusy hq (i := .pqExtractMin) (fun _ => rfl) rfl (.inr rfl) fun k => ?_
    refine run_primitive hbusy hq (i := .merge) (fun _ => rfl) rfl (.inl rfl) fun k => ?_
    refine run_primitive hbusy hq (i := .pqInsert) (fun _ => rfl) rfl (.inl rfl) fun k => ?_
    exact (run_one _).trans (step_buildLoop hbusy hq)

end Sys2Proof
end

section
/-! PROOFS. The commands as runs of small steps (R200 to R202): a unit operation does not read `PHASE`, and it keeps the
point of the sequence. -/

namespace Sys2Proof
open Machine

/-! ## `PHASE` is not read -/

theorem readCode_withPhase (s : State) (p : Byte) (a n : Nat) :
    readCode { s with phase := p } a n = readCode s a n := by
  induction n generalizing a with
  | zero => rfl
  | succ n ih =>
    rw [readCode, readCode, ih]
    rfl

theorem readEntry_withPhase (s : State) (p : Byte) (a : Nat) (ct : ByteTable (Option Code)) :
    readEntry { s with phase := p } a ct = readEntry s a ct := by
  simp only [readEntry, readCode_withPhase]
  rfl

theorem readEntries_withPhase (s : State) (p : Byte) (n a : Nat) (ct : ByteTable (Option Code)) :
    readEntries { s with phase := p } n a ct = readEntries s n a ct := by
  induction n generalizing a ct with
  | zero => rfl
  | succ n ih =>
    rw [readEntries_succ, readEntries_succ, readEntry_withPhase]
    exact bind_congr fun r => ih r.1 r.2

/-- No unit operation reads `PHASE`, and each writes its own code into it (R27). -/
theorem exec_withPhase {i : Instr} (hi : i.format = .phase) (s : State) (p : Byte) :
    exec i { s with phase := p } = exec i s := by
  have hentry (x : Run State) : settle { s with phase := p } x = settle s x := settle_congr (fun _ _ => rfl) x
  have hread : memRead { s with phase := p } 0 s.inLen.toNat = memRead s 0 s.inLen.toNat := memRead_congr fun _ _ => rfl
  cases i with
  | compress | decompress => exact absurd hi (by decide)
  | build | pqInit | pqInsert | pqExtractMin | merge | gencodes | hdrWrite | payloadWrite | rmapBuild | unpack
  | unpackBit =>
    exact hentry _
  | freq =>
    refine (hentry _).trans ?_
    rw [hread]
    rfl
  | pack =>
    refine (hentry _).trans ?_
    rw [hread]
    rfl
  | hdrRead =>
    refine (hentry _).trans ?_
    simp only [readEntries_withPhase]
    rfl

/-! ## The point of the sequence -/

theorem outAppends_frame {s t : State} {fs : List (List Byte)} (h : fs.foldlM outAppend s = .ok t) :
    t = { s with outMem := t.outMem, outLen := t.outLen } := by
  induction fs generalizing s with
  | nil =>
    cases h
    rfl
  | cons v fs ih =>
    obtain ⟨u, hu, h⟩ := bind_ok h
    have hframe := ih h
    rw [outAppend_frame hu] at hframe
    exact hframe

/-- A unit operation leaves the resume register to the sequencer (log 8). -/
theorem exec_resume {i : Instr} (hi : i.format = .phase) {s t : State} (h : exec i s = .next t) :
    t.resume = s.resume ∨ ∃ sub info, t = raise sub info s := by
  have hinternals {code : Byte} {f : Internals → Run Internals} (h : onInternals code s f = .next t) :
      t.resume = s.resume ∨ ∃ sub info, t = raise sub info s := by
    rcases onInternals_next h with ⟨m, -, rfl⟩ | ⟨sub, info, -, ht⟩
    · exact .inl rfl
    · exact .inr ⟨sub, info, ht⟩
  cases i with
  | compress | decompress => exact absurd hi (by decide)
  | build | pqInit | pqInsert | pqExtractMin | merge => exact hinternals h
  | freq =>
    obtain ⟨-, rfl⟩ := execFreq_next h
    exact .inl rfl
  | gencodes =>
    rcases execGencodes_next h with ⟨ct, cnt, -, rfl⟩ | hraise
    · exact .inl rfl
    · exact .inr hraise
  | pack => exact (execPack_next h).imp_left fun hframe => by rw [hframe]
  | hdrRead => exact (execHdrRead_next h).imp_left fun hframe => by rw [hframe]
  | rmapBuild => exact (execRmapBuild_next h).imp_left fun hframe => by rw [hframe]
  | unpack => exact (execUnpack_next h).imp_left fun hframe => by rw [hframe]
  | unpackBit => exact (execUnpackBit_next h).imp_left fun hrun => by rw [decodeBit_ok hrun]
  | payloadWrite => exact (execPayloadWrite_next h).imp_left fun hrun => by rw [outAppend_frame hrun]
  | hdrWrite =>
    rcases settle_next h with hrun | ⟨sub, info, -, ht⟩
    · obtain ⟨u, hu, hrun⟩ := bind_ok hrun
      cases hrun
      refine .inl ?_
      rw [outAppends_frame hu]
    · exact .inr ⟨sub, info, ht⟩

/-! ## The commands (R200 to R202) -/

/-- A command that began in `s` runs, with nothing pending, at the start of an operation. -/
structure AtOperation (s u : State) : Prop where
  host : hostPart u = hostPart s
  quiet : s.hostQueue = []
  busy : u.status.state = .busy
  start : u.resume = .start

namespace AtOperation
variable {s u : State}

theorem prologue (hq : s.hostQueue = []) : AtOperation s (prologue s) := ⟨rfl, hq, rfl, rfl⟩

theorem emptyInput (hq : s.hostQueue = []) : AtOperation s (emptyInput (Machine.prologue s)) := ⟨rfl, hq, rfl, rfl⟩

theorem inLen (h : AtOperation s u) : u.inLen = s.inLen := congrArg HostPart.inLen h.host

/-- The sequencer's step to an operation runs it and what follows, as the command as one transition does. -/
theorem run_goto (h : AtOperation s u) {i : Instr} {p : Byte} (hi : decode .phase p = .ok i) {n : Nat}
    {k : State → Result} (hk : ∀ t, AtOperation s t → core.run n (followed i t) = k t) :
    core.run (n + 1) (u.goto p) = thenBusy (exec i u) k := by
  have hgoto : u.goto p = { u with phase := p } := by rw [State.goto, ← h.start]
  have hqueue : u.hostQueue = [] := (congrArg HostPart.hostQueue h.host).trans h.quiet
  have hformat := format_of_decode hi
  refine (run_exec (s := u.goto p) h.busy hqueue (.inl rfl) hi n).trans ?_
  rw [hgoto, exec_withPhase hformat]
  refine thenBusy_congr fun t ht hbusy => hk t ⟨(keepsHost_exec u i t ht).trans h.host, h.quiet, hbusy, ?_⟩
  rcases exec_resume hformat ht with hresume | ⟨sub, info, rfl⟩
  · exact hresume.trans h.start
  · exact absurd hbusy (by simp)

end AtOperation

/-- Settles O6: both sides run the same operations in order (`AtOperation.run_goto`) and then end the command. -/
theorem smallStepsRunCommands : Obligations.SmallStepsRunCommands := by
  intro s hq hcap
  have hstart := AtOperation.prologue hq
  refine ⟨fun hne => ?_, fun hempty => ?_, ?_⟩
  · have hcompress : exec .compress s = _ := (withPrologue_body hcap compressBody).trans (if_neg hne)
    have hfirst : startCompress s = (prologue s).goto 0x10#8 := if_neg hne
    rw [hcompress, hfirst]
    refine hstart.run_goto (i := .freq) rfl fun t ht => ht.run_goto (i := .build) rfl fun t ht =>
      ht.run_goto (i := .gencodes) rfl fun t ht => ht.run_goto (i := .pack) rfl fun t ht =>
      ht.run_goto (i := .hdrWrite) rfl fun t ht => ?_
    rw [followed, if_neg (ht.inLen ▸ hne)]
    exact ht.run_goto (i := .payloadWrite) rfl fun t _ => rfl
  · have hcompress : exec .compress s = _ := (withPrologue_body hcap compressBody).trans (if_pos hempty)
    have hfirst : startCompress s = (emptyInput (prologue s)).goto 0x50#8 := if_pos hempty
    rw [hcompress, hfirst]
    refine (AtOperation.emptyInput hq).run_goto (i := .hdrWrite) rfl fun t ht => ?_
    rw [followed, if_pos (ht.inLen.trans hempty)]
    rfl
  · have hdecompress : exec .decompress s = decompressBody (prologue s) := withPrologue_body hcap _
    rw [hdecompress]
    exact hstart.run_goto (i := .hdrRead) rfl fun t ht => ht.run_goto (i := .rmapBuild) rfl fun t ht =>
      ht.run_goto (i := .unpack) rfl fun t _ => rfl

end Sys2Proof
end
